-- ==== Sys2Proof/Word.lean ====
section
/-! DEFINITION. The two word types of the machine (rule R10): 16-bit registers and display words, 8-bit bus and
image-memory bytes. Coordinates are exact integers (rule R11) and use Lean's Int; counts and addresses use Nat. -/

namespace Sys2Proof

/-- A host register or display word (R8, R20). -/
abbrev Word := BitVec 16

/-- A bus or image-memory byte (R47, R53). -/
abbrev Byte := BitVec 8

end Sys2Proof
end

