-- ==== Sys2Proof/Syntax.lean ====
section
/-! DEFINITION. The commands of the block: one constructor per row of the opcode table (R81). A CMD word packs no
operand (R80, R84), so a constructor has no argument: the operands stand in the registers A0 to A4, and R83 says
which register each command reads and how. An assembled command (R101) pairs a command with its operand values. -/

namespace Sys2Proof

/-- The fifteen commands, in opcode order (R81). -/
inductive Instr where
  | nop
  | setaddr
  | point
  | readword
  | writeword
  | blank
  | circle
  | rect
  | triangle
  | star
  | bitimage
  | wordimage
  | fillregion
  | clear
  | fillscreen
deriving DecidableEq, Repr

/-- All commands, in opcode order. -/
def Instr.all : List Instr :=
  [.nop, .setaddr, .point, .readword, .writeword, .blank, .circle, .rect, .triangle, .star, .bitimage,
    .wordimage, .fillregion, .clear, .fillscreen]

/-- How an operand register is read (R83): `op`, `pen` and `mode` operands are 16-bit codes with decodes of their
own (R87, R89, R90). -/
inductive OperandKind where
  | u8lo
  | s16
  | u16
  | op
  | pen
  | mode
deriving DecidableEq, Repr

/-- The operand table of R83: the kinds of A0, A1, ... for each command. -/
def Instr.operands : Instr → List OperandKind
  | .nop => []
  | .setaddr => [.u8lo, .u8lo]
  | .point => [.s16, .s16, .op]
  | .readword => [.s16, .s16]
  | .writeword => [.s16, .s16, .u16]
  | .blank => [.s16, .s16, .s16, .s16]
  | .circle => [.s16, .s16, .s16, .pen]
  | .rect => [.s16, .s16, .s16, .s16, .pen]
  | .triangle => [.s16, .s16, .s16, .s16, .pen]
  | .star => [.s16, .s16, .s16, .s16, .pen]
  | .bitimage => [.u16, .s16, .s16, .mode]
  | .wordimage => [.u16, .s16, .s16, .mode]
  | .fillregion => [.s16, .s16, .s16, .s16, .mode]
  | .clear => []
  | .fillscreen => [.u16]

/-- A line of assembly (R101): a command and its operand values in A0, A1, ... order. -/
structure AsmCmd where
  instr : Instr
  args : List Int
deriving DecidableEq, Repr

/-- A host register write: (word offset, value) (R103). -/
structure RegWrite where
  off : BitVec 4
  val : Word
deriving DecidableEq, Repr

/-- Data directives for image memory (R105). -/
inductive Directive where
  | org (a : Nat)
  | byte (bs : List Byte)
  | word (ws : List Word)
deriving DecidableEq, Repr

end Sys2Proof
end

