-- ==== Sys2Proof/WellFormed.lean ====
section
/-! DEFINITION. Well-formedness. A command has no operand of its own, so every `Instr` is well formed; what can be
ill formed is a raw CMD word (R82) and an assembled command (R101: operand count and operand ranges). -/

namespace Sys2Proof

/-- A CMD word that is not reserved: `CMD[15:8] = 0` and `CMD[7:0] ≤ 0x0E` (R82). -/
def cmdWordWellFormed (w : Word) : Bool :=
  w.extractLsb' 8 8 == 0 && (w.extractLsb' 0 8).toNat ≤ 0x0E

/-- The operand range of each kind (R101). -/
def OperandKind.admits : OperandKind → Int → Bool
  | .s16, v => -32768 ≤ v && v ≤ 32767
  | .u8lo, v => 0 ≤ v && v ≤ 255
  | .u16, v => 0 ≤ v && v ≤ 65535
  | .op, v => 0 ≤ v && v ≤ 65535
  | .pen, v => 0 ≤ v && v ≤ 65535
  | .mode, v => 0 ≤ v && v ≤ 65535

/-- Each operand value is in the range of its kind, and there are as many values as kinds. -/
def operandsAdmit : List OperandKind → List Int → Bool
  | [], [] => true
  | k :: ks, v :: vs => k.admits v && operandsAdmit ks vs
  | [], _ :: _ => false
  | _ :: _, [] => false

/-- An assembled command the assembler accepts (R101: a value outside its range is an assembler error). -/
def AsmCmd.wellFormed (a : AsmCmd) : Bool :=
  operandsAdmit a.instr.operands a.args

end Sys2Proof
end

