-- ==== Sys2Proof/Decode.lean ====
section
/-! DEFINITION. The decoder of CMD words, total on all 16-bit values (R106), the encoder written from the same table
(R81, R103), the opcode table as rows of match and mask (R109), and the assembled form as host register writes. -/

namespace Sys2Proof

/-- What the decoder answers for a CMD word: a command, or the name of the check of R106 that it fails. -/
inductive Decoded where
  | command (i : Instr)
  /-- `CMD[15:8] ≠ 0` (R106 step 1). -/
  | reservedHigh
  /-- `CMD[7:0] > 0x0E` (R106 step 2). -/
  | reservedOpcode
deriving DecidableEq, Repr

/-- The opcode map of R81, from the opcode byte. -/
def opcodeInstr (opc : Nat) : Option Instr :=
  match opc with
  | 0x00 => some .nop
  | 0x01 => some .setaddr
  | 0x02 => some .point
  | 0x03 => some .readword
  | 0x04 => some .writeword
  | 0x05 => some .blank
  | 0x06 => some .circle
  | 0x07 => some .rect
  | 0x08 => some .triangle
  | 0x09 => some .star
  | 0x0A => some .bitimage
  | 0x0B => some .wordimage
  | 0x0C => some .fillregion
  | 0x0D => some .clear
  | 0x0E => some .fillscreen
  | _ => none

/-- Decode of an accepted CMD word, in the order of R106. -/
def decode (w : Word) : Decoded :=
  if w.extractLsb' 8 8 ≠ 0 then .reservedHigh
  else match opcodeInstr (w.extractLsb' 0 8).toNat with
    | some i => .command i
    | none => .reservedOpcode

/-- The CMD word of a command: `0x00OPC` (R81, R103). -/
def encode : Instr → Word
  | .nop => 0x0000
  | .setaddr => 0x0001
  | .point => 0x0002
  | .readword => 0x0003
  | .writeword => 0x0004
  | .blank => 0x0005
  | .circle => 0x0006
  | .rect => 0x0007
  | .triangle => 0x0008
  | .star => 0x0009
  | .bitimage => 0x000A
  | .wordimage => 0x000B
  | .fillregion => 0x000C
  | .clear => 0x000D
  | .fillscreen => 0x000E

/-- A row of the opcode table (R109): a CMD word `w` is the row's when `w &&& mask = pattern`. -/
structure OpcodeRow where
  instr : Instr
  pattern : Word
  mask : Word
deriving DecidableEq, Repr

/-- The opcode table's rows: the 16-bit pattern of each command, with mask 0xFFFF (R109). -/
def opcodeTable : List OpcodeRow :=
  Instr.all.map (fun i => ⟨i, encode i, 0xFFFF⟩)

/-- A row matches a CMD word. -/
def OpcodeRow.hits (r : OpcodeRow) (w : Word) : Bool := w &&& r.mask == r.pattern

/-- The host's question to the decoder: the instruction of the table word `w` of `nbits` bits. The CMD word is one
16-bit register write, so its bits are numbered as the table numbers them. -/
def decodeTableWord (nbits w : Nat) : Option Instr :=
  if w < 2 ^ nbits ∧ w < 2 ^ 16 then
    match decode (BitVec.ofNat 16 w) with
    | .command i => some i
    | .reservedHigh => none
    | .reservedOpcode => none
  else none

/-- The value an operand register must hold for an assembled operand (R83, R103). -/
def encodeOperand (v : Int) : Word := BitVec.ofInt 16 v

/-- The operand value a register's contents stand for, by the operand's kind (R83). -/
def decodeOperand : OperandKind → Word → Int
  | .s16, w => w.toInt
  | .u8lo, w => (w.extractLsb' 0 8).toNat
  | .u16, w => w.toNat
  | .op, w => w.toNat
  | .pen, w => w.toNat
  | .mode, w => w.toNat

/-- The operand writes of an assembled command, from register offset `off` on (R103). -/
def operandWrites (off : Nat) : List Int → List RegWrite
  | [] => []
  | v :: vs => ⟨BitVec.ofNat 4 off, encodeOperand v⟩ :: operandWrites (off + 1) vs

/-- The host register writes of an assembled command: one per operand, in order, then CMD (R103). -/
def assemble (a : AsmCmd) : List RegWrite :=
  operandWrites 1 a.args ++ [⟨0, encode a.instr⟩]

/-- Reads operand writes back by the kinds of R83, from register offset `off` on; answers none when a write is
missing or lands elsewhere. -/
def readOperands (off : Nat) : List OperandKind → List RegWrite → Option (List Int)
  | [], [] => some []
  | k :: ks, r :: rs =>
    if r.off = BitVec.ofNat 4 off then
      match readOperands (off + 1) ks rs with
      | some vs => some (decodeOperand k r.val :: vs)
      | none => none
    else none
  | [], _ :: _ => none
  | _ :: _, [] => none

/-- The assembled command a sequence of host writes stands for: the last write must be a CMD write of an unreserved
word, and the writes before it that command's operands in order. -/
def disassemble (ws : List RegWrite) : Option AsmCmd :=
  match ws.getLast? with
  | none => none
  | some c =>
    if c.off = 0 then
      match decode c.val with
      | .command i =>
        match readOperands 1 i.operands ws.dropLast with
        | some vs => some ⟨i, vs⟩
        | none => none
      | .reservedHigh => none
      | .reservedOpcode => none
    else none

end Sys2Proof
end

