-- ==== Sys2Proof/Config.lean ====
section
/-! DEFINITION. The implementation parameters of rule R9, taken as a configuration value, and the free values of the
spec (93_implementation_defined.md U1, U3, U4, U6): opaque constants with no body, so that no proof can see a value.
The default of each parameter stands in Machine/Params.lean. -/

namespace Sys2Proof

/-- The rows of R9 marked `param`. A row marked `source` is fixed and is a plain constant of Machine/Params.lean. -/
structure Config where
  /-- FIELD_MASK[0], FIELD_MASK[1], FIELD_MASK[2] (R33). -/
  mask0 : Word
  mask1 : Word
  mask2 : Word
  /-- The five controller command bytes (R59, R98). -/
  cmdLaset : Byte
  cmdCaset : Byte
  cmdRamwr : Byte
  cmdRmwin : Byte
  cmdRmwout : Byte
  /-- The fixed second data bytes of the two address commands (R113). -/
  lineEnd : Byte
  colEnd : Byte
  /-- Run-length codes of the on run and the generic run (R96). -/
  rleOn : Byte
  rleGeneric : Byte
  /-- PEN_TABLE: entry `j` is the list of offsets that pen-size code `j` adds (R127). -/
  penTable : List (List (Int × Int))
  /-- IMG_ADDR_BITS (R53). -/
  imgAddrBits : Nat
deriving DecidableEq, Repr

/-- Free byte number `slot` of draw number `draw`: what the RMW dummy read returns, and the controller registers
after a sequence the controller model leaves unspecified (R66, R68). DESIGN CHOICE: notes/assumptions/8.md. -/
opaque Config.freeByte (draw slot : Nat) : Byte

/-- Free bit number `slot` of draw number `draw`, for the controller's one-bit registers and modes (R68). -/
opaque Config.freeBit (draw slot : Nat) : Bool

/-- Free display memory contents, as (address, byte) pairs, after a sequence the controller model leaves
unspecified (R68). -/
opaque Config.freeCells (draw : Nat) : List (Nat × Byte)

/-- Which of the racing values an image-memory read sees when the host rewrites the byte during the command
(R75, R245): `draw` numbers the command, `read` numbers the byte read inside it. DESIGN CHOICE:
notes/assumptions/10.md. -/
opaque Config.raceChoice (draw read : Nat) : Nat

end Sys2Proof
end

