-- ==== Sys2Proof/Machine/Params.lean ====
section
/-! DEFINITION. The fixed constants and the parameter defaults of rule R9, the constant tables (R33 to R35, R127), and
what a configuration must satisfy for the display effects of the command rules to hold (`Config.wf`). -/

namespace Sys2Proof.Machine

/-- SCREEN_W = SCREEN_H = 160 (R7). -/
def screenSize : Int := 160

/-- WORDS_PER_LINE = 54 (R8). -/
def wordsPerLine : Nat := 54

/-- WORD_OFF: all three pixels off (R34). -/
def wordOff : Word := 0xFFDF

/-- WORD_ON: all three pixels on (R34). -/
def wordOn : Word := 0x0000

/-- RLE_CODE_OFF, the one run-length code the source fixes (R96). -/
def rleOff : Byte := 0xFF

/-- The sentinel a reading command puts in RESULT at an out-of-range coordinate (R24). -/
def resultSentinel : Word := 0xFFFF

/-- PEN_TABLE of R127: row `j` lists the (dx, dy) offsets that pen-size code `j` adds, in order. -/
def penTable : List (List (Int × Int)) :=
  [ [(0, 0)],
    [(1, 0)],
    [(0, 1)],
    [(1, 1)],
    [(-1, 0)],
    [(0, -1)],
    [(-1, 1)],
    [(1, -1)],
    [(-1, -1)],
    [(2, 0), (-2, 0), (0, 2), (0, -2)],
    [(2, 1), (2, -1), (-2, 1), (-2, -1), (1, 2), (-1, 2), (1, -2), (-1, -2)],
    [(2, 2), (-2, 2), (2, -2), (-2, -2)] ]

/-- The default value of every parameter (R9, R33, R98, R113, R96, R127, R53). PRESUMED:
notes/assumptions/7.md. -/
def defaultConfig : Config where
  mask0 := 0x001F
  mask1 := 0x07C0
  mask2 := 0xF800
  cmdLaset := 0x75
  cmdCaset := 0x15
  cmdRamwr := 0x5C
  cmdRmwin := 0xE0
  cmdRmwout := 0xEE
  lineEnd := 0x9F
  colEnd := 0x35
  rleOn := 0x20
  rleGeneric := 0x60
  penTable := penTable
  imgAddrBits := 16

/-- FIELD_MASK[s] (R33); field indexes are 0, 1 and 2. -/
def fieldMask (c : Config) (s : Nat) : Word :=
  match s with
  | 0 => c.mask0
  | 1 => c.mask1
  | _ => c.mask2

/-- FIELD_SHIFT[s]: the bit position of the least significant bit of field `s` (R33). -/
def fieldShift (c : Config) (s : Nat) : Nat := (fieldMask c s).ctz.toNat

/-- The offsets pen-size code `j` adds (R127). -/
def penRow (c : Config) (j : Nat) : List (Int × Int) := c.penTable.getD j []

/-- The offsets of a composite with code `code`, in the order of R126: the rows of codes `code`, `code - 1`, ..., 0. -/
def penOffsets (c : Config) (code : Nat) : List (Int × Int) :=
  ((List.range (code + 1)).reverse).flatMap (penRow c)

/-- The five controller command bytes are pairwise distinct; without this the controller cannot tell the commands of
R59 apart (92_eei_decisions.md D12). -/
def commandBytesDistinct (c : Config) : Bool :=
  c.cmdLaset != c.cmdCaset && c.cmdLaset != c.cmdRamwr && c.cmdLaset != c.cmdRmwin && c.cmdLaset != c.cmdRmwout &&
  c.cmdCaset != c.cmdRamwr && c.cmdCaset != c.cmdRmwin && c.cmdCaset != c.cmdRmwout &&
  c.cmdRamwr != c.cmdRmwin && c.cmdRamwr != c.cmdRmwout && c.cmdRmwin != c.cmdRmwout

/-- The three field masks are nonempty and share no bit (R33). -/
def masksSeparate (c : Config) : Bool :=
  c.mask0 != 0 && c.mask1 != 0 && c.mask2 != 0 &&
  c.mask0 &&& c.mask1 == 0 && c.mask0 &&& c.mask2 == 0 && c.mask1 &&& c.mask2 == 0

/-- A configuration the command rules make sense for: distinct command bytes, separate fields, and a column window
that reaches the last word column of the surface (R183). DEDUCED: notes/assumptions/21.md. -/
def configWf (c : Config) : Bool :=
  commandBytesDistinct c && masksSeparate c && 53 ≤ c.colEnd.toNat

end Sys2Proof.Machine
end

