-- ==== Sys2Proof/Machine/State.lean ====
section
/-! DEFINITION. The whole state as plain data: the host register file (R20), the reference controller (R58), image
memory (R53), the bus trace (R45), and the host's script of actions on the block (R30); why a step can stop; and the
state after reset (R41). -/

namespace Sys2Proof.Machine

/-- A memory: (address, byte) pairs, addresses strictly rising, no entry equal to what an unlisted address reads as.
The operations and the canonical form `Memory.wf` stand in Machine/Memory.lean. -/
abbrev Memory := List Host.Cell

/-- The controller's access mode (R58). -/
inductive AccessMode where
  | idle
  | write
  | rmw
deriving DecidableEq, Repr

/-- Which address command's parameters the controller is receiving (R58). -/
inductive ParamCmd where
  | none
  | laset
  | caset
deriving DecidableEq, Repr

/-- The reference controller (R58). `dram` holds display word [line][col] at byte addresses `2 * (256 * line + col)`
(bits 15:8) and the next one (bits 7:0). `draws` is the model's own: it numbers the free values of R66 and R68. -/
structure Controller where
  dram : Memory
  line : Byte
  col : Byte
  ls : Byte
  le : Byte
  cs : Byte
  ce : Byte
  mode : AccessMode
  pcmd : ParamCmd
  pidx : Bool
  wphase : Bool
  whi : Byte
  rphase : Bool
  dummy : Bool
  sline : Byte
  scol : Byte
  draws : Nat
deriving DecidableEq, Repr

/-- A bus event of the trace (R45). -/
inductive BusEvent where
  /-- `C(b)`: a command byte write. -/
  | cmd (b : Byte)
  /-- `D(b)`: a data byte write. -/
  | data (b : Byte)
  /-- `R(b)`: a data byte read that returned `b`. -/
  | read (b : Byte)
deriving DecidableEq, Repr

/-- A bus transaction another agent asks for (R246); a read's value comes from the controller. -/
inductive BusOp where
  | cmd (b : Byte)
  | data (b : Byte)
  | read
deriving DecidableEq, Repr

/-- What the outside world can do to the block. -/
inductive HostAct where
  /-- A host write of a register of the 16-word window (R20, R21, R22, R28, R29). -/
  | write (off : BitVec 4) (v : Word)
  /-- A host read of a register of the window (R29). -/
  | read (off : BitVec 4)
  /-- A host write of a byte of image memory (R39, R75). -/
  | image (a : Nat) (b : Byte)
  /-- A bus transaction by another agent (R246). -/
  | bus (op : BusOp)
  /-- An LGB reset; if it lands while a command runs, the command has emitted the first `emitted` events of its trace
  (R42). DESIGN CHOICE: notes/assumptions/11.md. -/
  | reset (emitted : Nat)
deriving DecidableEq, Repr

/-- One entry of the host's script. `early` says where the action lands when a command is running: before the command
completes (true), or after it (false: the host has waited for BUSY = 0, R76 and R247). `noted` says, of an early
action, that a RANGE the command notes (R15, R222) has been noted by then. DESIGN CHOICE: notes/assumptions/6.md. -/
structure HostEvent where
  early : Bool
  noted : Bool
  act : HostAct
deriving DecidableEq, Repr

/-- The machine. -/
structure State where
  /-- The implementation parameters (R9): fixed, no step changes them. -/
  cfg : Config
  /-- Host register CMD (R21): the command word the block fetches. -/
  cmd : Word
  /-- Host operand registers A0 to A5 (R22). -/
  a0 : Word
  a1 : Word
  a2 : Word
  a3 : Word
  a4 : Word
  a5 : Word
  /-- RESULT (R24). -/
  result : Word
  /-- STATUS (R25). -/
  status : Word
  /-- The reference controller on the bus (R58). -/
  rc : Controller
  /-- Image memory (R53). -/
  img : Memory
  /-- The bus trace of the running or last command (R45). DESIGN CHOICE: notes/assumptions/15.md. -/
  trace : List BusEvent
  /-- Image bytes the host wrote since the running command was accepted, oldest first (R75). DESIGN CHOICE:
  notes/assumptions/10.md. -/
  racing : List Host.Cell
  /-- Numbers the free choices of image-read races (R75); advanced by every command that had one. -/
  races : Nat
  /-- What the host's last register read returned; none before the first read. DESIGN CHOICE:
  notes/assumptions/19.md. -/
  hostData : Option Word
  /-- The host's script: what the outside world does next, first action first (R30). DESIGN CHOICE:
  notes/assumptions/4.md. -/
  host : List HostEvent
deriving DecidableEq, Repr

/-- Why the machine stops. The block itself never does (R221, R239). -/
inductive Fault where
  /-- Another agent drives the controller bus while a command runs. R246 forbids it and gives it no effect. Raised by
  the host's `bus` action when BUSY = 1. Safe: the model stops where the hardware interleaves the two. DESIGN CHOICE:
  notes/assumptions/9.md. -/
  | busContention
deriving DecidableEq, Repr

/-- Why the model has no meaning to give. -/
inductive Refusal where
  /-- The instruction has no meaning in the model yet. Raised only by a refused arm of exec. Safe. -/
  | notModelled (mnemonic : String)
deriving DecidableEq, Repr

/-- The controller as a boot leaves it before LGB reset (R242 (c), R243): between whole commands. R43 states no value;
every register here and the empty memory list are DESIGN CHOICES (notes/assumptions/1.md, 2.md). -/
def Controller.boot : Controller where
  dram := []
  line := 0
  col := 0
  ls := 0
  le := 0
  cs := 0
  ce := 0
  mode := .idle
  pcmd := .none
  pidx := false
  wphase := false
  whi := 0
  rphase := false
  dummy := false
  sline := 0
  scol := 0
  draws := 0

/-- LGB reset with a given configuration, controller and image memory: every LGB register at its reset value (R41,
R240), the controller and image memory as they are (R42). The model's own fields start empty: DESIGN CHOICE,
notes/assumptions/3.md. -/
def State.resetWith (cfg : Config) (rc : Controller) (img : Memory) : State where
  cfg := cfg
  cmd := 0
  a0 := 0
  a1 := 0
  a2 := 0
  a3 := 0
  a4 := 0
  a5 := 0
  result := 0
  status := 0
  rc := rc
  img := img
  trace := []
  racing := []
  races := 0
  hostData := none
  host := []

/-- The machine right after reset. -/
def State.reset : State := State.resetWith defaultConfig Controller.boot []

end Sys2Proof.Machine
end

