-- ==== Sys2Proof/Machine/Operands.lean ====
section
/-! DEFINITION. Operand forms: the bytes of a word (R14, R47), the register reads of R83, and the decodes of the point
op (R87), the pen word (R88, R89) and the mode (R90). -/

namespace Sys2Proof.Machine

/-- `w[15:8]` (R10). -/
def hiByte (w : Word) : Byte := w.extractLsb' 8 8

/-- `w[7:0]` (R10). -/
def loByte (w : Word) : Byte := w.extractLsb' 0 8

/-- `{h, l}`: concatenation with `h` in the high bits (R10). -/
def joinBytes (h l : Byte) : Word := h ++ l

/-- `sext_16(v)` (R11): an `s16` operand (R83, R84), an exact integer. DEDUCED: notes/assumptions/22.md. -/
def sext16 (v : Word) : Int := v.toInt

/-- A `u8lo` operand: the low byte, the upper byte ignored (R83). -/
def u8lo (v : Word) : Byte := loByte v

/-- `v[7:0]` of an exact integer: truncation to 8 bits (R113). -/
def byteOfInt (v : Int) : Byte := BitVec.ofInt 8 v

/-- What a single-point access does (R121). -/
inductive PointKind where
  | set
  | clear
  | read
deriving DecidableEq, Repr

/-- A decoded point op (R86). -/
inductive PointOp where
  | single (k : PointKind)
  /-- DRAW(code) or ERASE(code). -/
  | composite (draw : Bool) (code : Nat)
  | reserved
deriving DecidableEq, Repr

/-- decode_op (R87). -/
def decodeOp (a : Word) : PointOp :=
  if a = 0x0000 then .single .clear
  else if a = 0x0001 then .single .set
  else if a = 0xFFFF then .single .read
  else if a.extractLsb' 9 7 = 0 ∧ a.getLsbD 8 = true ∧ a.extractLsb' 5 3 = 0 ∧ (a.extractLsb' 0 4).toNat ≤ 11 then
    .composite (a.getLsbD 4) (a.extractLsb' 0 4).toNat
  else .reserved

/-- The fields of a pen word (R88). -/
def penSize (pen : Word) : Nat := (pen.extractLsb' 0 4).toNat
def penDraw (pen : Word) : Bool := pen.getLsbD 4
def penFill (pen : Word) : Bool := pen.getLsbD 5
def penOrient (pen : Word) : Bool := pen.getLsbD 6

/-- `valid(pen)` (R89). -/
def penValid (pen : Word) : Bool := pen.extractLsb' 7 9 == 0 && penSize pen ≤ 11

/-- `PEN_OP(pen)`: the point op word of every point a shape plots (R88). -/
def penOp (pen : Word) : Word := 0x0100 ||| (pen &&& 0x0010) ||| (pen &&& 0x000F)

/-- The modes of the blits (R90). -/
inductive BlitMode where
  | blank
  | draw
  | fill
deriving DecidableEq, Repr

/-- Mode decode: 0 BLANK, 1 DRAW, 2 FILL, any other value reserved (R90). -/
def decodeMode (a : Word) : Option BlitMode :=
  if a = 0 then some .blank
  else if a = 1 then some .draw
  else if a = 2 then some .fill
  else none

/-- A word offset of the host register window, as a register (R20). -/
inductive HostReg where
  | cmd
  | a0
  | a1
  | a2
  | a3
  | a4
  | a5
  | result
  | status
  | reserved
deriving DecidableEq, Repr

/-- The register map of R20. -/
def hostReg (off : BitVec 4) : HostReg :=
  match off.toNat with
  | 0 => .cmd
  | 1 => .a0
  | 2 => .a1
  | 3 => .a2
  | 4 => .a3
  | 5 => .a4
  | 6 => .a5
  | 7 => .result
  | 8 => .status
  | _ => .reserved

/-- What a host read of a register returns (R20, R29). -/
def State.hostRead (s : State) (off : BitVec 4) : Word :=
  match hostReg off with
  | .cmd => s.cmd
  | .a0 => s.a0
  | .a1 => s.a1
  | .a2 => s.a2
  | .a3 => s.a3
  | .a4 => s.a4
  | .a5 => s.a5
  | .result => s.result
  | .status => s.status
  | .reserved => 0

end Sys2Proof.Machine
end

