-- ==== Sys2Proof/Machine/Memory.lean ====
section
/-! DEFINITION. Memories in canonical form: reading and writing one byte, the 16-bit display word of the controller's
memory (R58, R63, R66), and image memory as the image port reads it (R13, R53, R54, R75). -/

namespace Sys2Proof.Machine

/-- What an address that is not listed reads as, in display memory and in image memory. The spec leaves the power-up
contents open (R39, R43); this byte is a DESIGN CHOICE (notes/assumptions/1.md). -/
def unlistedByte : Byte := 0x00

/-- The byte at an address. -/
def Memory.read : Memory → Nat → Byte
  | [], _ => unlistedByte
  | (b, v) :: m, a => if a = b then v else Memory.read m a

/-- The memory with no entry at an address. -/
def Memory.without (m : Memory) (a : Nat) : Memory := m.filter (fun c => c.1 != a)

/-- A new entry, put before the first larger address. -/
def Memory.place : Memory → Nat → Byte → Memory
  | [], a, v => [(a, v)]
  | (b, u) :: m, a, v => if a < b then (a, v) :: (b, u) :: m else (b, u) :: Memory.place m a v

/-- The memory with one byte written, in canonical form: writing what an unlisted address reads as removes the
entry. -/
def Memory.write (m : Memory) (a : Nat) (v : Byte) : Memory :=
  if v = unlistedByte then m.without a else (m.without a).place a v

/-- The canonical form: addresses strictly rising and below `size`, no entry equal to what an unlisted address
reads as. -/
def Memory.wf (size : Nat) : Memory → Bool
  | [] => true
  | (b, u) :: m => decide (b < size) && u != unlistedByte && m.all (fun c => decide (b < c.1)) && Memory.wf size m

/-- The memory of a list of writes, first write first, addresses taken modulo `size`. -/
def Memory.writeAll (size : Nat) (m : Memory) (cells : List Host.Cell) : Memory :=
  cells.foldl (fun m c => m.write (c.1 % size) c.2) m

/-- Display memory has 256 lines of 256 word columns, two bytes each (R58). -/
def dramSize : Nat := 131072

/-- The address of the high byte of display word [line][col]; the low byte stands next to it. DESIGN CHOICE:
notes/assumptions/13.md. -/
def wordAddr (line col : Byte) : Nat := 2 * (256 * line.toNat + col.toNat)

/-- `DRAM[line][col]` (R58). -/
def Memory.readWord (m : Memory) (line col : Byte) : Word :=
  joinBytes (m.read (wordAddr line col)) (m.read (wordAddr line col + 1))

/-- `DRAM[line][col] <- w` (R63); all 16 bits are stored (R69). -/
def Memory.writeWord (m : Memory) (line col : Byte) (w : Word) : Memory :=
  (m.write (wordAddr line col) (hiByte w)).write (wordAddr line col + 1) (loByte w)

/-- The number of bytes of image memory (R53). -/
def imgSize (c : Config) : Nat := 2 ^ c.imgAddrBits

/-- The bytes the host wrote to image address `a` while the command runs, oldest first (R75). -/
def State.racingAt (s : State) (a : Nat) : List Byte :=
  (s.racing.filter (fun c => c.1 == a)).map (·.2)

/-- `MemRead(a, 1)`, the `read`-th byte read of the command (R13, R53). If the host rewrites the byte during the
command, the value is the old one or one of the new ones, chosen for this read alone (R75, R245). -/
def State.imgByte (s : State) (read a : Nat) : Byte :=
  match s.racingAt (a % imgSize s.cfg) with
  | [] => s.img.read (a % imgSize s.cfg)
  | v :: vs =>
    (v :: vs).getD (Config.raceChoice s.races read % (vs.length + 2)) (s.img.read (a % imgSize s.cfg))

/-- `MemRead(a, 2)`, little-endian (R54); its two bytes are byte reads `read` and `read + 1` of the command. -/
def State.imgWord (s : State) (read a : Nat) : Word :=
  joinBytes (s.imgByte (read + 1) (a + 1)) (s.imgByte read a)

end Sys2Proof.Machine
end

