-- ==== Sys2Proof/Machine/Controller.lean ====
section
/-! DEFINITION. The reference controller's behaviour (R59 to R70): what a command byte, a data byte and a read do to
it. A sequence the spec leaves unspecified (R59, R68) leaves every register and the display memory at free values. -/

namespace Sys2Proof.Machine

/-- A free access mode. -/
def freeMode (draw : Nat) : AccessMode :=
  match Config.freeBit draw 0, Config.freeBit draw 1 with
  | true, true => .rmw
  | true, false => .write
  | false, _ => .idle

/-- A free parameter phase. -/
def freeParam (draw : Nat) : ParamCmd :=
  match Config.freeBit draw 2, Config.freeBit draw 3 with
  | true, true => .caset
  | true, false => .laset
  | false, _ => .none

/-- The controller after a sequence R59 or R68 leaves unspecified: any registers and any display memory. Byte 0 of a
draw is the byte a read returns. -/
def Controller.unspecified (rc : Controller) : Controller where
  dram := Memory.writeAll dramSize [] (Config.freeCells rc.draws)
  line := Config.freeByte rc.draws 1
  col := Config.freeByte rc.draws 2
  ls := Config.freeByte rc.draws 3
  le := Config.freeByte rc.draws 4
  cs := Config.freeByte rc.draws 5
  ce := Config.freeByte rc.draws 6
  mode := freeMode rc.draws
  pcmd := freeParam rc.draws
  pidx := Config.freeBit rc.draws 4
  wphase := Config.freeBit rc.draws 5
  whi := Config.freeByte rc.draws 7
  rphase := Config.freeBit rc.draws 6
  dummy := Config.freeBit rc.draws 7
  sline := Config.freeByte rc.draws 8
  scol := Config.freeByte rc.draws 9
  draws := rc.draws + 1

/-- The line after the pointer leaves the column window: `line + 1` in 8 bits, or `ls` past the line window (R64).
DEDUCED: notes/assumptions/12.md. -/
def Controller.nextLine (rc : Controller) : Byte :=
  if rc.le.toNat < (rc.line + 1).toNat then rc.ls else rc.line + 1

/-- Pointer advance (R64): the line moves only when the column passes `ce`; column 255 plus 1 is past it. -/
def Controller.advance (rc : Controller) : Controller :=
  if rc.ce.toNat < rc.col.toNat + 1 then { rc with col := rc.cs, line := rc.nextLine }
  else { rc with col := rc.col + 1 }

/-- A command byte `C(b)` (R59 to R62, R65, R67, R68). Each rule changes only what it lists: DEDUCED,
notes/assumptions/16.md. Where two of the five parameters are configured equal, which the spec only presumes not to be
(D12), the byte is the first match in the order LASET, CASET, RAMWR, RMWIN, RMWOUT: DESIGN CHOICE,
notes/assumptions/23.md. -/
def Controller.command (c : Config) (b : Byte) (rc : Controller) : Controller :=
  if rc.wphase then rc.unspecified
  else if rc.mode = .rmw ∧ b ≠ c.cmdRmwout then rc.unspecified
  else if b = c.cmdLaset then { rc with mode := .idle, pcmd := .laset, pidx := false }
  else if b = c.cmdCaset then { rc with mode := .idle, pcmd := .caset, pidx := false }
  else if b = c.cmdRamwr then { rc with mode := .write, pcmd := .none, wphase := false }
  else if b = c.cmdRmwin then
    { rc with mode := .rmw, pcmd := .none, sline := rc.line, scol := rc.col, dummy := true, rphase := false,
              wphase := false }
  else if b = c.cmdRmwout then { rc with line := rc.sline, col := rc.scol, mode := .idle }
  else rc.unspecified

/-- A data byte to the display memory in WRITE or RMW mode (R63). -/
def Controller.store (b : Byte) (rc : Controller) : Controller :=
  if rc.wphase then
    ({ rc with dram := rc.dram.writeWord rc.line rc.col (joinBytes rc.whi b), wphase := false }).advance
  else { rc with whi := b, wphase := true }

/-- A data byte `D(b)` (R60, R61, R63, R68). -/
def Controller.data (b : Byte) (rc : Controller) : Controller :=
  match rc.pcmd with
  | .laset =>
    if rc.pidx then { rc with le := b, line := rc.ls, pcmd := .none } else { rc with ls := b, pidx := true }
  | .caset =>
    if rc.pidx then { rc with ce := b, col := rc.cs, pcmd := .none } else { rc with cs := b, pidx := true }
  | .none =>
    match rc.mode with
    | .idle => rc.unspecified
    | .write => rc.store b
    | .rmw => rc.store b

/-- The byte a read returns (R66, R68): free for the dummy read and outside RMW mode. -/
def Controller.readValue (rc : Controller) : Byte :=
  match rc.mode with
  | .idle => Config.freeByte rc.draws 0
  | .write => Config.freeByte rc.draws 0
  | .rmw =>
    if rc.dummy then Config.freeByte rc.draws 0
    else if rc.rphase then loByte (rc.dram.readWord rc.line rc.col)
    else hiByte (rc.dram.readWord rc.line rc.col)

/-- The controller after a read `R` (R66, R68); the pointer does not move. -/
def Controller.afterRead (rc : Controller) : Controller :=
  match rc.mode with
  | .idle => rc.unspecified
  | .write => rc.unspecified
  | .rmw =>
    if rc.dummy then { rc with dummy := false, draws := rc.draws + 1 }
    else if rc.rphase then { rc with rphase := false }
    else { rc with rphase := true }

/-- A bus transaction seen by the controller. -/
def Controller.apply (c : Config) (op : BusOp) (rc : Controller) : Controller :=
  match op with
  | .cmd b => rc.command c b
  | .data b => rc.data b
  | .read => rc.afterRead

/-- The transaction behind a trace event. -/
def BusEvent.op : BusEvent → BusOp
  | .cmd b => .cmd b
  | .data b => .data b
  | .read _ => .read

/-- The controller after a bus trace (R71). -/
def Controller.replay (c : Config) (rc : Controller) (evs : List BusEvent) : Controller :=
  evs.foldl (fun rc e => rc.apply c e.op) rc

/-- The transaction is one the controller model specifies (R59, R68). -/
def Controller.specified (c : Config) (rc : Controller) : BusOp → Bool
  | .cmd b =>
    !rc.wphase && (rc.mode != .rmw || b == c.cmdRmwout) &&
      (b == c.cmdLaset || b == c.cmdCaset || b == c.cmdRamwr || b == c.cmdRmwin || b == c.cmdRmwout)
  | .data _ => rc.pcmd != .none || rc.mode != .idle
  | .read => rc.mode == .rmw

/-- Every event of a trace is one the controller model specifies, where the trace finds the controller. -/
def Controller.allSpecified (c : Config) (rc : Controller) : List BusEvent → Bool
  | [] => true
  | e :: es => rc.specified c e.op && (rc.apply c e.op).allSpecified c es

/-- Between whole commands (R242 (c)): no parameter pending, no half-written word, not in RMW mode. -/
def Controller.ready (rc : Controller) : Bool :=
  rc.pcmd == .none && !rc.wphase && rc.mode != .rmw

/-- The gray level of logical pixel (x, y) of the surface: its field of `DRAM[y][DIV3(159 - x)]`, shifted down (R49,
R50). -/
def Controller.pixelLevel (c : Config) (rc : Controller) (x y : Nat) : Nat :=
  ((rc.dram.readWord (BitVec.ofNat 8 y) (BitVec.ofNat 8 ((159 - x) / 3)) &&& fieldMask c ((159 - x) % 3)) >>>
    fieldShift c ((159 - x) % 3)).toNat

/-- The logical pixel is on: its gray level is 0; intermediate levels read as off (R50). -/
def Controller.pixelOn (c : Config) (rc : Controller) (x y : Nat) : Bool :=
  rc.pixelLevel c x y == 0

end Sys2Proof.Machine
end

