-- ==== Sys2Proof/Machine/Flags.lean ====
section
/-! DEFINITION. STATUS: its fields (R25), what acceptance and completion do to them (R26, R27), and the causes a
command reports (R222 to R225). The block has no condition codes (R31). -/

namespace Sys2Proof.Machine

/-- A field of STATUS (R25). -/
inductive StatusField where
  | busy
  | range
  | illegal
  | badimg
  | busyerr
deriving DecidableEq, Repr

/-- The bit of a STATUS field (R25). -/
def statusMask : StatusField → Word
  | .busy => 0x0001
  | .range => 0x0002
  | .illegal => 0x0004
  | .badimg => 0x0008
  | .busyerr => 0x0010

/-- The reserved bits STATUS[15:5], which read as 0 (R25). -/
def statusReserved : Word := 0xFFE0

/-- `STATUS.f <- 1` (R12). -/
def statusSet (f : StatusField) (w : Word) : Word := w ||| statusMask f

/-- `STATUS.f <- 0` (R12). -/
def statusClear (f : StatusField) (w : Word) : Word := w &&& ~~~ statusMask f

/-- The value of a STATUS field. -/
def statusGet (f : StatusField) (w : Word) : Bool := w &&& statusMask f != 0

/-- Acceptance: the cause bits are cleared in the order of R26, then BUSY is set. -/
def statusAccept (w : Word) : Word :=
  statusSet .busy (statusClear .busyerr (statusClear .badimg (statusClear .illegal (statusClear .range w))))

/-- Completion: `STATUS.BUSY <- 0` (R27). -/
def statusComplete (w : Word) : Word := statusClear .busy w

/-- BUSY of a state (R25). -/
def State.busy (s : State) : Bool := statusGet .busy s.status

end Sys2Proof.Machine
end

