-- ==== Sys2Proof/Machine/Ops.lean ====
section
/-! DEFINITION. The operations every command is built from: the bus primitives (R14), the SetAddress helper (R113),
and the outcome primitives `note`, `fail` and `finish` (R15). The block has no exception mechanism (R221): `fail` is
what stands in its place, and acceptance of the next command is the only return from it (R231). -/

namespace Sys2Proof.Machine

/-- What a running command changes as it goes: the controller, its bus trace, and whether it has noted RANGE. -/
structure Run where
  rc : Controller
  trace : List BusEvent
  range : Bool
deriving DecidableEq, Repr

/-- `BusCmd(b)` (R14). -/
def busCmd (c : Config) (b : Byte) (u : Run) : Run :=
  { u with rc := u.rc.command c b, trace := u.trace ++ [.cmd b] }

/-- `BusData(b)` (R14). -/
def busData (b : Byte) (u : Run) : Run :=
  { u with rc := u.rc.data b, trace := u.trace ++ [.data b] }

/-- `BusRead()`: the byte read (R14, R46). -/
def busReadValue (u : Run) : Byte := u.rc.readValue

/-- `BusRead()`: what it leaves (R14). -/
def busRead (u : Run) : Run :=
  { u with rc := u.rc.afterRead, trace := u.trace ++ [.read u.rc.readValue] }

/-- `BusDataWord(w)`: high byte first (R14, R47, R48). DEDUCED: notes/assumptions/14.md. -/
def busDataWord (w : Word) (u : Run) : Run := busData (loByte w) (busData (hiByte w) u)

/-- `note RANGE` (R15). -/
def noteRange (u : Run) : Run := { u with range := true }

/-- DIV3: exact floor division (R110, R112). -/
def div3 (v : Nat) : Nat := v / 3

/-- MOD3: `v - 3 * DIV3(v)` (R110). -/
def mod3 (v : Nat) : Nat := v - 3 * div3 v

/-- The column byte of SetAddress: `DIV3(xa[7:0])` (R113). -/
def columnByte (xa : Int) : Byte := BitVec.ofNat 8 (div3 (byteOfInt xa).toNat)

/-- `SetAddress(xa, y)` (R113): line address first, then column address; each operand truncated to 8 bits. -/
def setAddress (c : Config) (xa y : Int) (u : Run) : Run :=
  let lineSet := busData c.lineEnd (busData (byteOfInt y) (busCmd c c.cmdLaset u))
  busData c.colEnd (busData (columnByte xa) (busCmd c c.cmdCaset lineSet))

/-- `InRange(x, y)` (R120). -/
def inRange (x y : Int) : Bool := 0 ≤ x && x < screenSize && 0 ≤ y && y < screenSize

/-- `a .. b` of a pseudocode loop: `a, a+1, ..., b`, and nothing when `b < a` (R17). -/
def intRange (a b : Int) : List Int := (List.range (b - a + 1).toNat).map (fun (n : Nat) => a + (n : Int))

/-- The running command as it starts. -/
def State.run (s : State) : Run := { rc := s.rc, trace := s.trace, range := false }

/-- The running command's effects put into the state: controller, trace, and a noted RANGE. -/
def State.commit (s : State) (u : Run) : State :=
  { s with rc := u.rc, trace := u.trace, status := if u.range then statusSet .range s.status else s.status }

/-- Image writes that raced with the command settle when it completes (R75). -/
def State.settle (s : State) : State :=
  { s with img := s.img.writeAll (imgSize s.cfg) s.racing, racing := [],
           races := if s.racing = [] then s.races else s.races + 1 }

/-- The end of a command: `STATUS.BUSY <- 0` (R27). -/
def State.complete (s : State) : State :=
  { s.settle with status := statusComplete s.status }

/-- `finish` (R15). -/
def State.finish (s : State) (u : Run) : State := (s.commit u).complete

/-- `fail <cause>` (R15): the bus events already emitted stay emitted. -/
def State.fail (cause : StatusField) (s : State) (u : Run) : State :=
  { s.commit u with status := statusSet cause (s.commit u).status }.complete

/-- `RESULT <- v` (R24). -/
def State.setResult (s : State) (v : Word) : State := { s with result := v }

end Sys2Proof.Machine
end

