-- ==== Sys2Proof/Machine/Addressing.lean ====
section
/-! DEFINITION. The addressing unit's command, and the idle command: SETADDR (R115) and NOP (R200). -/

namespace Sys2Proof.Machine

/-- NOP: finish (R200). -/
def execNop (s : State) : Host.Outcome State Fault Refusal :=
  .next (s.finish s.run)

/-- SETADDR: `xa = A0[7:0]`, `y = A1[7:0]`, neither mirrored nor checked (R115, R116). -/
def execSetaddr (s : State) : Host.Outcome State Fault Refusal :=
  .next (s.finish (setAddress s.cfg (u8lo s.a0).toNat (u8lo s.a1).toNat s.run))

end Sys2Proof.Machine
end

