-- ==== Sys2Proof/Machine/Blitter.lean ====
section
/-! DEFINITION. The block image blitter (43_blitter.md): the shared outer loop, the bit-plane and word-plane codecs,
and BITIMAGE, WORDIMAGE, FILLREGION, CLEAR and FILLSCREEN. -/

namespace Sys2Proof.Machine

/-- What BlitCheck answers (R183). -/
inductive BlitArea where
  | empty
  | offSurface
  | onSurface
deriving DecidableEq, Repr

/-- `BlitCheck(x, y, w, h)` (R183). -/
def blitCheck (x y w h : Int) : BlitArea :=
  if w ≤ 0 ∨ h ≤ 0 then .empty
  else if x < 0 ∨ y < 0 ∨ screenSize < x + w ∨ screenSize < y + h then .offSurface
  else .onSurface

/-- Words per row: `(w + 2) div 3` (R181). -/
def blitWords (w : Int) : Nat := ((w + 2) / 3).toNat

/-- The controller column of the image's right edge: `159 - (x + w - 1)` (R181). -/
def blitColumn (x w : Int) : Int := 159 - (x + w - 1)

/-- Streams the words `ks` of a row. `next k d` supplies word `k` in source state `d`, or fails; a failure ends the
stream before its word is sent (R181, R194). The answer is the source state after the row, none after a failure. -/
def streamWords {σ : Type} (next : Nat → σ → Option (Word × σ)) : List Nat → σ → Run → Option σ × Run
  | [], d, u => (some d, u)
  | k :: ks, d, u =>
    match next k d with
    | none => (none, u)
    | some (w, d') => streamWords next ks d' (busDataWord w u)

/-- The rows `rs` of a blit: address the row, one write-to-memory command, then its words (R181). -/
def blitRows {σ : Type} (c : Config) (xa y : Int) (nw : Nat) (next : Nat → Nat → σ → Option (Word × σ)) :
    List Nat → σ → Run → Option σ × Run
  | [], d, u => (some d, u)
  | r :: rs, d, u =>
    match streamWords (next r) (List.range nw) d (busCmd c c.cmdRamwr (setAddress c xa (y + r) u)) with
    | (none, u') => (none, u')
    | (some d', u') => blitRows c xa y nw next rs d' u'

/-- A word source that never fails and has no state. -/
def pureSource (f : Nat → Nat → Word) (r k : Nat) (d : Unit) : Option (Word × Unit) := some (f r k, d)

/-- `BlitRows(x, y, w, h, (r, k) -> f(r, k))` (R181). -/
def blitPure (c : Config) (x y w h : Int) (f : Nat → Nat → Word) (u : Run) : Run :=
  (blitRows c (blitColumn x w) y (blitWords w) (pureSource f) (List.range h.toNat) () u).2

/-- A blit that has passed its operand checks: BlitCheck, then `body` (R183). -/
def blitChecked (s : State) (x y w h : Int) (body : State) : State :=
  match blitCheck x y w h with
  | .empty => s.finish s.run
  | .offSurface => s.fail .range s.run
  | .onSurface => body

/-- Image column of field `f` of output word `k` (R185): right to left; negative past the image's left edge. -/
def bitColumn (w : Int) (k f : Nat) : Int := w - 1 - (3 * (k : Int) + f)

/-- The image-memory address of the byte that holds image column `c` of row `r` (R92). -/
def bitByteAddr (p : Nat) (w : Int) (r : Nat) (col : Int) : Nat :=
  p + 2 + r * ((w + 7) / 8).toNat + (col / 8).toNat

/-- Whether image column `col >= 0` of row `r` is on: bit `7 - (col mod 8)` of its byte (R92, R185). `read` numbers
the byte read. -/
def bitOn (s : State) (p : Nat) (w : Int) (read r : Nat) (col : Int) : Bool :=
  (s.imgByte read (bitByteAddr p w r col)).getLsbD (7 - (col % 8).toNat)

/-- One field step of the bit-plane packing (R185): the field is cleared when its column is on. -/
def bitField (s : State) (p : Nat) (w : Int) (r k f : Nat) (wd : Word) : Word :=
  if 0 ≤ bitColumn w k f ∧ bitOn s p w (2 + 3 * (r * blitWords w + k) + f) r (bitColumn w k f) = true then
    wd &&& ~~~ fieldMask s.cfg f
  else wd

/-- `BitWord(r, k)` (R185): from WORD_OFF, fields 0, 1 and 2. Byte reads 0 and 1 of the command are the header's. -/
def bitWord (s : State) (p : Nat) (w : Int) (r k : Nat) : Word :=
  bitField s p w r k 2 (bitField s p w r k 1 (bitField s p w r k 0 wordOff))

/-- BITIMAGE (R186). -/
def execBitimage (s : State) : Host.Outcome State Fault Refusal :=
  .next (
    let p := s.a0.toNat
    let x := sext16 s.a1
    let y := sext16 s.a2
    let w : Int := (s.imgByte 0 p).toNat
    let h : Int := (s.imgByte 1 (p + 1)).toNat
    match decodeMode s.a3 with
    | none => s.fail .illegal s.run
    | some .blank => blitChecked s x y w h (s.finish (blitPure s.cfg x y w h (fun _ _ => wordOff) s.run))
    | some .fill => blitChecked s x y w h (s.finish (blitPure s.cfg x y w h (fun _ _ => wordOn) s.run))
    | some .draw => blitChecked s x y w h (s.finish (blitPure s.cfg x y w h (bitWord s p w) s.run)))

/-- The word-plane decoder's states (R37, R193). -/
inductive DecoderMode where
  | normal
  | inRun
deriving DecidableEq, Repr

/-- The word-plane decoder (R37): its state, the run's remaining count and word, the read pointer `q` (R192), and how
many payload words it has read. It lives only inside one WORDIMAGE (R36). -/
structure Decoder where
  mode : DecoderMode
  remaining : Nat
  runword : Word
  q : Nat
  nread : Nat
deriving DecidableEq, Repr

/-- The decoder at the start of WORDIMAGE: NORMAL, at the payload's first word (R190). -/
def Decoder.start (s : State) (p : Nat) : Decoder :=
  { mode := .normal, remaining := 0, runword := 0, q := (p + 4) % imgSize s.cfg, nread := 0 }

/-- The payload word at the read pointer (R192). Byte reads 0 to 3 of the command are the header's. -/
def Decoder.payload (s : State) (d : Decoder) : Word := s.imgWord (4 + 2 * d.nread) d.q

/-- The decoder past one payload word; the pointer wraps (R192, R53). -/
def Decoder.past (s : State) (d : Decoder) : Decoder :=
  { d with q := (d.q + 2) % imgSize s.cfg, nread := d.nread + 1 }

/-- The kind of a control word (R96). -/
inductive RunKind where
  | off
  | on
  | generic
  | reserved
deriving DecidableEq, Repr

/-- The kind of a control word, from its low byte, in the order of R193. -/
def runKind (c : Config) (w : Word) : RunKind :=
  if loByte w = rleOff then .off
  else if loByte w = c.rleOn then .on
  else if loByte w = c.rleGeneric then .generic
  else .reserved

/-- The first of the `N + 1` words of a run (R193): `N` more remain, and the decoder is INRUN if `N > 0`. -/
def Decoder.beginRun (d : Decoder) (n : Nat) (w : Word) : Word × Decoder :=
  if 0 < n then (w, { d with mode := .inRun, remaining := n, runword := w }) else (w, { d with runword := w })

/-- The next copy of the running word (R193). -/
def Decoder.continueRun (d : Decoder) : Word × Decoder :=
  if d.remaining - 1 = 0 then (d.runword, { d with mode := .normal, remaining := d.remaining - 1 })
  else (d.runword, { d with remaining := d.remaining - 1 })

/-- `NextWord()` (R193); none is `fail BADIMG` (R194). -/
def nextWord (s : State) (d : Decoder) : Option (Word × Decoder) :=
  match d.mode with
  | .inRun => some d.continueRun
  | .normal =>
    let w := d.payload s
    let d1 := d.past s
    if w.getLsbD 5 then
      match runKind s.cfg w with
      | .off => some (d1.beginRun (hiByte w).toNat wordOff)
      | .on => some (d1.beginRun (hiByte w).toNat wordOn)
      | .generic => some ((d1.past s).beginRun (hiByte w).toNat (~~~ d1.payload s))
      | .reserved => none
    else some (~~~ w, d1)

/-- The DRAW mode of WORDIMAGE: the decoder runs on across rows (R190, R195). -/
def drawWordPlane (s : State) (p : Nat) (x y w h : Int) : State :=
  match blitRows s.cfg (blitColumn x w) y (blitWords w) (fun _ _ d => nextWord s d) (List.range h.toNat)
      (Decoder.start s p) s.run with
  | (some _, u) => s.finish u
  | (none, u) => s.fail .badimg u

/-- WORDIMAGE (R190). -/
def execWordimage (s : State) : Host.Outcome State Fault Refusal :=
  .next (
    let p := s.a0.toNat
    let x := sext16 s.a1
    let y := sext16 s.a2
    let w : Int := (s.imgWord 0 p).toNat
    let h : Int := (s.imgWord 2 (p + 2)).toNat
    match decodeMode s.a3 with
    | none => s.fail .illegal s.run
    | some mode =>
      if s.a0.getLsbD 0 then s.fail .illegal s.run
      else match mode with
        | .blank => blitChecked s x y w h (s.finish (blitPure s.cfg x y w h (fun _ _ => wordOff) s.run))
        | .fill => blitChecked s x y w h (s.finish (blitPure s.cfg x y w h (fun _ _ => wordOn) s.run))
        | .draw => blitChecked s x y w h (drawWordPlane s p x y w h))

/-- FILLREGION (R197): DRAW is refused with ILLEGAL, since there is no payload. -/
def execFillregion (s : State) : Host.Outcome State Fault Refusal :=
  .next (
    let x := sext16 s.a0
    let y := sext16 s.a1
    let w := sext16 s.a2
    let h := sext16 s.a3
    match decodeMode s.a4 with
    | none => s.fail .illegal s.run
    | some .draw => s.fail .illegal s.run
    | some .blank => blitChecked s x y w h (s.finish (blitPure s.cfg x y w h (fun _ _ => wordOff) s.run))
    | some .fill => blitChecked s x y w h (s.finish (blitPure s.cfg x y w h (fun _ _ => wordOn) s.run)))

/-- `FillAll(v)` (R199): 160 lines of 54 words from word column 0. -/
def fillAll (c : Config) (v : Word) (u : Run) : Run :=
  (blitRows c 0 0 wordsPerLine (pureSource (fun _ _ => v)) (List.range screenSize.toNat) () u).2

/-- CLEAR (R198). -/
def execClear (s : State) : Host.Outcome State Fault Refusal :=
  .next (s.finish (fillAll s.cfg wordOff s.run))

/-- FILLSCREEN (R199): the value goes to the bus as it is. -/
def execFillscreen (s : State) : Host.Outcome State Fault Refusal :=
  .next (s.finish (fillAll s.cfg s.a0 s.run))

end Sys2Proof.Machine
end

