-- ==== Sys2Proof/Machine/Pixel.lean ====
section
/-! DEFINITION. The pixel access engine (41_pixel.md): the single-point read-modify-write cycle, the pen-size
composite, and POINT, READWORD, WRITEWORD and BLANK. -/

namespace Sys2Proof.Machine

/-- The opening of an RMW cycle on logical pixel (x, y): address it mirrored, enter RMW, discard the dummy read
(R121). -/
def rmwOpen (c : Config) (x y : Int) (u : Run) : Run :=
  busRead (busCmd c c.cmdRmwin (setAddress c (159 - x) y u))

/-- The word the two data reads of an open RMW cycle return (R121). -/
def rmwWord (u : Run) : Word := joinBytes (busReadValue u) (busReadValue (busRead u))

/-- The run after those two reads. -/
def rmwReads (u : Run) : Run := busRead (busRead u)

/-- The field index of logical column x: `MOD3(159 - x)` (R49, R121). -/
def fieldIndex (x : Int) : Nat := mod3 (159 - x).toNat

/-- The word written back by SET or CLEAR on field `f` (R121, R50). -/
def editField (c : Config) (k : PointKind) (f : Nat) (w : Word) : Word :=
  match k with
  | .set => w &&& ~~~ fieldMask c f
  | .clear => w ||| fieldMask c f
  | .read => w

/-- The end of an RMW cycle: SET and CLEAR write both bytes back, READ writes nothing (R121, R124). -/
def rmwClose (c : Config) (k : PointKind) (f : Nat) (w : Word) (u : Run) : Run :=
  match k with
  | .set => busCmd c c.cmdRmwout (busDataWord (editField c .set f w) u)
  | .clear => busCmd c c.cmdRmwout (busDataWord (editField c .clear f w) u)
  | .read => busCmd c c.cmdRmwout u

/-- The effect of `Single(x, y, k)` (R121). -/
def single (c : Config) (x y : Int) (k : PointKind) (u : Run) : Run :=
  if inRange x y then
    rmwClose c k (fieldIndex x) (rmwWord (rmwOpen c x y u)) (rmwReads (rmwOpen c x y u))
  else noteRange u

/-- What `Single(x, y, READ)` returns: NONE out of range, else whether the pixel's field is 0 (R121, R125). -/
def singleValue (c : Config) (x y : Int) (u : Run) : Option Bool :=
  if inRange x y then some (rmwWord (rmwOpen c x y u) &&& fieldMask c (fieldIndex x) == 0) else none

/-- A composite: one `Single` for each offset, each range-checked on its own (R126). -/
def plotOffsets (c : Config) (x y : Int) (k : PointKind) (offs : List (Int × Int)) (u : Run) : Run :=
  offs.foldl (fun u d => single c (x + d.1) (y + d.2) k u) u

/-- SET for a drawing composite, CLEAR for an erasing one (R126). -/
def compositeKind (draw : Bool) : PointKind := if draw then .set else .clear

/-- `Plot(x, y, op)` (R126); a reserved op plots nothing (its command has failed before). -/
def plot (c : Config) (x y : Int) (op : PointOp) (u : Run) : Run :=
  match op with
  | .single k => single c x y k u
  | .composite d code => plotOffsets c x y (compositeKind d) (penOffsets c code) u
  | .reserved => u

/-- RESULT after POINT READ: 1 on, 0 off, the sentinel out of range (R24, R128). -/
def readResult : Option Bool → Word
  | none => resultSentinel
  | some true => 1
  | some false => 0

/-- POINT (R128). -/
def execPoint (s : State) : Host.Outcome State Fault Refusal :=
  .next (match decodeOp s.a2 with
    | .reserved => s.fail .illegal s.run
    | .single .read =>
      (s.setResult (readResult (singleValue s.cfg (sext16 s.a0) (sext16 s.a1) s.run))).finish
        (plot s.cfg (sext16 s.a0) (sext16 s.a1) (.single .read) s.run)
    | .single .set => s.finish (plot s.cfg (sext16 s.a0) (sext16 s.a1) (.single .set) s.run)
    | .single .clear => s.finish (plot s.cfg (sext16 s.a0) (sext16 s.a1) (.single .clear) s.run)
    | .composite d code => s.finish (plot s.cfg (sext16 s.a0) (sext16 s.a1) (.composite d code) s.run))

/-- READWORD (R131). -/
def execReadword (s : State) : Host.Outcome State Fault Refusal :=
  .next (if inRange (sext16 s.a0) (sext16 s.a1) then
      (s.setResult (rmwWord (rmwOpen s.cfg (sext16 s.a0) (sext16 s.a1) s.run))).finish
        (busCmd s.cfg s.cfg.cmdRmwout (rmwReads (rmwOpen s.cfg (sext16 s.a0) (sext16 s.a1) s.run)))
    else (s.setResult resultSentinel).fail .range s.run)

/-- WRITEWORD (R134): the value goes to the bus as it is. -/
def execWriteword (s : State) : Host.Outcome State Fault Refusal :=
  .next (if inRange (sext16 s.a0) (sext16 s.a1) then
      s.finish (busDataWord s.a2
        (busCmd s.cfg s.cfg.cmdRamwr (setAddress s.cfg (159 - sext16 s.a0) (sext16 s.a1) s.run)))
    else s.fail .range s.run)

/-- The points of a rectangle, rows top to bottom, columns left to right (R137). -/
def areaPoints (x y w h : Int) : List (Int × Int) :=
  (intRange y (y + h - 1)).flatMap (fun j => (intRange x (x + w - 1)).map (fun i => (i, j)))

/-- One `Single` for each point, in order. -/
def singleAll (c : Config) (k : PointKind) (pts : List (Int × Int)) (u : Run) : Run :=
  pts.foldl (fun u p => single c p.1 p.2 k u) u

/-- BLANK (R137). -/
def execBlank (s : State) : Host.Outcome State Fault Refusal :=
  .next (s.finish (singleAll s.cfg .clear (areaPoints (sext16 s.a0) (sext16 s.a1) (sext16 s.a2) (sext16 s.a3)) s.run))

end Sys2Proof.Machine
end

