-- ==== Sys2Proof/Machine/Raster.lean ====
section
/-! DEFINITION. The shape rasterizer (42_raster.md). Each shape is the list of points it plots, in order; every point
goes through `plot` with the pen's point op (R150, R151). -/

namespace Sys2Proof.Machine

/-- The points of columns `a .. b` of a row. -/
def rowPoints (a b row : Int) : List (Int × Int) := (intRange a b).map (fun i => (i, row))

/-- One iteration of the circle loop: the eight symmetric points, then the fill spans (R153, R156). -/
def circleOctants (cx cy x y : Int) : List (Int × Int) :=
  [(cx + x, cy + y), (cx - x, cy + y), (cx + x, cy - y), (cx - x, cy - y),
   (cx + y, cy + x), (cx - y, cy + x), (cx + y, cy - x), (cx - y, cy - x)]

def circleSpans (cx cy x y : Int) : List (Int × Int) :=
  rowPoints (cx - x + 1) (cx + x - 1) (cy + y) ++ rowPoints (cx - x + 1) (cx + x - 1) (cy - y) ++
  rowPoints (cx - y + 1) (cx + y - 1) (cy + x) ++ rowPoints (cx - y + 1) (cx + y - 1) (cy - x)

def circleIteration (cx cy : Int) (fill : Bool) (x y : Int) : List (Int × Int) :=
  circleOctants cx cy x y ++ (if fill then circleSpans cx cy x y else [])

/-- The loop of R153 from `(x, y, d)`. The fuel bounds the iterations; `x` rises and `y` never does, so `y - x + 1`
iterations are always enough (Laws/Raster.lean). -/
def circleLoop (cx cy : Int) (fill : Bool) : Nat → Int → Int → Int → List (Int × Int)
  | 0, _, _, _ => []
  | n + 1, x, y, d =>
    if x ≤ y then
      circleIteration cx cy fill x y ++
        (if d < 0 then circleLoop cx cy fill n (x + 1) y (d + 2 * x + 3)
         else circleLoop cx cy fill n (x + 1) (y - 1) (d + 2 * (x - y) + 5))
    else []

/-- The points of a circle, in plotting order (R153): start `(0, r)` with decision variable `1 - r`. -/
def circlePoints (cx cy r : Int) (fill : Bool) : List (Int × Int) :=
  circleLoop cx cy fill (r + 1).toNat 0 r (1 - r)

/-- The points of a rectangle, in plotting order (R157): top, bottom, sides, interior; none when degenerate (R158). -/
def rectPoints (x y w h : Int) (fill : Bool) : List (Int × Int) :=
  if w ≤ 1 ∨ h ≤ 0 then []
  else
    rowPoints x (x + w - 1) y ++
    (if 2 ≤ h then rowPoints x (x + w - 1) (y + h - 1) else []) ++
    (intRange (y + 1) (y + h - 2)).flatMap (fun j => [(x, j), (x + w - 1, j)]) ++
    (if fill then (intRange (y + 1) (y + h - 2)).flatMap (fun j => rowPoints (x + 1) (x + w - 2) j) else [])

/-- The half-width of row `i` (R160); Lean's Int division by a positive number is floor division. -/
def halfWidth (b h i : Int) : Int := if h = 1 then b else (b * i) / (h - 1)

/-- The points of one row of a triangle (R162). -/
def triangleRow (x y b h : Int) (fill flip : Bool) (i : Int) : List (Int × Int) :=
  let row := if flip then y - i else y + i
  if fill ∨ i = h - 1 then rowPoints (x - halfWidth b h i) (x + halfWidth b h i) row
  else if 0 < halfWidth b h i then [(x - halfWidth b h i, row), (x + halfWidth b h i, row)]
  else [(x - halfWidth b h i, row)]

/-- `Tri(x, y, b, h, pen)`: the points of a triangle, in plotting order (R162). -/
def trianglePoints (x y b h : Int) (fill flip : Bool) : List (Int × Int) :=
  if h ≤ 0 ∨ b < 0 then []
  else (intRange 0 (h - 1)).flatMap (triangleRow x y b h fill flip)

/-- The points of a star: the triangle with its apex up, then the one with its apex down (R163, R164). -/
def starPoints (x y b h : Int) (fill : Bool) : List (Int × Int) :=
  if h ≤ 0 ∨ b < 0 then []
  else trianglePoints x (y - 2 * ((h - 1) / 3)) b h fill false ++
    trianglePoints x (y + 2 * ((h - 1) / 3)) b h fill true

/-- `Plot` for each point, in order (R151). -/
def plotAll (c : Config) (op : PointOp) (pts : List (Int × Int)) (u : Run) : Run :=
  pts.foldl (fun u p => plot c p.1 p.2 op u) u

/-- A shape: an invalid pen fails before any bus event, else every point is plotted with PEN_OP (R151). -/
def drawShape (s : State) (pen : Word) (pts : List (Int × Int)) : State :=
  if penValid pen then s.finish (plotAll s.cfg (decodeOp (penOp pen)) pts s.run) else s.fail .illegal s.run

/-- CIRCLE (R153). -/
def execCircle (s : State) : Host.Outcome State Fault Refusal :=
  .next (drawShape s s.a3 (circlePoints (sext16 s.a0) (sext16 s.a1) (sext16 s.a2) (penFill s.a3)))

/-- RECT (R157). -/
def execRect (s : State) : Host.Outcome State Fault Refusal :=
  .next (drawShape s s.a4
    (rectPoints (sext16 s.a0) (sext16 s.a1) (sext16 s.a2) (sext16 s.a3) (penFill s.a4)))

/-- TRIANGLE (R162); ORIENT selects the apex at the bottom (R161). -/
def execTriangle (s : State) : Host.Outcome State Fault Refusal :=
  .next (drawShape s s.a4
    (trianglePoints (sext16 s.a0) (sext16 s.a1) (sext16 s.a2) (sext16 s.a3) (penFill s.a4) (penOrient s.a4)))

/-- STAR (R164); the pen's own ORIENT bit is ignored. -/
def execStar (s : State) : Host.Outcome State Fault Refusal :=
  .next (drawShape s s.a4
    (starPoints (sext16 s.a0) (sext16 s.a1) (sext16 s.a2) (sext16 s.a3) (penFill s.a4)))

end Sys2Proof.Machine
end

