-- ==== Sys2Proof/Machine/Dispatch.lean ====
section
/-! DEFINITION. One arm per command: its meaning. -/

namespace Sys2Proof.Machine

def exec (i : Instr) (s : State) : Host.Outcome State Fault Refusal :=
  match i with
  | .nop => Sys2Proof.Machine.execNop s
  | .setaddr => Sys2Proof.Machine.execSetaddr s
  | .point => Sys2Proof.Machine.execPoint s
  | .readword => Sys2Proof.Machine.execReadword s
  | .writeword => Sys2Proof.Machine.execWriteword s
  | .blank => Sys2Proof.Machine.execBlank s
  | .circle => Sys2Proof.Machine.execCircle s
  | .rect => Sys2Proof.Machine.execRect s
  | .triangle => Sys2Proof.Machine.execTriangle s
  | .star => Sys2Proof.Machine.execStar s
  | .bitimage => Sys2Proof.Machine.execBitimage s
  | .wordimage => Sys2Proof.Machine.execWordimage s
  | .fillregion => Sys2Proof.Machine.execFillregion s
  | .clear => Sys2Proof.Machine.execClear s
  | .fillscreen => Sys2Proof.Machine.execFillscreen s

end Sys2Proof.Machine
end

