-- ==== Sys2Proof/Machine/HostPort.lean ====
section
/-! DEFINITION. The block's two triggers: a running command (R106, R30), and what the outside world does to the block
(R20 to R29, R42, R75, R246). -/

namespace Sys2Proof.Machine

/-- The command word the block fetches: CMD (R21). -/
def State.fetch (s : State) : Word := s.cmd

/-- A reserved CMD word: `fail ILLEGAL`, with no bus event and no image read (R82, R106). -/
def execReserved (s : State) : Host.Outcome State Fault Refusal :=
  .next (s.fail .illegal s.run)

/-- The accepted command runs, from its acceptance state to its completion state (R30, R106). DEDUCED:
notes/assumptions/5.md; no time is modelled: DESIGN CHOICE, notes/assumptions/18.md. -/
def runCommand (s : State) : Host.Outcome State Fault Refusal :=
  match decode s.fetch with
  | .command i => exec i s
  | .reservedHigh => execReserved s
  | .reservedOpcode => execReserved s

/-- A host write of CMD while BUSY = 0 is accepted (R21, R26): CMD holds the value, the causes are cleared, BUSY is
set, and the command's bus trace starts empty. -/
def State.accept (s : State) (v : Word) : State :=
  { s with cmd := v, status := statusAccept s.status, trace := [] }

/-- A host write of CMD or of A0 to A5 while BUSY = 1: only BUSYERR is set (R28). -/
def State.busyError (s : State) : State := { s with status := statusSet .busyerr s.status }

/-- A host register write while BUSY = 0 (R21, R22, R29). -/
def State.idleWrite (s : State) (off : BitVec 4) (v : Word) : State :=
  match hostReg off with
  | .cmd => s.accept v
  | .a0 => { s with a0 := v }
  | .a1 => { s with a1 := v }
  | .a2 => { s with a2 := v }
  | .a3 => { s with a3 := v }
  | .a4 => { s with a4 := v }
  | .a5 => { s with a5 := v }
  | .result => s
  | .status => s
  | .reserved => s

/-- A host register write while BUSY = 1 (R28, R29). -/
def State.busyWrite (s : State) (off : BitVec 4) : State :=
  match hostReg off with
  | .cmd => s.busyError
  | .a0 => s.busyError
  | .a1 => s.busyError
  | .a2 => s.busyError
  | .a3 => s.busyError
  | .a4 => s.busyError
  | .a5 => s.busyError
  | .result => s
  | .status => s
  | .reserved => s

/-- A host register write (R21, R22, R28, R29). -/
def State.hostWrite (s : State) (off : BitVec 4) (v : Word) : State :=
  if s.busy then s.busyWrite off else s.idleWrite off v

/-- A host write of an image-memory byte: at once while idle, racing with the command's reads while busy (R75). -/
def State.hostImage (s : State) (a : Nat) (b : Byte) : State :=
  if s.busy then { s with racing := s.racing ++ [(a % imgSize s.cfg, b)] }
  else { s with img := s.img.write (a % imgSize s.cfg) b }

/-- LGB reset: every LGB register at its reset value (R41, R240); the controller `rc` and image memory stay (R42).
`emitted` is the trace of the command that was cut short. -/
def State.lgbReset (s : State) (rc : Controller) (emitted : List BusEvent) : State :=
  { State.resetWith s.cfg rc s.settle.img with
    trace := emitted, races := s.settle.races, hostData := s.hostData, host := s.host }

/-- Reset while a command runs (R42): the command has emitted the first `n` events of its trace, and the controller
is where that prefix leaves it. -/
def State.resetRunning (s : State) (n : Nat) : Host.Outcome State Fault Refusal :=
  match runCommand { s with trace := [] } with
  | .next t => .next (s.lgbReset (s.rc.replay s.cfg (t.trace.take n)) (t.trace.take n))
  | .fault r => .fault r
  | .refused r => .refused r

/-- The commands that note RANGE and go on (R222); every other command that sets RANGE fails with it, and so ends at
once (R15). -/
def notesKind : Instr → Bool
  | .nop => false
  | .setaddr => false
  | .point => true
  | .readword => false
  | .writeword => false
  | .blank => true
  | .circle => true
  | .rect => true
  | .triangle => true
  | .star => true
  | .bitimage => false
  | .wordimage => false
  | .fillregion => false
  | .clear => false
  | .fillscreen => false

/-- Command `i`, run from its acceptance in this state, notes RANGE (R15, R26). -/
def State.notesWith (s : State) (i : Instr) : Bool :=
  match exec i { s with status := statusAccept s.status } with
  | .next t => notesKind i && statusGet .range t.status
  | .fault _ => false
  | .refused _ => false

/-- The running command notes RANGE. -/
def State.notesRange (s : State) : Bool :=
  match decode s.fetch with
  | .command i => s.notesWith i
  | .reservedHigh => false
  | .reservedOpcode => false

/-- The state in which an action lands: if the running command has noted its RANGE by then (`noted`), RANGE stands in
STATUS from there on (R15, R25, R247). No other cause is ever seen with BUSY = 1, since `fail` ends the command. -/
def State.noteSoFar (noted : Bool) (s : State) : State :=
  if noted && s.busy && s.notesRange then { s with status := statusSet .range s.status } else s

/-- One action of the outside world. -/
def hostAct (a : HostAct) (s : State) : Host.Outcome State Fault Refusal :=
  match a with
  | .write off v => .next (s.hostWrite off v)
  | .read off => .next { s with hostData := some (s.hostRead off) }
  | .image a b => .next (s.hostImage a b)
  | .bus op => if s.busy then .fault .busContention else .next { s with rc := s.rc.apply s.cfg op }
  | .reset n => if s.busy then s.resetRunning n else .next (s.lgbReset s.rc [])

/-- The next action of the host's script lands before the running command completes. -/
def State.hostFirst (s : State) : Bool :=
  match s.host with
  | [] => false
  | e :: _ => e.early

/-- The host's next action, if it has one; an idle block without one stays idle (R27, R240). -/
def hostStep (s : State) : Host.Outcome State Fault Refusal :=
  match s.host with
  | [] => .next s
  | e :: es => hostAct e.act (State.noteSoFar e.noted { s with host := es })

/-- The host's script with its next action put after the running command's completion. -/
def deferNext : List HostEvent → List HostEvent
  | [] => []
  | e :: es => { e with early := false } :: es

end Sys2Proof.Machine
end

