-- ==== Sys2Proof/Machine/Step.lean ====
section
/-! DEFINITION. One step of the machine: while a command is accepted and not complete (BUSY = 1) the command runs as
one atomic step (R30), unless the next action of the host's script lands before it completes; while the block is idle
the host acts. -/

namespace Sys2Proof.Machine

/-- One step. -/
def step (s : State) : Host.Outcome State Fault Refusal :=
  if s.busy && !s.hostFirst then runCommand s else hostStep s

/-- The state with the CMD word `w` accepted and the command next to run, so that `step` fetches and runs exactly it:
the host's next action, if any, waits for its completion. -/
def State.withFetchWord (s : State) (_nbits w : Nat) : State :=
  { s.accept (BitVec.ofNat 16 w) with host := deferNext s.host }

end Sys2Proof.Machine
end

