-- ==== Sys2Proof/Safety.lean ====
section
/-! DEFINITION. The terms claims use: the invariant of every state a run can reach, the condition under which the
command rules define an end state (R242), the framing of a command, and the logical picture of the display. -/

namespace Sys2Proof.Machine

/-- At most one of RANGE, ILLEGAL and BADIMG is set (R228). -/
def causesExclusive (w : Word) : Bool :=
  !(statusGet .range w && statusGet .illegal w) && !(statusGet .range w && statusGet .badimg w) &&
  !(statusGet .illegal w && statusGet .badimg w)

/-- None of RANGE, ILLEGAL and BADIMG is set. -/
def causesClear (w : Word) : Bool :=
  !statusGet .range w && !statusGet .illegal w && !statusGet .badimg w

/-- Neither ILLEGAL nor BADIMG is set: these causes end a command (R15, R223, R224). -/
def noFailure (w : Word) : Bool := !statusGet .illegal w && !statusGet .badimg w

/-- STATUS[15:5] reads as 0 (R25); an idle block shows at most one cause of its last command (R228), and a running
command has not failed (R15). -/
def statusWf (w : Word) : Bool :=
  w &&& statusReserved == 0 && (if statusGet .busy w then noFailure w else causesExclusive w)

/-- Both memories are canonical and inside their address spaces. -/
def State.memoriesWf (s : State) : Bool :=
  s.rc.dram.wf dramSize && s.img.wf (imgSize s.cfg)

/-- Image bytes race with a command only while one runs (R75), a command's trace starts empty (R45), and RANGE stands
beside BUSY only while a command that notes it runs (R26, R247). -/
def State.commandWf (s : State) : Bool :=
  s.racing.all (fun c => decide (c.1 < imgSize s.cfg)) &&
    (if s.busy then s.trace.isEmpty && (!statusGet .range s.status || s.notesRange) else s.racing.isEmpty)

/-- The machine's invariant: every step keeps it. -/
def State.inv (s : State) : Bool := s.memoriesWf && statusWf s.status && s.commandWf

/-- R242 as far as the model holds it: (b) the parameters are those of a controller the rules fit, (c) the controller
is between whole commands. That it has been initialized is presumed (DESIGN CHOICE: notes/assumptions/20.md). -/
def State.displayReady (s : State) : Bool := configWf s.cfg && s.rc.ready

/-- `t` differs from `s` in no host-visible register but STATUS and RESULT, and not in the parameters, the host's
script or the host port's last read. -/
abbrev State.sameHostSide (s t : State) : Prop :=
  t.cfg = s.cfg ∧ t.cmd = s.cmd ∧ t.a0 = s.a0 ∧ t.a1 = s.a1 ∧ t.a2 = s.a2 ∧ t.a3 = s.a3 ∧ t.a4 = s.a4 ∧
    t.a5 = s.a5 ∧ t.hostData = s.hostData ∧ t.host = s.host

/-- What every command leaves alone: the host side, and image memory but for the host's own writes that landed while
the command ran (R22, R39, R75). -/
abbrev State.frame (s t : State) : Prop :=
  s.sameHostSide t ∧ t.img = s.img.writeAll (imgSize s.cfg) s.racing ∧ t.racing = [] ∧
    t.races = (if s.racing = [] then s.races else s.races + 1)

/-- No bus event was emitted: the trace and the whole controller are as before (R45). -/
abbrev State.silent (s t : State) : Prop := t.trace = s.trace ∧ t.rc = s.rc

/-- STATUS after a command that was accepted and ends with `cause`, or with none (R27, R222 to R224): BUSY is clear,
the cause is added, every other bit stays. -/
def endStatus (s : State) (cause : Option StatusField) : Word :=
  match cause with
  | none => statusClear .busy s.status
  | some f => statusClear .busy (statusSet f s.status)

/-- STATUS after a command that may note RANGE. -/
def notedStatus (s : State) (noted : Bool) : Word := endStatus s (if noted then some .range else none)

/-- The six events of SetAddress with line byte `y` and column byte `col` (R113). -/
def addressEvents (c : Config) (y col : Byte) : List BusEvent :=
  [.cmd c.cmdLaset, .data y, .data c.lineEnd, .cmd c.cmdCaset, .data col, .data c.colEnd]

/-- The two events of a display word write (R47). -/
def wordEvents (w : Word) : List BusEvent := [.data (w.extractLsb' 8 8), .data (w.extractLsb' 0 8)]

/-- The events of one row of a blit (R181). -/
def rowEvents (c : Config) (y col : Byte) (ws : List Word) : List BusEvent :=
  addressEvents c y col ++ [.cmd c.cmdRamwr] ++ ws.flatMap wordEvents

/-- Logical point (x, y) is on the surface (R7, R120). -/
abbrev onScreen (x y : Int) : Prop := 0 ≤ x ∧ x < 160 ∧ 0 ≤ y ∧ y < 160

/-- The line byte of logical row `y`, and the word-column byte of logical column `x` (R49). -/
def lineByte (y : Int) : Byte := BitVec.ofInt 8 y
def wordByte (x : Int) : Byte := BitVec.ofInt 8 ((159 - x) / 3)

/-- The mask of logical column `x` inside its word (R49). -/
def columnMask (c : Config) (x : Int) : Word := fieldMask c ((159 - x) % 3).toNat

/-- The display word that holds logical pixel (x, y) (R49). -/
def State.wordOf (s : State) (x y : Int) : Word := s.rc.dram.readWord (lineByte y) (wordByte x)

/-- The events of an RMW cycle on (x, y) up to the two data reads, which return `w`; the dummy read returns `b`
(R121, R131). -/
def rmwEvents (c : Config) (x y : Int) (b : Byte) (w : Word) : List BusEvent :=
  addressEvents c (lineByte y) (wordByte x) ++
    [.cmd c.cmdRmwin, .read b, .read (w.extractLsb' 8 8), .read (w.extractLsb' 0 8)]

/-- The controller's pointer and window are those of line byte `y` and column byte `col` (R114). -/
abbrev pointsTo (c : Config) (rc : Controller) (y col : Byte) : Prop :=
  rc.line = y ∧ rc.ls = y ∧ rc.le = c.lineEnd ∧ rc.col = col ∧ rc.cs = col ∧ rc.ce = c.colEnd

/-- Every bus read of a trace returned the byte the controller gives there (R46). -/
def readsHonest (c : Config) : Controller → List BusEvent → Prop
  | _, [] => True
  | rc, e :: es => (∀ b, e = .read b → b = rc.readValue) ∧ readsHonest c (rc.apply c e.op) es

/-- The commands that note RANGE and go on (R222). -/
def notingCommands : List Instr := [.point, .blank, .circle, .rect, .triangle, .star]

/-- The running command is one that notes RANGE and, run from its acceptance, ends with RANGE set (R222, R247). -/
def State.willNote (s : State) : Prop :=
  ∃ i t, i ∈ notingCommands ∧ decode s.cmd = .command i ∧
    exec i { s with status := statusAccept s.status } = .next t ∧ statusGet .range t.status = true

/-- The offsets of a dot of pen-size code `code`, in plotting order: those of code `code`, then of `code - 1`, down to
code 0 (R126). -/
def dotOffsets (c : Config) : Nat → List (Int × Int)
  | 0 => c.penTable.getD 0 []
  | code + 1 => c.penTable.getD (code + 1) [] ++ dotOffsets c code

/-- The points of the dot at (x, y), in plotting order (R126). -/
def dotPoints (c : Config) (code : Nat) (x y : Int) : List (Int × Int) :=
  (dotOffsets c code).map (fun d => (x + d.1, y + d.2))

/-- Point (px, py) is in the dot of pen-size code `code` at (x, y). -/
abbrev inDot (c : Config) (code : Nat) (x y px py : Int) : Prop := (px - x, py - y) ∈ dotOffsets c code

/-- Some offset of the dot at (x, y) is off the surface. -/
def dotLeaves (c : Config) (code : Nat) (x y : Int) : Bool :=
  (dotOffsets c code).any (fun d => !inRange (x + d.1) (y + d.2))

/-- How many offsets of the dot at (x, y) are on the surface (R130). -/
def dotVisible (c : Config) (code : Nat) (x y : Int) : Nat :=
  (dotOffsets c code).countP (fun d => inRange (x + d.1) (y + d.2))

/-- Bit `i` of display word [l][k] belongs to logical point (x, y), which is on the surface (R49). -/
def pointTouches (c : Config) (l k : Byte) (i : Nat) (x y : Int) : Prop :=
  0 ≤ x ∧ x < 160 ∧ 0 ≤ y ∧ y < 160 ∧ y = l.toNat ∧ (159 - x) / 3 = k.toNat ∧
    (fieldMask c ((159 - x) % 3).toNat).getLsbD i = true

/-- Exactly the points of `P` that are on the surface are set (`on`) or cleared, and no other bit of display memory
changes (R50, R123). -/
def Paints (s t : State) (on : Bool) (P : Int → Int → Prop) : Prop :=
  ∀ (l k : Byte) (i : Nat), i < 16 →
    ((∃ x y, P x y ∧ pointTouches s.cfg l k i x y) → (t.rc.dram.readWord l k).getLsbD i = !on) ∧
    ((¬ ∃ x y, P x y ∧ pointTouches s.cfg l k i x y) →
      (t.rc.dram.readWord l k).getLsbD i = (s.rc.dram.readWord l k).getLsbD i)

/-- The events of a SET (`on`) or CLEAR cycle on each point in turn, with `m` the display memory before the first and
the points off the surface skipped (R121, R122, R126). `dummy n` is the byte of the `n`-th cycle's dummy read (R66). -/
def paintEvents (c : Config) (on : Bool) (dummy : Nat → Byte) : Nat → Memory → List (Int × Int) → List BusEvent
  | _, _, [] => []
  | n, m, (x, y) :: pts =>
    if onScreen x y then
      let old := m.readWord (lineByte y) (wordByte x)
      let new := if on then old &&& ~~~ columnMask c x else old ||| columnMask c x
      rmwEvents c x y (dummy n) old ++ wordEvents new ++ [.cmd c.cmdRmwout] ++
        paintEvents c on dummy (n + 1) (m.writeWord (lineByte y) (wordByte x) new) pts
    else paintEvents c on dummy n m pts

/-- A command's trace is the old one and the events of painting `pts` in order, whatever the dummy reads return. -/
abbrev State.paintsInOrder (s t : State) (on : Bool) (pts : List (Int × Int)) : Prop :=
  ∃ dummy : Nat → Byte, t.trace = s.trace ++ paintEvents s.cfg on dummy 0 s.rc.dram pts

/-- `n` points of row `y`, left to right from column `x`. -/
def pointsFrom (x y : Int) (n : Int) : List (Int × Int) := (List.range n.toNat).map (fun (k : Nat) => (x + k, y))

/-- The points of a rectangle in the order of R157: top, bottom, sides from the top down, then with FILL the interior
row by row. -/
def rectOrder (x y w h : Int) (fill : Bool) : List (Int × Int) :=
  if w ≤ 1 ∨ h ≤ 0 then []
  else
    pointsFrom x y w ++ (if h = 1 then [] else pointsFrom x (y + h - 1) w) ++
    (List.range (h - 2).toNat).flatMap (fun (k : Nat) => [(x, y + 1 + k), (x + w - 1, y + 1 + k)]) ++
    (if fill then (List.range (h - 2).toNat).flatMap (fun (k : Nat) => pointsFrom (x + 1) (y + 1 + k) (w - 2)) else [])

/-- The points of a triangle in the order of R162: row by row from the apex, each row left to right. -/
def triangleOrder (x y b h : Int) (fill flip : Bool) : List (Int × Int) :=
  if h ≤ 0 ∨ b < 0 then []
  else (List.range h.toNat).flatMap (fun (i : Nat) =>
    let hw := if h = 1 then b else b * i / (h - 1)
    let row := if flip then y - i else y + i
    if fill = true ∨ i + 1 = h then pointsFrom (x - hw) row (2 * hw + 1)
    else if hw = 0 then [(x, row)]
    else [(x - hw, row), (x + hw, row)])

/-- The points of a star in the order of R164: the triangle with its apex up, then the one with its apex down. -/
def starOrder (x y b h : Int) (fill : Bool) : List (Int × Int) :=
  triangleOrder x (y - 2 * ((h - 1) / 3)) b h fill false ++ triangleOrder x (y + 2 * ((h - 1) / 3)) b h fill true

/-- The points a shape command plots, in order (R153, R157, R162, R164), FILL and ORIENT being bits 5 and 6 of its pen
word (R88); none for the other commands. -/
def shapePoints (i : Instr) (s : State) : List (Int × Int) :=
  match i with
  | .circle => circlePoints s.a0.toInt s.a1.toInt s.a2.toInt (s.a3.getLsbD 5)
  | .rect => rectOrder s.a0.toInt s.a1.toInt s.a2.toInt s.a3.toInt (s.a4.getLsbD 5)
  | .triangle => triangleOrder s.a0.toInt s.a1.toInt s.a2.toInt s.a3.toInt (s.a4.getLsbD 5) (s.a4.getLsbD 6)
  | .star => starOrder s.a0.toInt s.a1.toInt s.a2.toInt s.a3.toInt (s.a4.getLsbD 5)
  | _ => []

/-- The pen word of a shape command (R83). -/
def shapePen (i : Instr) (s : State) : Word := if i = .circle then s.a3 else s.a4

/-- The four shape commands. -/
def shapeCommands : List Instr := [.circle, .rect, .triangle, .star]

/-- The area fits the surface (R183). -/
abbrev areaOnSurface (x y w h : Int) : Prop := 0 < w ∧ 0 < h ∧ 0 ≤ x ∧ 0 ≤ y ∧ x + w ≤ 160 ∧ y + h ≤ 160

/-- The three blits that place an area. -/
def blitCommands : List Instr := [.bitimage, .wordimage, .fillregion]

/-- A blit's mode operand (R83). -/
def blitMode (i : Instr) (s : State) : Word := if i = .fillregion then s.a4 else s.a3

/-- The operands pass the checks of R223 (5) and (6). -/
def blitAccepts (i : Instr) (s : State) : Bool :=
  (blitMode i s).toNat ≤ 2 && !(i = .fillregion && blitMode i s = 1) && !(i = .wordimage && s.a0.getLsbD 0)

/-- A blit of a `w` by `h` image at (x, y) whose words are `f r k`: exactly the words of `h` lines from `y` on and of
`ceil(w / 3)` word columns from `DIV3(159 - (x + w - 1))` on are replaced, and the trace is the rows' events, top row
first (R181, R182). -/
def Blits (s t : State) (x y w h : Int) (f : Nat → Nat → Word) : Prop :=
  (∀ l k : Byte, t.rc.dram.readWord l k =
    if y ≤ l.toNat ∧ l.toNat < y + h ∧ (160 - x - w) / 3 ≤ k.toNat ∧ k.toNat < (160 - x - w) / 3 + (w + 2) / 3 then
      f (l.toNat - y.toNat) (k.toNat - ((160 - x - w) / 3).toNat)
    else s.rc.dram.readWord l k) ∧
  t.trace = s.trace ++ (List.range h.toNat).flatMap (fun (r : Nat) =>
    rowEvents s.cfg (BitVec.ofInt 8 (y + (r : Int))) (BitVec.ofInt 8 ((160 - x - w) / 3))
      ((List.range ((w + 2) / 3).toNat).map (f r)))

/-- No host write races with any of the `n` image bytes from address `p` on (R75, R245). -/
abbrev State.quiet (s : State) (p n : Nat) : Prop :=
  ∀ k : Nat, k < n → ∀ c ∈ s.racing, c.1 ≠ (p + k) % 2 ^ s.cfg.imgAddrBits

/-- How many bytes the header of the image at A0 has (R92, R93); FILLREGION has no image. -/
def headerBytes (i : Instr) : Nat := if i = .fillregion then 0 else if i = .bitimage then 2 else 4

/-- A byte of image memory that no host write races with (R53, R92). -/
def State.imageByte (s : State) (a : Nat) : Byte := s.img.read (a % 2 ^ s.cfg.imgAddrBits)

/-- A word of image memory, little-endian, that no host write races with (R54, R93). -/
def State.imageWord (s : State) (a : Nat) : Word := s.imageByte (a + 1) ++ s.imageByte a

/-- Column `col` of row `r` of the bit-plane image at `p` is on (R92). -/
def State.imageBit (s : State) (p w r col : Nat) : Bool :=
  (s.imageByte (p + 2 + r * ((w + 7) / 8) + col / 8)).getLsbD (7 - col % 8)

/-- Where a blit is placed (R83). -/
def blitX (i : Instr) (s : State) : Int := if i = .fillregion then s.a0.toInt else s.a1.toInt
def blitY (i : Instr) (s : State) : Int := if i = .fillregion then s.a1.toInt else s.a2.toInt

/-- A blit's size: FILLREGION's operands, or the header of the image at A0 when no host write races with it (R92, R93,
R197). -/
def blitWidth (i : Instr) (s : State) : Int :=
  if i = .fillregion then s.a2.toInt
  else if i = .bitimage then (s.imageByte s.a0.toNat).toNat
  else (s.imageWord s.a0.toNat).toNat
def blitHeight (i : Instr) (s : State) : Int :=
  if i = .fillregion then s.a3.toInt
  else if i = .bitimage then (s.imageByte (s.a0.toNat + 1)).toNat
  else (s.imageWord (s.a0.toNat + 2)).toNat

/-- The output words of a word-plane payload `rd 0, rd 1, ...` from payload word `j` on, up to a reserved control word
(R94 to R97): a pixel word gives its complement, a run gives `N + 1` copies. `n` bounds the payload items read. This is
the format's meaning said by items; the machine's decoder produces one word at a time. -/
def planeWords (c : Config) (rd : Nat → Word) : Nat → Nat → List Word
  | 0, _ => []
  | n + 1, j =>
    let copies := ((rd j).extractLsb' 8 8).toNat + 1
    let code := (rd j).extractLsb' 0 8
    if (rd j).getLsbD 5 = false then (~~~ rd j) :: planeWords c rd n (j + 1)
    else if code = 0xFF then List.replicate copies 0xFFDF ++ planeWords c rd n (j + 1)
    else if code = c.rleOn then List.replicate copies 0x0000 ++ planeWords c rd n (j + 1)
    else if code = c.rleGeneric then List.replicate copies (~~~ rd (j + 1)) ++ planeWords c rd n (j + 2)
    else []

/-- How many payload words the decoder has read when it has given `need` more output words, or met a reserved control
word, from payload word `j` on (R193 to R195). The first argument bounds the payload items. -/
def planeReads (c : Config) (rd : Nat → Word) : Nat → Nat → Nat → Nat
  | 0, _, j => j
  | n + 1, need, j =>
    let copies := ((rd j).extractLsb' 8 8).toNat + 1
    let code := (rd j).extractLsb' 0 8
    if need = 0 then j
    else if (rd j).getLsbD 5 = false then planeReads c rd n (need - 1) (j + 1)
    else if code = 0xFF ∨ code = c.rleOn then planeReads c rd n (need - copies) (j + 1)
    else if code = c.rleGeneric then planeReads c rd n (need - copies) (j + 2)
    else j + 1

/-- A command's events with the bytes of its dummy reads left out, the read right after the command byte that enters
RMW mode (R66, R121); `armed` says that that byte has just been seen. -/
def maskDummies (c : Config) : Bool → List BusEvent → List BusEvent
  | _, [] => []
  | _, .cmd b :: evs => .cmd b :: maskDummies c (b == c.cmdRmwin) evs
  | _, .data b :: evs => .data b :: maskDummies c false evs
  | armed, .read b :: evs => .read (if armed then 0 else b) :: maskDummies c false evs

/-- The on/off state of logical pixel (x, y) of the display (R50). -/
def State.pixel (s : State) (x y : Nat) : Bool := s.rc.pixelOn s.cfg x y

/-- Words placed in rows of `nw` words as far as they reach, row `r` on line `y + r` from word column `c0` on: the
display after a stream of words that may stop early (R181, R194). -/
def Streams (s t : State) (y c0 : Int) (nw rows : Nat) (ws : List Word) : Prop :=
  (∀ l k : Byte, t.rc.dram.readWord l k =
    if y ≤ l.toNat ∧ l.toNat < y + rows ∧ c0 ≤ k.toNat ∧ k.toNat < c0 + nw ∧
        (l.toNat - y.toNat) * nw + (k.toNat - c0.toNat) < ws.length then
      ws.getD ((l.toNat - y.toNat) * nw + (k.toNat - c0.toNat)) 0
    else s.rc.dram.readWord l k) ∧
  t.trace = s.trace ++ (List.range rows).flatMap (fun (r : Nat) =>
    rowEvents s.cfg (BitVec.ofInt 8 (y + (r : Int))) (BitVec.ofInt 8 c0) ((ws.drop (r * nw)).take nw))

end Sys2Proof.Machine
end

