-- ==== Sys2Proof/Certificates/Slice0/Obligations.lean ====
section
/-! DEFINITION. The statements about the machine. Each docstring names the rules of spec/ it rests on. -/

section

open Sys2Proof Sys2Proof.Machine

/-! ### Encoding -/

/-- R81: the opcode map, each CMD word written out. -/
def Obligations.CommandWordsDecode : Prop :=
  decode 0x0000 = .command .nop ∧ decode 0x0001 = .command .setaddr ∧ decode 0x0002 = .command .point ∧
  decode 0x0003 = .command .readword ∧ decode 0x0004 = .command .writeword ∧ decode 0x0005 = .command .blank ∧
  decode 0x0006 = .command .circle ∧ decode 0x0007 = .command .rect ∧ decode 0x0008 = .command .triangle ∧
  decode 0x0009 = .command .star ∧ decode 0x000A = .command .bitimage ∧ decode 0x000B = .command .wordimage ∧
  decode 0x000C = .command .fillregion ∧ decode 0x000D = .command .clear ∧ decode 0x000E = .command .fillscreen

/-- R106, R82: every CMD word has exactly one outcome, in the order of R106's checks, and the fifteen unreserved words
are the commands' own. -/
def Obligations.DecodeIsTotal : Prop :=
  ∀ w : Word,
    (w.extractLsb' 8 8 ≠ 0 → decode w = .reservedHigh) ∧
    (w.extractLsb' 8 8 = 0 → 0x0E < (w.extractLsb' 0 8).toNat → decode w = .reservedOpcode) ∧
    (w.extractLsb' 8 8 = 0 → (w.extractLsb' 0 8).toNat ≤ 0x0E → ∃ i, decode w = .command i ∧ encode i = w) ∧
    (cmdWordWellFormed w = true ↔ ∃ i, decode w = .command i) ∧
    ∀ i, decode w = .command i → encode i = w

/-- R109: the decoder answers a command exactly where that command's row of the opcode table matches, and no word
matches two rows. -/
def Obligations.OpcodeTableAgreesWithDecoder : Prop :=
  (∀ (w : Word) (i : Instr), decode w = .command i ↔ ∃ r ∈ opcodeTable, r.instr = i ∧ r.hits w = true) ∧
  ∀ (w : Word), ∀ r ∈ opcodeTable, ∀ q ∈ opcodeTable, r.hits w = true → q.hits w = true → r = q

/-- R101, R103: reading back the host writes of an assembled command gives it again, every operand at every value of
its range. -/
def Obligations.AssembleThenDisassemble : Prop :=
  ∀ a : AsmCmd, a.wellFormed = true → disassemble (assemble a) = some a

/-- R87: the point op decode, both ways. -/
def Obligations.PointOpDecode : Prop :=
  ∀ a : Word,
    (decodeOp a = .single .clear ↔ a = 0x0000) ∧ (decodeOp a = .single .set ↔ a = 0x0001) ∧
    (decodeOp a = .single .read ↔ a = 0xFFFF) ∧
    (∀ d c, decodeOp a = .composite d c ↔
      a.extractLsb' 9 7 = 0 ∧ a.getLsbD 8 = true ∧ a.extractLsb' 5 3 = 0 ∧ (a.extractLsb' 0 4).toNat ≤ 11 ∧
        d = a.getLsbD 4 ∧ c = (a.extractLsb' 0 4).toNat) ∧
    (decodeOp a = .reserved ↔ a ≠ 0x0000 ∧ a ≠ 0x0001 ∧ a ≠ 0xFFFF ∧
      ¬ (a.extractLsb' 9 7 = 0 ∧ a.getLsbD 8 = true ∧ a.extractLsb' 5 3 = 0 ∧ (a.extractLsb' 0 4).toNat ≤ 11))

/-- R88, R89: the valid pens are 0x0000 to 0x007F with SIZE at most 11; a valid pen's point op is DRAW(SIZE) or
ERASE(SIZE); FILL is bit 5 and ORIENT bit 6 of any pen word. -/
def Obligations.PenDecode : Prop :=
  ∀ pen : Word,
    (penValid pen = true ↔ pen.toNat < 128 ∧ pen.toNat % 16 ≤ 11) ∧
    (penValid pen = true → decodeOp (penOp pen) = .composite (pen.getLsbD 4) (pen.toNat % 16)) ∧
    penFill pen = pen.getLsbD 5 ∧ penOrient pen = pen.getLsbD 6

/-- R127: with the default table, codes 0 to 3 make the 2x2 square, 0 to 8 the 3x3 square, 0 to 10 the 5x5 square
without its corners and 0 to 11 the 5x5 square, and no offset is listed twice. -/
def Obligations.PenTableFootprints : Prop :=
  (∀ dx dy : Int, (dx, dy) ∈ dotOffsets defaultConfig 0 ↔ dx = 0 ∧ dy = 0) ∧
  (∀ dx dy : Int, (dx, dy) ∈ dotOffsets defaultConfig 3 ↔ 0 ≤ dx ∧ dx ≤ 1 ∧ 0 ≤ dy ∧ dy ≤ 1) ∧
  (∀ dx dy : Int, (dx, dy) ∈ dotOffsets defaultConfig 8 ↔ -1 ≤ dx ∧ dx ≤ 1 ∧ -1 ≤ dy ∧ dy ≤ 1) ∧
  (∀ dx dy : Int, (dx, dy) ∈ dotOffsets defaultConfig 10 ↔
    -2 ≤ dx ∧ dx ≤ 2 ∧ -2 ≤ dy ∧ dy ≤ 2 ∧ ¬ (dx * dx = 4 ∧ dy * dy = 4)) ∧
  (∀ dx dy : Int, (dx, dy) ∈ dotOffsets defaultConfig 11 ↔ -2 ≤ dx ∧ dx ≤ 2 ∧ -2 ≤ dy ∧ dy ≤ 2) ∧
  (dotOffsets defaultConfig 11).Nodup

/-- R110: DIV3 and MOD3 are exact on 0 to 255. -/
def Obligations.DivideByThreeIsExact : Prop :=
  ∀ v : Nat, v ≤ 255 → 3 * div3 v ≤ v ∧ v < 3 * div3 v + 3 ∧ mod3 v = v - 3 * div3 v ∧ mod3 v < 3 ∧
    3 * div3 v + mod3 v = v

/-! ### The host port and the step -/

/-- R27, R30, R106: what a step runs. A running command runs whole unless the host's next action lands first; the CMD
word stored by `withFetchWord` is what the next step runs; an idle block waits for the host. The host's script, its
marks `early` and `noted`, and that a command takes one step to be accepted and one to run, are the model's choice:
notes/assumptions/4.md, 5.md, 6.md. -/
def Obligations.StepRunsTheDecodedCommand : Prop :=
  (∀ (s : State) (i : Instr), s.busy = true → s.hostFirst = false → decode s.cmd = .command i → step s = exec i s) ∧
  (∀ (s : State) (i : Instr), step (s.withFetchWord 16 (encode i).toNat) =
    exec i (s.withFetchWord 16 (encode i).toNat)) ∧
  (∀ (s : State) (e : HostEvent) (es : List HostEvent), s.host = e :: es → (s.busy = true → e.early = true) →
    step s = hostAct e.act (State.noteSoFar e.noted { s with host := es })) ∧
  (∀ s : State, s.busy = false → s.host = [] → step s = .next s)

/-- R82: an accepted reserved CMD word fails with ILLEGAL, emits nothing, leaves RESULT, and reads no image memory:
with any other image memory it does the same. -/
def Obligations.ReservedCommandFails : Prop :=
  ∀ s : State, s.busy = true → s.hostFirst = false → 0x0E < s.cmd.toNat →
    ∃ t, step s = .next t ∧ s.frame t ∧ s.silent t ∧ t.result = s.result ∧
      t.status = endStatus s (some .illegal) ∧
      ∀ m, step { s with img := m } = .next { t with img := m.writeAll (imgSize s.cfg) s.racing }

/-- R21, R26: a host write of CMD while BUSY = 0 is accepted: CMD holds it, every cause is cleared, BUSY is set, the
command's trace starts empty, and nothing else changes. -/
def Obligations.AcceptanceStartsACommand : Prop :=
  ∀ (s : State) (v : Word), s.busy = false →
    ∃ t, hostAct (.write 0 v) s = .next t ∧ t = { s with cmd := v, status := t.status, trace := [] } ∧
      t.hostRead 0 = v ∧ t.busy = true ∧ statusGet .range t.status = false ∧ statusGet .illegal t.status = false ∧
      statusGet .badimg t.status = false ∧ statusGet .busyerr t.status = false ∧
      t.status &&& statusReserved = s.status &&& statusReserved

/-- R28: a host write of CMD or A0 to A5 while BUSY = 1 sets BUSYERR and changes nothing else; the running command
goes on as it would have; the next acceptance clears BUSYERR. -/
def Obligations.BusyWritesOnlySetBusyerr : Prop :=
  (∀ (s : State) (off : BitVec 4) (v : Word), s.busy = true → off.toNat ≤ 6 →
    hostAct (.write off v) s = .next { s with status := statusSet .busyerr s.status }) ∧
  (∀ (i : Instr) (s t : State), exec i s = .next t →
    exec i { s with status := statusSet .busyerr s.status } =
      .next { t with status := statusSet .busyerr t.status }) ∧
  (∀ (s t : State) (v : Word), s.busy = false → hostAct (.write 0 v) s = .next t →
    statusGet .busyerr t.status = false)

/-- R20, R22: while BUSY = 0 a host write of an operand register stores the value in that register alone. -/
def Obligations.OperandRegistersHoldWhatTheHostWrites : Prop :=
  ∀ (s : State) (off : BitVec 4) (v : Word), s.busy = false → 1 ≤ off.toNat → off.toNat ≤ 6 →
    ∃ t, hostAct (.write off v) s = .next t ∧ t.hostRead off = v ∧
      (∀ o : BitVec 4, o ≠ off → t.hostRead o = s.hostRead o) ∧
      t = { s with a0 := t.a0, a1 := t.a1, a2 := t.a2, a3 := t.a3, a4 := t.a4, a5 := t.a5 }

/-- R29, R247: writes of RESULT, STATUS and the reserved offsets are ignored, reserved offsets read as 0, and a host
read changes nothing but what the host has read. A read that lands in a running command sees the registers as they are,
and in STATUS a RANGE exactly if the command notes RANGE (R222) and has noted it by then; that RANGE stays, and the
command goes on as it would have. What the host has read (`hostData`) is a field of the model's own
(notes/assumptions/19.md), and when RANGE has been noted is said by the host's script, as the model reads R247
(notes/assumptions/6.md). -/
def Obligations.ReadOnlyAndReservedOffsets : Prop :=
  (∀ (s : State) (off : BitVec 4),
    (∀ v, 7 ≤ off.toNat → hostAct (.write off v) s = .next s) ∧ (9 ≤ off.toNat → s.hostRead off = 0x0000) ∧
    hostAct (.read off) s = .next { s with hostData := some (s.hostRead off) }) ∧
  (∀ (s : State) (noted : Bool) (off : BitVec 4) (es : List HostEvent), s.busy = true →
    s.host = ⟨true, noted, .read off⟩ :: es →
    (noted = true → s.willNote → step s = .next { s with
      host := es, status := statusSet .range s.status,
      hostData := some (State.hostRead { s with status := statusSet .range s.status } off) }) ∧
    (¬ (noted = true ∧ s.willNote) → step s = .next { s with host := es, hostData := some (s.hostRead off) })) ∧
  ∀ (s : State) (noted : Bool), runCommand (s.noteSoFar noted) = runCommand s

/-- R41: after an LGB reset every LGB register holds its reset value and the block is idle; the parameters, constant
tables among them, stay. -/
def Obligations.ResetValues : Prop :=
  (∀ (s : State) (n : Nat), ∃ t, hostAct (.reset n) s = .next t ∧
    t.cmd = 0 ∧ t.a0 = 0 ∧ t.a1 = 0 ∧ t.a2 = 0 ∧ t.a3 = 0 ∧ t.a4 = 0 ∧ t.a5 = 0 ∧ t.result = 0 ∧ t.status = 0 ∧
    t.busy = false ∧ t.cfg = s.cfg) ∧
  State.reset.cmd = 0 ∧ State.reset.a0 = 0 ∧ State.reset.a1 = 0 ∧ State.reset.a2 = 0 ∧ State.reset.a3 = 0 ∧
    State.reset.a4 = 0 ∧ State.reset.a5 = 0 ∧ State.reset.result = 0 ∧ State.reset.status = 0 ∧
    State.reset.busy = false

/-- R42: a reset leaves the controller and image memory (but for the host's own writes) as they are; one that lands in
a running command leaves the controller after a prefix of the command's trace, and every prefix can happen. That the
action names the prefix is the model's choice (notes/assumptions/11.md), and so is that host writes racing with the
command reach image memory at the reset (notes/assumptions/10.md). -/
def Obligations.ResetCutsACommandAtAPrefix : Prop :=
  (∀ (s : State) (n : Nat), s.busy = false →
    ∃ t, hostAct (.reset n) s = .next t ∧ t.rc = s.rc ∧ t.img = s.img.writeAll (imgSize s.cfg) s.racing) ∧
  (∀ s : State, s.busy = true → ∃ c, runCommand { s with trace := [] } = .next c ∧
    (∀ n, ∃ t, hostAct (.reset n) s = .next t ∧ t.trace = c.trace.take n ∧
      t.rc = s.rc.replay s.cfg (c.trace.take n) ∧ t.img = s.img.writeAll (imgSize s.cfg) s.racing) ∧
    ∀ p, p <+: c.trace → ∃ n t, hostAct (.reset n) s = .next t ∧ t.trace = p ∧ t.rc = s.rc.replay s.cfg p)

/-- R221, R239, R246: a step answers a next state in every state but one kind: another agent drives the bus while a
command runs, which R246 forbids (the model stops there: notes/assumptions/9.md). Between commands another agent's
transaction reaches the controller and nothing else. -/
def Obligations.EveryStepContinues : Prop :=
  (∀ s : State, (∃ t, step s = .next t) ∨
    (step s = .fault .busContention ∧ s.busy = true ∧ ∃ noted op es, s.host = ⟨true, noted, .bus op⟩ :: es)) ∧
  ∀ (s : State) (op : BusOp),
    (s.busy = false → hostAct (.bus op) s = .next { s with rc := s.rc.apply s.cfg op }) ∧
    (s.busy = true → hostAct (.bus op) s = .fault .busContention)

/-- R41, R243: the machine's invariant holds after reset. -/
def Obligations.InvariantAtReset : Prop := State.reset.inv = true

/-- R25, R45, R53, R58, R75, R228, R247: every step keeps the invariant: both memories canonical and inside their address
spaces, STATUS[15:5] zero, at most one of RANGE, ILLEGAL and BADIMG set, while a command runs none of them but a RANGE that it
notes, image races only while a command runs, the trace of an accepted command still empty. -/
def Obligations.StepKeepsInvariant : Prop :=
  ∀ s t : State, s.inv = true → step s = .next t → t.inv = true

/-! ### Memories -/

/-- R53, R58: canonical memories that read alike are equal data. The rules say what a memory holds; the list of bytes,
its canonical form and what an unlisted byte reads as are the model's representation (notes/assumptions/1.md). -/
def Obligations.CanonicalMemoriesAreEqualWhenTheyReadAlike : Prop :=
  ∀ (size : Nat) (m m' : Memory), m.wf size = true → m'.wf size = true → (∀ a, m.read a = m'.read a) → m = m'

/-- R53, R75, R78, R245: an image byte read by a command is the byte at acceptance, or one of the bytes the host wrote
there since; a byte the host writes while a command runs joins the bytes that race with its reads (held as the model
chose: notes/assumptions/10.md); a byte the host wrote while the block was idle is what the next command reads;
addresses wrap. -/
def Obligations.ImageReadsSeeTheOldOrANewByte : Prop :=
  (∀ (s : State) (n a : Nat), s.imgByte n a = s.img.read (a % 2 ^ s.cfg.imgAddrBits) ∨
    (a % 2 ^ s.cfg.imgAddrBits, s.imgByte n a) ∈ s.racing) ∧
  (∀ (s : State) (a : Nat) (b : Byte), s.busy = true →
    hostAct (.image a b) s = .next { s with racing := s.racing ++ [(a % 2 ^ s.cfg.imgAddrBits, b)] }) ∧
  (∀ (s : State) (a : Nat) (b : Byte) (v : Word) (n : Nat), s.busy = false → s.racing = [] →
    ∃ t u, hostAct (.image a b) s = .next t ∧ hostAct (.write 0 v) t = .next u ∧ u.imgByte n a = b ∧
      ∀ a', a' % 2 ^ s.cfg.imgAddrBits ≠ a % 2 ^ s.cfg.imgAddrBits → u.imgByte n a' = s.imgByte n a')

/-! ### The controller -/

/-- R60, R61: the address commands and their two parameters, for a controller between words and outside RMW mode
(R68 leaves the rest open). That everything the rules do not list stays, `pidx` after the second parameter too, is the
model's reading (notes/assumptions/16.md). -/
def Obligations.AddressCommandsSetTheWindow : Prop :=
  ∀ (c : Config) (rc : Controller) (a b : Byte), commandBytesDistinct c = true → rc.wphase = false →
    rc.mode ≠ .rmw →
    (rc.apply c (.cmd c.cmdLaset) = { rc with mode := .idle, pcmd := .laset, pidx := false } ∧
      rc.replay c [.cmd c.cmdLaset, .data a] = { rc with mode := .idle, pcmd := .laset, pidx := true, ls := a } ∧
      rc.replay c [.cmd c.cmdLaset, .data a, .data b] =
        { rc with mode := .idle, pcmd := .none, pidx := true, ls := a, le := b, line := a }) ∧
    (rc.apply c (.cmd c.cmdCaset) = { rc with mode := .idle, pcmd := .caset, pidx := false } ∧
      rc.replay c [.cmd c.cmdCaset, .data a] = { rc with mode := .idle, pcmd := .caset, pidx := true, cs := a } ∧
      rc.replay c [.cmd c.cmdCaset, .data a, .data b] =
        { rc with mode := .idle, pcmd := .none, pidx := true, cs := a, ce := b, col := a })

/-- R62, R63, R69: the write command, and two data bytes that store a whole word, high byte first, and advance the
pointer; every other word stays. That everything the rules do not list stays, `whi` after the word is stored too, is
the model's reading (notes/assumptions/16.md), and so is the advance where R64 can be read two ways
(notes/assumptions/12.md). -/
def Obligations.DataBytesStoreWords : Prop :=
  ∀ (c : Config) (rc : Controller) (a b : Byte), commandBytesDistinct c = true →
    (rc.wphase = false → rc.mode ≠ .rmw →
      rc.apply c (.cmd c.cmdRamwr) = { rc with mode := .write, pcmd := .none, wphase := false }) ∧
    (rc.pcmd = .none → rc.mode ≠ .idle → rc.wphase = false →
      rc.apply c (.data a) = { rc with whi := a, wphase := true } ∧
      ∃ m, rc.replay c [.data a, .data b] = ({ rc with whi := a, dram := m } : Controller).advance ∧
        m.readWord rc.line rc.col = a ++ b ∧
        ∀ l k, ¬ (l = rc.line ∧ k = rc.col) → m.readWord l k = rc.dram.readWord l k)

/-- R64: the pointer advance. The second clause is for a line inside the window; that the line is compared with the
window's end only when the column has wrapped is the model's reading (notes/assumptions/12.md). -/
def Obligations.PointerAdvance : Prop :=
  ∀ rc : Controller,
    (rc.col.toNat + 1 ≤ rc.ce.toNat → rc.advance = { rc with col := rc.col + 1 }) ∧
    (rc.ce.toNat < rc.col.toNat + 1 → (rc.line + 1).toNat ≤ rc.le.toNat →
      rc.advance = { rc with col := rc.cs, line := rc.line + 1 }) ∧
    (rc.ce.toNat < rc.col.toNat + 1 → rc.le.toNat < (rc.line + 1).toNat →
      rc.advance = { rc with col := rc.cs, line := rc.ls })

/-- R65, R66, R67: the RMW bracket. Entering saves the pointer; the first read is a dummy, then the addressed word
comes high byte first, again and again, and the pointer does not move; leaving restores the pointer. That leaving is
taken in every mode, keeps a pending parameter, and that every rule keeps what it does not list, is the model's reading
(notes/assumptions/16.md). -/
def Obligations.RmwBracket : Prop :=
  ∀ (c : Config) (rc : Controller), commandBytesDistinct c = true →
    (rc.wphase = false → rc.mode ≠ .rmw → rc.apply c (.cmd c.cmdRmwin) =
      { rc with mode := .rmw, pcmd := .none, sline := rc.line, scol := rc.col, dummy := true, rphase := false,
                wphase := false }) ∧
    (rc.mode = .rmw → rc.dummy = true → rc.apply c .read = { rc with dummy := false, draws := rc.draws + 1 }) ∧
    (rc.mode = .rmw → rc.dummy = false → rc.rphase = false →
      rc.readValue = (rc.dram.readWord rc.line rc.col).extractLsb' 8 8 ∧
        rc.apply c .read = { rc with rphase := true }) ∧
    (rc.mode = .rmw → rc.dummy = false → rc.rphase = true →
      rc.readValue = (rc.dram.readWord rc.line rc.col).extractLsb' 0 8 ∧
        rc.apply c .read = { rc with rphase := false }) ∧
    (rc.wphase = false → rc.apply c (.cmd c.cmdRmwout) =
      { rc with line := rc.sline, col := rc.scol, mode := .idle })

/-- R59, R68: what the controller model does not specify leaves every register and the display memory free: each is a
draw of its own from constants with no body, so the statement holds for every value, and so does the byte an
unspecified read returns. That the draws are numbered by a counter, and that the display memory drawn is put into
canonical form, is the model's choice (notes/assumptions/8.md). -/
def Obligations.UnspecifiedSequencesAreFree : Prop :=
  ∀ (c : Config) (rc : Controller) (op : BusOp), rc.specified c op = false →
    (op = .read → rc.readValue = Config.freeByte rc.draws 0) ∧
    rc.apply c op =
      { dram := (Config.freeCells rc.draws).foldl (fun m cell => m.write (cell.1 % 131072) cell.2) []
        line := Config.freeByte rc.draws 1
        col := Config.freeByte rc.draws 2
        ls := Config.freeByte rc.draws 3
        le := Config.freeByte rc.draws 4
        cs := Config.freeByte rc.draws 5
        ce := Config.freeByte rc.draws 6
        mode := if Config.freeBit rc.draws 0 then (if Config.freeBit rc.draws 1 then .rmw else .write) else .idle
        pcmd := if Config.freeBit rc.draws 2 then (if Config.freeBit rc.draws 3 then .caset else .laset) else .none
        pidx := Config.freeBit rc.draws 4
        wphase := Config.freeBit rc.draws 5
        whi := Config.freeByte rc.draws 7
        rphase := Config.freeBit rc.draws 6
        dummy := Config.freeBit rc.draws 7
        sline := Config.freeByte rc.draws 8
        scol := Config.freeByte rc.draws 9
        draws := rc.draws + 1 }

/-! ### Every command -/

/-- R27, R220, R230, R252: every command ends in a next state, from every state: BUSY falls, at most one cause is
added, the host side is left alone, and the controller is changed through the bus events the trace gained alone. -/
def Obligations.EveryCommandCompletes : Prop :=
  ∀ (i : Instr) (s : State), ∃ t evs, exec i s = .next t ∧ s.frame t ∧ t.busy = false ∧
    (∃ cause, cause ∈ [none, some .range, some .illegal, some .badimg] ∧ t.status = endStatus s cause) ∧
    t.trace = s.trace ++ evs ∧ t.rc = s.rc.replay s.cfg evs

/-- R24: RESULT is written by POINT READ (0, 1 or the sentinel) and by READWORD (the display word or the sentinel)
alone. -/
def Obligations.ResultIsWrittenByReadsAlone : Prop :=
  ∀ (i : Instr) (s t : State), exec i s = .next t →
    (¬ i = .readword → ¬ (i = .point ∧ s.a2 = 0xFFFF) → t.result = s.result) ∧
    (i = .point → s.a2 = 0xFFFF → onScreen s.a0.toInt s.a1.toInt → t.result = 0 ∨ t.result = 1) ∧
    (i = .readword → onScreen s.a0.toInt s.a1.toInt → s.displayReady = true →
      t.result = s.wordOf s.a0.toInt s.a1.toInt) ∧
    (i = .readword ∨ (i = .point ∧ s.a2 = 0xFFFF) → ¬ onScreen s.a0.toInt s.a1.toInt → t.result = 0xFFFF)

/-- R46, R66: every bus read in a command's trace returned the byte the controller gives at that point. -/
def Obligations.BusReadsReturnTheControllersBytes : Prop :=
  ∀ (i : Instr) (s t : State), exec i s = .next t →
    ∃ evs, t.trace = s.trace ++ evs ∧ readsHonest s.cfg s.rc evs

/-- R59, R68, R242 (c): from a controller between whole commands, every command emits only sequences the controller
model specifies (the five command bytes among them) and leaves the controller between whole commands. -/
def Obligations.CommandsStaySpecified : Prop :=
  ∀ (i : Instr) (s t : State), s.displayReady = true → exec i s = .next t →
    t.displayReady = true ∧ ∃ evs, t.trace = s.trace ++ evs ∧ s.rc.allSpecified s.cfg evs = true

/-- R51, R183: no command changes a display word outside the 160 lines of 54 words. -/
def Obligations.WordsOffTheSurfaceStay : Prop :=
  ∀ (i : Instr) (s t : State), s.displayReady = true → exec i s = .next t →
    ∀ l k : Byte, 160 ≤ l.toNat ∨ 54 ≤ k.toNat → t.rc.dram.readWord l k = s.rc.dram.readWord l k

/-- R250: the pointer, window, mode and phases a controller between whole commands is left with do not change what the
next command does: same events, but for the bytes of its dummy reads, which are free (R66, U1,
notes/assumptions/8.md); same display memory, same registers. -/
def Obligations.ControllerPointerDoesNotMatter : Prop :=
  ∀ (i : Instr) (s : State) (r : Controller), s.displayReady = true → r.ready = true → r.dram = s.rc.dram →
    ∃ t u evs evs', exec i s = .next t ∧ exec i { s with rc := r } = .next u ∧
      u = { t with rc := u.rc, trace := u.trace } ∧ u.rc.dram = t.rc.dram ∧
      t.trace = s.trace ++ evs ∧ u.trace = s.trace ++ evs' ∧
      maskDummies s.cfg false evs = maskDummies s.cfg false evs'

/-- R83, R108: an operand register that R83 does not list for a command, A5 always among them, has no effect on it. -/
def Obligations.UnreadOperandsDoNotMatter : Prop :=
  ∀ (i : Instr) (s t : State) (b0 b1 b2 b3 b4 b5 : Word),
    (0 < i.operands.length → b0 = s.a0) → (1 < i.operands.length → b1 = s.a1) →
    (2 < i.operands.length → b2 = s.a2) → (3 < i.operands.length → b3 = s.a3) →
    (4 < i.operands.length → b4 = s.a4) → exec i s = .next t →
    exec i { s with a0 := b0, a1 := b1, a2 := b2, a3 := b3, a4 := b4, a5 := b5 } =
      .next { t with a0 := b0, a1 := b1, a2 := b2, a3 := b3, a4 := b4, a5 := b5 }

/-! ### The addressing unit and NOP -/

/-- R200: NOP completes with no event, no cause and RESULT as it was; after an acceptance it leaves STATUS = 0. -/
def Obligations.NopDoesNothing : Prop :=
  ∀ s : State, (∃ t, exec .nop s = .next t ∧ s.frame t ∧ s.silent t ∧ t.result = s.result ∧
      t.status = endStatus s none) ∧
    (s.status &&& statusReserved = 0 → ∃ t, exec .nop (s.accept 0x0000) = .next t ∧ t.status = 0x0000)

/-- R113, R114, R115, R116: SETADDR emits the six address events of the low bytes of A0 and A1, unmirrored and
unchecked, points the controller there, changes no display word and sets no cause. -/
def Obligations.SetaddrSetsThePointer : Prop :=
  ∀ s : State, ∃ t, exec .setaddr s = .next t ∧ s.frame t ∧ t.result = s.result ∧ t.status = endStatus s none ∧
    t.trace = s.trace ++
      addressEvents s.cfg (s.a1.extractLsb' 0 8) (BitVec.ofNat 8 ((s.a0.extractLsb' 0 8).toNat / 3)) ∧
    (s.displayReady = true →
      t.rc.dram = s.rc.dram ∧ t.rc.mode = .idle ∧ t.rc.ready = true ∧
      pointsTo s.cfg t.rc (s.a1.extractLsb' 0 8) (BitVec.ofNat 8 ((s.a0.extractLsb' 0 8).toNat / 3)))

/-! ### The pixel engine -/

/-- R121, R122, R123, R128: POINT SET and POINT CLEAR on the surface: the pixel's field becomes all zeros or all ones
and no other bit of display memory changes; the thirteen events; the pointer; no cause. -/
def Obligations.PointSetsOrClearsOnePixel : Prop :=
  ∀ s : State, s.displayReady = true → (s.a2 = 0x0000 ∨ s.a2 = 0x0001) → onScreen s.a0.toInt s.a1.toInt →
    ∃ t b, exec .point s = .next t ∧ s.frame t ∧ t.result = s.result ∧ t.status = endStatus s none ∧
      t.wordOf s.a0.toInt s.a1.toInt =
        (if s.a2 = 0x0001 then s.wordOf s.a0.toInt s.a1.toInt &&& ~~~ columnMask s.cfg s.a0.toInt
         else s.wordOf s.a0.toInt s.a1.toInt ||| columnMask s.cfg s.a0.toInt) ∧
      Paints s t (s.a2 = 0x0001) (fun px py => px = s.a0.toInt ∧ py = s.a1.toInt) ∧
      t.trace = s.trace ++
        (rmwEvents s.cfg s.a0.toInt s.a1.toInt b (s.wordOf s.a0.toInt s.a1.toInt) ++
          wordEvents (t.wordOf s.a0.toInt s.a1.toInt) ++ [.cmd s.cfg.cmdRmwout]) ∧
      pointsTo s.cfg t.rc (lineByte s.a1.toInt) (wordByte s.a0.toInt)

/-- R50, R122, R124, R125, R128: POINT READ on the surface: RESULT is 1 when the pixel's field is 0, that is when the
logical pixel is on (its gray level, the field shifted down, is 0), and 0 otherwise; eleven events and no display word changed; no cause. -/
def Obligations.PointReadsOnePixel : Prop :=
  ∀ s : State, s.displayReady = true → s.a2 = 0xFFFF → onScreen s.a0.toInt s.a1.toInt →
    ∃ t b, exec .point s = .next t ∧ s.frame t ∧
      t.result = (if s.wordOf s.a0.toInt s.a1.toInt &&& columnMask s.cfg s.a0.toInt = 0 then 1 else 0) ∧
      (t.result = 1 ↔ s.pixel s.a0.toInt.toNat s.a1.toInt.toNat = true) ∧
      t.status = endStatus s none ∧ t.rc.dram = s.rc.dram ∧
      t.trace = s.trace ++
        (rmwEvents s.cfg s.a0.toInt s.a1.toInt b (s.wordOf s.a0.toInt s.a1.toInt) ++ [.cmd s.cfg.cmdRmwout]) ∧
      pointsTo s.cfg t.rc (lineByte s.a1.toInt) (wordByte s.a0.toInt)

/-- R121, R128, R222: POINT SET, CLEAR or READ off the surface notes RANGE and emits nothing; READ puts the sentinel in
RESULT. -/
def Obligations.PointOffTheSurface : Prop :=
  ∀ s : State, (s.a2 = 0x0000 ∨ s.a2 = 0x0001 ∨ s.a2 = 0xFFFF) → ¬ onScreen s.a0.toInt s.a1.toInt →
    ∃ t, exec .point s = .next t ∧ s.frame t ∧ s.silent t ∧ t.status = endStatus s (some .range) ∧
      t.result = (if s.a2 = 0xFFFF then 0xFFFF else s.result)

/-- R86, R128, R223: POINT with a reserved op fails with ILLEGAL and emits nothing. -/
def Obligations.PointRefusesReservedOps : Prop :=
  ∀ s : State, s.a2 ≠ 0x0000 → s.a2 ≠ 0x0001 → s.a2 ≠ 0xFFFF →
    (∀ n : Nat, n ≤ 11 → s.a2.toNat ≠ 0x0100 + n ∧ s.a2.toNat ≠ 0x0110 + n) →
    ∃ t, exec .point s = .next t ∧ s.frame t ∧ s.silent t ∧ t.status = endStatus s (some .illegal) ∧
      t.result = s.result

/-- R86, R126, R128, R130: POINT ERASE(c) and DRAW(c): exactly the points of the dot that are on the surface are
cleared or set, thirteen events each, in the order of R126, the dummy bytes free; RANGE is noted when the dot leaves
the surface. -/
def Obligations.PointDrawsADot : Prop :=
  ∀ (s : State) (draw : Bool) (code : Nat), s.displayReady = true → code ≤ 11 →
    s.a2.toNat = 0x0100 + (if draw then 0x10 else 0) + code →
    ∃ t, exec .point s = .next t ∧ s.frame t ∧ t.result = s.result ∧
      t.status = notedStatus s (dotLeaves s.cfg code s.a0.toInt s.a1.toInt) ∧
      Paints s t draw (inDot s.cfg code s.a0.toInt s.a1.toInt) ∧
      s.paintsInOrder t draw (dotPoints s.cfg code s.a0.toInt s.a1.toInt) ∧
      t.trace.length = s.trace.length + 13 * dotVisible s.cfg code s.a0.toInt s.a1.toInt

/-- R129 (1), (2): a pixel set reads back 1, a pixel cleared reads back 0. -/
def Obligations.SetOrClearThenReadBack : Prop :=
  ∀ (s : State) (v : Word), s.displayReady = true → (v = 0x0000 ∨ v = 0x0001) → onScreen s.a0.toInt s.a1.toInt →
    ∃ t u, exec .point { s with a2 := v } = .next t ∧ exec .point { t with a2 := 0xFFFF } = .next u ∧ u.result = v

/-- R131, R133: READWORD on the surface: RESULT is the display word, eleven events, no word changed, the pointer at
the word, no cause. -/
def Obligations.ReadwordReadsTheWord : Prop :=
  ∀ s : State, s.displayReady = true → onScreen s.a0.toInt s.a1.toInt →
    ∃ t b, exec .readword s = .next t ∧ s.frame t ∧ t.result = s.wordOf s.a0.toInt s.a1.toInt ∧
      t.status = endStatus s none ∧ t.rc.dram = s.rc.dram ∧
      t.trace = s.trace ++
        (rmwEvents s.cfg s.a0.toInt s.a1.toInt b (s.wordOf s.a0.toInt s.a1.toInt) ++ [.cmd s.cfg.cmdRmwout]) ∧
      pointsTo s.cfg t.rc (lineByte s.a1.toInt) (wordByte s.a0.toInt)

/-- R134: WRITEWORD on the surface: the display word becomes A2, all sixteen bits, and no other word changes; nine
events, no cause. -/
def Obligations.WritewordReplacesTheWord : Prop :=
  ∀ s : State, s.displayReady = true → onScreen s.a0.toInt s.a1.toInt →
    ∃ t, exec .writeword s = .next t ∧ s.frame t ∧ t.result = s.result ∧ t.status = endStatus s none ∧
      (∀ l k : Byte, t.rc.dram.readWord l k =
        if l = lineByte s.a1.toInt ∧ k = wordByte s.a0.toInt then s.a2 else s.rc.dram.readWord l k) ∧
      t.trace = s.trace ++ rowEvents s.cfg (lineByte s.a1.toInt) (wordByte s.a0.toInt) [s.a2]

/-- R131, R134, R222: READWORD and WRITEWORD off the surface fail with RANGE and emit nothing; READWORD puts the
sentinel in RESULT. -/
def Obligations.WordAccessOffTheSurface : Prop :=
  ∀ s : State, ¬ onScreen s.a0.toInt s.a1.toInt →
    (∃ t, exec .readword s = .next t ∧ s.frame t ∧ s.silent t ∧ t.status = endStatus s (some .range) ∧
      t.result = 0xFFFF) ∧
    (∃ t, exec .writeword s = .next t ∧ s.frame t ∧ s.silent t ∧ t.status = endStatus s (some .range) ∧
      t.result = s.result)

/-- R135: a word written reads back, with no RANGE. -/
def Obligations.WriteThenReadBack : Prop :=
  ∀ s : State, s.displayReady = true → onScreen s.a0.toInt s.a1.toInt → causesClear s.status = true →
    ∃ t u, exec .writeword s = .next t ∧ exec .readword t = .next u ∧ u.result = s.a2 ∧
      statusGet .range u.status = false

/-- R137: BLANK clears exactly the points of its rectangle that are on the surface, thirteen events each, rows top to
bottom and each row left to right, the dummy bytes free; RANGE is noted when the rectangle leaves the surface. -/
def Obligations.BlankClearsItsRectangle : Prop :=
  ∀ (s : State) (x y w h : Int), s.displayReady = true → x = s.a0.toInt → y = s.a1.toInt → w = s.a2.toInt →
    h = s.a3.toInt →
    ∃ t, exec .blank s = .next t ∧ s.frame t ∧ t.result = s.result ∧
      t.status = notedStatus s (decide (0 < w ∧ 0 < h ∧ ¬ (0 ≤ x ∧ x + w ≤ 160 ∧ 0 ≤ y ∧ y + h ≤ 160))) ∧
      Paints s t false (fun px py => x ≤ px ∧ px < x + w ∧ y ≤ py ∧ py < y + h) ∧
      s.paintsInOrder t false ((List.range h.toNat).flatMap (fun (j : Nat) => pointsFrom x (y + j) w)) ∧
      t.trace.length = s.trace.length +
        13 * ((min (x + w) 160 - max x 0).toNat * (min (y + h) 160 - max y 0).toNat)

/-! ### The shapes -/

/-- R150, R151, R153, R157, R162, R164: a shape with a valid pen sets or clears exactly the on-surface points of the
dots at its points, thirteen events each, its points in the order of its rule and each dot in that of R126, the dummy
bytes free; RANGE is noted when some dot leaves the surface; RESULT stays. FILL and ORIENT are bits 5 and 6 of the pen
word. -/
def Obligations.ShapesPaintTheirPoints : Prop :=
  ∀ (i : Instr) (s : State) (code : Nat), i ∈ shapeCommands → s.displayReady = true →
    penValid (shapePen i s) = true → code = (shapePen i s).toNat % 16 →
    ∃ t, exec i s = .next t ∧ s.frame t ∧ t.result = s.result ∧
      t.status = notedStatus s ((shapePoints i s).any (fun p => dotLeaves s.cfg code p.1 p.2)) ∧
      Paints s t ((shapePen i s).getLsbD 4) (fun px py => ∃ p ∈ shapePoints i s, inDot s.cfg code p.1 p.2 px py) ∧
      s.paintsInOrder t ((shapePen i s).getLsbD 4)
        ((shapePoints i s).flatMap (fun p => dotPoints s.cfg code p.1 p.2)) ∧
      t.trace.length = s.trace.length +
        13 * ((shapePoints i s).map (fun p => dotVisible s.cfg code p.1 p.2)).sum

/-- R89, R151, R223 (4): a shape whose pen is not valid fails with ILLEGAL and emits nothing. -/
def Obligations.ShapesRefuseInvalidPens : Prop :=
  ∀ (i : Instr) (s : State), i ∈ shapeCommands →
    ¬ ((shapePen i s).toNat < 128 ∧ (shapePen i s).toNat % 16 ≤ 11) →
    ∃ t, exec i s = .next t ∧ s.frame t ∧ s.silent t ∧ t.status = endStatus s (some .illegal) ∧
      t.result = s.result

/-- R157, R158, R159: the points of a rectangle come in the order of R157, each once; they are its border, with FILL
also its interior; none when `w ≤ 1` or `h ≤ 0`. -/
def Obligations.RectanglePoints : Prop :=
  ∀ (x y w h : Int) (fill : Bool), rectPoints x y w h fill = rectOrder x y w h fill ∧
    (rectPoints x y w h fill).Nodup ∧
    ∀ px py : Int, (px, py) ∈ rectPoints x y w h fill ↔
      2 ≤ w ∧ 1 ≤ h ∧ x ≤ px ∧ px ≤ x + w - 1 ∧ y ≤ py ∧ py ≤ y + h - 1 ∧
        (fill = true ∨ py = y ∨ py = y + h - 1 ∨ px = x ∨ px = x + w - 1)

/-- R160, R161, R162: the points of a triangle come row by row from the apex, left to right, each once; row `i`
reaches `hw(i)` to either side of the axis; unfilled rows but the base have their two ends alone; ORIENT turns the rows
upward. -/
def Obligations.TrianglePoints : Prop :=
  ∀ (x y b h : Int) (fill flip : Bool), trianglePoints x y b h fill flip = triangleOrder x y b h fill flip ∧
    (trianglePoints x y b h fill flip).Nodup ∧
    ∀ px py : Int, (px, py) ∈ trianglePoints x y b h fill flip ↔
      0 < h ∧ 0 ≤ b ∧ ∃ i hw : Int, 0 ≤ i ∧ i < h ∧ hw = (if h = 1 then b else b * i / (h - 1)) ∧
        py = (if flip then y - i else y + i) ∧ x - hw ≤ px ∧ px ≤ x + hw ∧
        (fill = true ∨ i = h - 1 ∨ px = x - hw ∨ px = x + hw)

/-- R163, R164: the points of a star are those of the triangle with its apex up at `y - 2a`, in its order, then those of
the one with its apex down at `y + 2a`, the overlap twice; it is its own image under a half turn about (x, y), each
point as often as its image. -/
def Obligations.StarPoints : Prop :=
  ∀ (x y b h : Int) (fill : Bool), starPoints x y b h fill = starOrder x y b h fill ∧
    (∀ px py : Int, (px, py) ∈ starPoints x y b h fill ↔
      (px, py) ∈ trianglePoints x (y - 2 * ((h - 1) / 3)) b h fill false ∨
      (px, py) ∈ trianglePoints x (y + 2 * ((h - 1) / 3)) b h fill true) ∧
    ∀ px py : Int,
      (starPoints x y b h fill).count (px, py) = (starPoints x y b h fill).count (2 * x - px, 2 * y - py)

/-- R153, R154: a circle's points, in order, are those of the rule's loop: eight symmetric points, then with FILL four
spans, then the update of the decision variable. -/
def Obligations.CircleFollowsTheLoop : Prop :=
  ∀ (cx cy : Int) (fill : Bool), ∃ loop : Int → Int → Int → List (Int × Int),
    (∀ x y d, loop x y d = if x ≤ y then
        [(cx + x, cy + y), (cx - x, cy + y), (cx + x, cy - y), (cx - x, cy - y),
         (cx + y, cy + x), (cx - y, cy + x), (cx + y, cy - x), (cx - y, cy - x)] ++
        (if fill then
          (intRange (cx - x + 1) (cx + x - 1)).map (fun i => (i, cy + y)) ++
          (intRange (cx - x + 1) (cx + x - 1)).map (fun i => (i, cy - y)) ++
          (intRange (cx - y + 1) (cx + y - 1)).map (fun i => (i, cy + x)) ++
          (intRange (cx - y + 1) (cx + y - 1)).map (fun i => (i, cy - x)) else []) ++
        (if d < 0 then loop (x + 1) y (d + 2 * x + 3) else loop (x + 1) (y - 1) (d + 2 * (x - y) + 5))
      else []) ∧
    ∀ r, circlePoints cx cy r fill = loop 0 r (1 - r)

/-- R153, R154: the outline of a circle of radius `r ≥ 1` is round: with `m` the larger of the two distances `u`, `v`
from the axes, the outline is exactly the points with `u² + v² - m < r² ≤ u² + v² + m`; radius 0 is the centre, a
negative radius nothing. -/
def Obligations.CircleOutlineIsRound : Prop :=
  ∀ (cx cy r px py : Int), (px, py) ∈ circlePoints cx cy r false ↔
    (r = 0 ∧ px = cx ∧ py = cy) ∨
    (1 ≤ r ∧ ∃ u v m : Int, u = |px - cx| ∧ v = |py - cy| ∧ m = max u v ∧
      u * u + v * v - m < r * r ∧ r * r ≤ u * u + v * v + m)

/-- R156: a filled circle covers the whole of its centre column and centre row, so every row from `cy - r` to
`cy + r`, and nothing outside its bounding square. -/
def Obligations.FilledCircleCoversItsRows : Prop :=
  ∀ (cx cy r : Int), 0 ≤ r →
    (∀ d : Int, -r ≤ d → d ≤ r → (cx, cy + d) ∈ circlePoints cx cy r true ∧ (cx + d, cy) ∈ circlePoints cx cy r true) ∧
    ∀ px py : Int, (px, py) ∈ circlePoints cx cy r true →
      cx - r ≤ px ∧ px ≤ cx + r ∧ cy - r ≤ py ∧ py ≤ cy + r

/-! ### The blitter -/

/-- R186, R190, R197, R223 (5), (6): a blit with a reserved mode, FILLREGION with DRAW and WORDIMAGE with an odd
pointer fail with ILLEGAL and emit nothing. -/
def Obligations.BlitsRefuseReservedOperands : Prop :=
  ∀ (i : Instr) (s : State), i ∈ blitCommands →
    (2 < (blitMode i s).toNat ∨ (i = .fillregion ∧ blitMode i s = 1) ∨ (i = .wordimage ∧ s.a0.toNat % 2 = 1)) →
    ∃ t, exec i s = .next t ∧ s.frame t ∧ s.silent t ∧ t.status = endStatus s (some .illegal) ∧
      t.result = s.result

/-- R183, R222: a blit of an empty area completes with no cause; one whose area leaves the surface fails with RANGE;
neither emits anything. No host write races with the image's header (R245). -/
def Obligations.BlitsCheckTheirArea : Prop :=
  ∀ (i : Instr) (s : State), i ∈ blitCommands → s.quiet s.a0.toNat (headerBytes i) → blitAccepts i s = true →
    ¬ areaOnSurface (blitX i s) (blitY i s) (blitWidth i s) (blitHeight i s) →
    ∃ t, exec i s = .next t ∧ s.frame t ∧ s.silent t ∧ t.result = s.result ∧
      t.status = endStatus s
        (if blitWidth i s ≤ 0 ∨ blitHeight i s ≤ 0 then none else some .range)

/-- R181, R182, R186, R187, R190, R191, R197: BLANK and FILL blits write the constant words 0xFFDF and 0x0000 over the
area's whole words. No host write races with the image's header, all these modes read of it (R245). -/
def Obligations.ConstantBlits : Prop :=
  ∀ (i : Instr) (s : State), i ∈ blitCommands → s.displayReady = true → s.quiet s.a0.toNat (headerBytes i) →
    (blitMode i s = 0 ∨ blitMode i s = 2) → (i = .wordimage → s.a0.toNat % 2 = 0) →
    areaOnSurface (blitX i s) (blitY i s) (blitWidth i s) (blitHeight i s) →
    ∃ t, exec i s = .next t ∧ s.frame t ∧ t.result = s.result ∧ t.status = endStatus s none ∧
      Blits s t (blitX i s) (blitY i s) (blitWidth i s) (blitHeight i s)
        (fun _ _ => if blitMode i s = 0 then 0xFFDF else 0x0000)

/-- R92, R182, R185, R186: BITIMAGE DRAW writes words whose bits are those of 0xFFDF, but clear in each field whose
image column is on. No host write races with a byte of the image, header and rows (R245); writes elsewhere may. -/
def Obligations.BitimageDrawsTheImage : Prop :=
  ∀ (s : State) (w : Nat), s.displayReady = true → s.a3 = 1 →
    w = (s.imageByte s.a0.toNat).toNat →
    s.quiet s.a0.toNat (2 + (w + 7) / 8 * (s.imageByte (s.a0.toNat + 1)).toNat) →
    areaOnSurface s.a1.toInt s.a2.toInt w (s.imageByte (s.a0.toNat + 1)).toNat →
    ∃ t f, exec .bitimage s = .next t ∧ s.frame t ∧ t.result = s.result ∧ t.status = endStatus s none ∧
      Blits s t s.a1.toInt s.a2.toInt w (s.imageByte (s.a0.toNat + 1)).toNat f ∧
      ∀ r k i : Nat, i < 16 → (f r k).getLsbD i =
        ((0xFFDF : Word).getLsbD i && !decide (∃ g : Nat, g < 3 ∧ (fieldMask s.cfg g).getLsbD i = true ∧
          3 * k + g < w ∧ s.imageBit s.a0.toNat w r (w - 1 - (3 * k + g)) = true))

/-- R93 to R97, R182, R190, R192 to R196: WORDIMAGE DRAW writes the words its payload decodes to, row after row, runs
going on across rows. If a reserved control word comes before the image is complete it fails with BADIMG, and exactly
the words before it, and the address events of the row it fell in, have been sent. No host write races with a byte the
command reads, the header and the payload up to the last word decoded (R245); writes elsewhere may. -/
def Obligations.WordimageDrawsThePayload : Prop :=
  ∀ (s : State) (w h nw : Nat) (ws : List Word), s.displayReady = true → s.a3 = 1 →
    s.a0.toNat % 2 = 0 → w = (s.imageWord s.a0.toNat).toNat → h = (s.imageWord (s.a0.toNat + 2)).toNat →
    areaOnSurface s.a1.toInt s.a2.toInt w h → nw = (w + 2) / 3 →
    s.quiet s.a0.toNat
      (4 + 2 * planeReads s.cfg (fun j => s.imageWord (s.a0.toNat + 4 + 2 * j)) (h * nw) (h * nw) 0) →
    ws = (planeWords s.cfg (fun j => s.imageWord (s.a0.toNat + 4 + 2 * j)) (h * nw) 0).take (h * nw) →
    ∃ t, exec .wordimage s = .next t ∧ s.frame t ∧ t.result = s.result ∧
      t.status = endStatus s (if ws.length = h * nw then none else some .badimg) ∧
      Streams s t s.a2.toInt ((160 - s.a1.toInt - w) / 3) nw
        (if ws.length = h * nw then h else ws.length / nw + 1) ws

/-- R198, R199: CLEAR writes 0xFFDF and FILLSCREEN writes A0, unchanged, to all 54 words of all 160 lines and to no
other word; 18400 events; no cause. -/
def Obligations.ScreenFills : Prop :=
  ∀ (i : Instr) (s : State) (v : Word), s.displayReady = true →
    (i = .clear ∧ v = 0xFFDF) ∨ (i = .fillscreen ∧ v = s.a0) →
    ∃ t, exec i s = .next t ∧ s.frame t ∧ t.result = s.result ∧ t.status = endStatus s none ∧
      (∀ l k : Byte, t.rc.dram.readWord l k =
        if l.toNat < 160 ∧ k.toNat < 54 then v else s.rc.dram.readWord l k) ∧
      t.trace = s.trace ++ (List.range 160).flatMap (fun (r : Nat) =>
        rowEvents s.cfg (BitVec.ofNat 8 r) 0x00 (List.replicate 54 v)) ∧
      t.trace.length = s.trace.length + 18400

end
end

