-- ==== Sys2Proof/Laws/State.lean ====
section
/-! SUPPORT. What each update of the state, of a running command and of the controller leaves in each field: one lemma
per field, so that no later proof unfolds a record update. -/

namespace Sys2Proof.Machine

section StateFields
variable (s : State) (u : Run) (f : StatusField) (v : Word) (rc : Controller) (evs : List BusEvent)

@[simp] theorem setResult_cfg : (s.setResult v).cfg = s.cfg := rfl
@[simp] theorem setResult_cmd : (s.setResult v).cmd = s.cmd := rfl
@[simp] theorem setResult_a0 : (s.setResult v).a0 = s.a0 := rfl
@[simp] theorem setResult_a1 : (s.setResult v).a1 = s.a1 := rfl
@[simp] theorem setResult_a2 : (s.setResult v).a2 = s.a2 := rfl
@[simp] theorem setResult_a3 : (s.setResult v).a3 = s.a3 := rfl
@[simp] theorem setResult_a4 : (s.setResult v).a4 = s.a4 := rfl
@[simp] theorem setResult_a5 : (s.setResult v).a5 = s.a5 := rfl
@[simp] theorem setResult_result : (s.setResult v).result = v := rfl
@[simp] theorem setResult_status : (s.setResult v).status = s.status := rfl
@[simp] theorem setResult_rc : (s.setResult v).rc = s.rc := rfl
@[simp] theorem setResult_img : (s.setResult v).img = s.img := rfl
@[simp] theorem setResult_trace : (s.setResult v).trace = s.trace := rfl
@[simp] theorem setResult_racing : (s.setResult v).racing = s.racing := rfl
@[simp] theorem setResult_races : (s.setResult v).races = s.races := rfl
@[simp] theorem setResult_hostData : (s.setResult v).hostData = s.hostData := rfl
@[simp] theorem setResult_host : (s.setResult v).host = s.host := rfl

@[simp] theorem commit_cfg : (s.commit u).cfg = s.cfg := rfl
@[simp] theorem commit_cmd : (s.commit u).cmd = s.cmd := rfl
@[simp] theorem commit_a0 : (s.commit u).a0 = s.a0 := rfl
@[simp] theorem commit_a1 : (s.commit u).a1 = s.a1 := rfl
@[simp] theorem commit_a2 : (s.commit u).a2 = s.a2 := rfl
@[simp] theorem commit_a3 : (s.commit u).a3 = s.a3 := rfl
@[simp] theorem commit_a4 : (s.commit u).a4 = s.a4 := rfl
@[simp] theorem commit_a5 : (s.commit u).a5 = s.a5 := rfl
@[simp] theorem commit_result : (s.commit u).result = s.result := rfl
@[simp] theorem commit_status : (s.commit u).status = (if u.range then statusSet .range s.status else s.status) := rfl
@[simp] theorem commit_rc : (s.commit u).rc = u.rc := rfl
@[simp] theorem commit_img : (s.commit u).img = s.img := rfl
@[simp] theorem commit_trace : (s.commit u).trace = u.trace := rfl
@[simp] theorem commit_racing : (s.commit u).racing = s.racing := rfl
@[simp] theorem commit_races : (s.commit u).races = s.races := rfl
@[simp] theorem commit_hostData : (s.commit u).hostData = s.hostData := rfl
@[simp] theorem commit_host : (s.commit u).host = s.host := rfl

@[simp] theorem settle_cfg : (s.settle).cfg = s.cfg := rfl
@[simp] theorem settle_cmd : (s.settle).cmd = s.cmd := rfl
@[simp] theorem settle_a0 : (s.settle).a0 = s.a0 := rfl
@[simp] theorem settle_a1 : (s.settle).a1 = s.a1 := rfl
@[simp] theorem settle_a2 : (s.settle).a2 = s.a2 := rfl
@[simp] theorem settle_a3 : (s.settle).a3 = s.a3 := rfl
@[simp] theorem settle_a4 : (s.settle).a4 = s.a4 := rfl
@[simp] theorem settle_a5 : (s.settle).a5 = s.a5 := rfl
@[simp] theorem settle_result : (s.settle).result = s.result := rfl
@[simp] theorem settle_status : (s.settle).status = s.status := rfl
@[simp] theorem settle_rc : (s.settle).rc = s.rc := rfl
@[simp] theorem settle_img : (s.settle).img = s.img.writeAll (imgSize s.cfg) s.racing := rfl
@[simp] theorem settle_trace : (s.settle).trace = s.trace := rfl
@[simp] theorem settle_racing : (s.settle).racing = [] := rfl
@[simp] theorem settle_races : (s.settle).races = (if s.racing = [] then s.races else s.races + 1) := rfl
@[simp] theorem settle_hostData : (s.settle).hostData = s.hostData := rfl
@[simp] theorem settle_host : (s.settle).host = s.host := rfl

@[simp] theorem complete_cfg : (s.complete).cfg = s.cfg := rfl
@[simp] theorem complete_cmd : (s.complete).cmd = s.cmd := rfl
@[simp] theorem complete_a0 : (s.complete).a0 = s.a0 := rfl
@[simp] theorem complete_a1 : (s.complete).a1 = s.a1 := rfl
@[simp] theorem complete_a2 : (s.complete).a2 = s.a2 := rfl
@[simp] theorem complete_a3 : (s.complete).a3 = s.a3 := rfl
@[simp] theorem complete_a4 : (s.complete).a4 = s.a4 := rfl
@[simp] theorem complete_a5 : (s.complete).a5 = s.a5 := rfl
@[simp] theorem complete_result : (s.complete).result = s.result := rfl
@[simp] theorem complete_status : (s.complete).status = statusComplete s.status := rfl
@[simp] theorem complete_rc : (s.complete).rc = s.rc := rfl
@[simp] theorem complete_img : (s.complete).img = s.settle.img := rfl
@[simp] theorem complete_trace : (s.complete).trace = s.trace := rfl
@[simp] theorem complete_racing : (s.complete).racing = [] := rfl
@[simp] theorem complete_races : (s.complete).races = s.settle.races := rfl
@[simp] theorem complete_hostData : (s.complete).hostData = s.hostData := rfl
@[simp] theorem complete_host : (s.complete).host = s.host := rfl

@[simp] theorem finish_cfg : (s.finish u).cfg = s.cfg := rfl
@[simp] theorem finish_cmd : (s.finish u).cmd = s.cmd := rfl
@[simp] theorem finish_a0 : (s.finish u).a0 = s.a0 := rfl
@[simp] theorem finish_a1 : (s.finish u).a1 = s.a1 := rfl
@[simp] theorem finish_a2 : (s.finish u).a2 = s.a2 := rfl
@[simp] theorem finish_a3 : (s.finish u).a3 = s.a3 := rfl
@[simp] theorem finish_a4 : (s.finish u).a4 = s.a4 := rfl
@[simp] theorem finish_a5 : (s.finish u).a5 = s.a5 := rfl
@[simp] theorem finish_result : (s.finish u).result = s.result := rfl
@[simp] theorem finish_status : (s.finish u).status = statusComplete (if u.range then statusSet .range s.status else s.status) := rfl
@[simp] theorem finish_rc : (s.finish u).rc = u.rc := rfl
@[simp] theorem finish_img : (s.finish u).img = s.settle.img := rfl
@[simp] theorem finish_trace : (s.finish u).trace = u.trace := rfl
@[simp] theorem finish_racing : (s.finish u).racing = [] := rfl
@[simp] theorem finish_races : (s.finish u).races = s.settle.races := rfl
@[simp] theorem finish_hostData : (s.finish u).hostData = s.hostData := rfl
@[simp] theorem finish_host : (s.finish u).host = s.host := rfl

@[simp] theorem fail_cfg : (s.fail f u).cfg = s.cfg := rfl
@[simp] theorem fail_cmd : (s.fail f u).cmd = s.cmd := rfl
@[simp] theorem fail_a0 : (s.fail f u).a0 = s.a0 := rfl
@[simp] theorem fail_a1 : (s.fail f u).a1 = s.a1 := rfl
@[simp] theorem fail_a2 : (s.fail f u).a2 = s.a2 := rfl
@[simp] theorem fail_a3 : (s.fail f u).a3 = s.a3 := rfl
@[simp] theorem fail_a4 : (s.fail f u).a4 = s.a4 := rfl
@[simp] theorem fail_a5 : (s.fail f u).a5 = s.a5 := rfl
@[simp] theorem fail_result : (s.fail f u).result = s.result := rfl
@[simp] theorem fail_status : (s.fail f u).status = statusComplete (statusSet f (if u.range then statusSet .range s.status else s.status)) := rfl
@[simp] theorem fail_rc : (s.fail f u).rc = u.rc := rfl
@[simp] theorem fail_img : (s.fail f u).img = s.settle.img := rfl
@[simp] theorem fail_trace : (s.fail f u).trace = u.trace := rfl
@[simp] theorem fail_racing : (s.fail f u).racing = [] := rfl
@[simp] theorem fail_races : (s.fail f u).races = s.settle.races := rfl
@[simp] theorem fail_hostData : (s.fail f u).hostData = s.hostData := rfl
@[simp] theorem fail_host : (s.fail f u).host = s.host := rfl

@[simp] theorem accept_cfg : (s.accept v).cfg = s.cfg := rfl
@[simp] theorem accept_cmd : (s.accept v).cmd = v := rfl
@[simp] theorem accept_a0 : (s.accept v).a0 = s.a0 := rfl
@[simp] theorem accept_a1 : (s.accept v).a1 = s.a1 := rfl
@[simp] theorem accept_a2 : (s.accept v).a2 = s.a2 := rfl
@[simp] theorem accept_a3 : (s.accept v).a3 = s.a3 := rfl
@[simp] theorem accept_a4 : (s.accept v).a4 = s.a4 := rfl
@[simp] theorem accept_a5 : (s.accept v).a5 = s.a5 := rfl
@[simp] theorem accept_result : (s.accept v).result = s.result := rfl
@[simp] theorem accept_status : (s.accept v).status = statusAccept s.status := rfl
@[simp] theorem accept_rc : (s.accept v).rc = s.rc := rfl
@[simp] theorem accept_img : (s.accept v).img = s.img := rfl
@[simp] theorem accept_trace : (s.accept v).trace = [] := rfl
@[simp] theorem accept_racing : (s.accept v).racing = s.racing := rfl
@[simp] theorem accept_races : (s.accept v).races = s.races := rfl
@[simp] theorem accept_hostData : (s.accept v).hostData = s.hostData := rfl
@[simp] theorem accept_host : (s.accept v).host = s.host := rfl

@[simp] theorem busyError_cfg : (s.busyError).cfg = s.cfg := rfl
@[simp] theorem busyError_cmd : (s.busyError).cmd = s.cmd := rfl
@[simp] theorem busyError_a0 : (s.busyError).a0 = s.a0 := rfl
@[simp] theorem busyError_a1 : (s.busyError).a1 = s.a1 := rfl
@[simp] theorem busyError_a2 : (s.busyError).a2 = s.a2 := rfl
@[simp] theorem busyError_a3 : (s.busyError).a3 = s.a3 := rfl
@[simp] theorem busyError_a4 : (s.busyError).a4 = s.a4 := rfl
@[simp] theorem busyError_a5 : (s.busyError).a5 = s.a5 := rfl
@[simp] theorem busyError_result : (s.busyError).result = s.result := rfl
@[simp] theorem busyError_status : (s.busyError).status = statusSet .busyerr s.status := rfl
@[simp] theorem busyError_rc : (s.busyError).rc = s.rc := rfl
@[simp] theorem busyError_img : (s.busyError).img = s.img := rfl
@[simp] theorem busyError_trace : (s.busyError).trace = s.trace := rfl
@[simp] theorem busyError_racing : (s.busyError).racing = s.racing := rfl
@[simp] theorem busyError_races : (s.busyError).races = s.races := rfl
@[simp] theorem busyError_hostData : (s.busyError).hostData = s.hostData := rfl
@[simp] theorem busyError_host : (s.busyError).host = s.host := rfl

@[simp] theorem lgbReset_cfg : (s.lgbReset rc evs).cfg = s.cfg := rfl
@[simp] theorem lgbReset_cmd : (s.lgbReset rc evs).cmd = 0 := rfl
@[simp] theorem lgbReset_a0 : (s.lgbReset rc evs).a0 = 0 := rfl
@[simp] theorem lgbReset_a1 : (s.lgbReset rc evs).a1 = 0 := rfl
@[simp] theorem lgbReset_a2 : (s.lgbReset rc evs).a2 = 0 := rfl
@[simp] theorem lgbReset_a3 : (s.lgbReset rc evs).a3 = 0 := rfl
@[simp] theorem lgbReset_a4 : (s.lgbReset rc evs).a4 = 0 := rfl
@[simp] theorem lgbReset_a5 : (s.lgbReset rc evs).a5 = 0 := rfl
@[simp] theorem lgbReset_result : (s.lgbReset rc evs).result = 0 := rfl
@[simp] theorem lgbReset_status : (s.lgbReset rc evs).status = 0 := rfl
@[simp] theorem lgbReset_rc : (s.lgbReset rc evs).rc = rc := rfl
@[simp] theorem lgbReset_img : (s.lgbReset rc evs).img = s.settle.img := rfl
@[simp] theorem lgbReset_trace : (s.lgbReset rc evs).trace = evs := rfl
@[simp] theorem lgbReset_racing : (s.lgbReset rc evs).racing = [] := rfl
@[simp] theorem lgbReset_races : (s.lgbReset rc evs).races = s.settle.races := rfl
@[simp] theorem lgbReset_hostData : (s.lgbReset rc evs).hostData = s.hostData := rfl
@[simp] theorem lgbReset_host : (s.lgbReset rc evs).host = s.host := rfl

@[simp] theorem run_rc : s.run.rc = s.rc := rfl
@[simp] theorem run_trace : s.run.trace = s.trace := rfl
@[simp] theorem run_range : s.run.range = false := rfl

@[simp] theorem noteSoFar_cfg (noted : Bool) : (s.noteSoFar noted).cfg = s.cfg := by
  rw [State.noteSoFar]; split <;> rfl
@[simp] theorem noteSoFar_cmd (noted : Bool) : (s.noteSoFar noted).cmd = s.cmd := by
  rw [State.noteSoFar]; split <;> rfl
@[simp] theorem noteSoFar_a0 (noted : Bool) : (s.noteSoFar noted).a0 = s.a0 := by
  rw [State.noteSoFar]; split <;> rfl
@[simp] theorem noteSoFar_a1 (noted : Bool) : (s.noteSoFar noted).a1 = s.a1 := by
  rw [State.noteSoFar]; split <;> rfl
@[simp] theorem noteSoFar_a2 (noted : Bool) : (s.noteSoFar noted).a2 = s.a2 := by
  rw [State.noteSoFar]; split <;> rfl
@[simp] theorem noteSoFar_a3 (noted : Bool) : (s.noteSoFar noted).a3 = s.a3 := by
  rw [State.noteSoFar]; split <;> rfl
@[simp] theorem noteSoFar_a4 (noted : Bool) : (s.noteSoFar noted).a4 = s.a4 := by
  rw [State.noteSoFar]; split <;> rfl
@[simp] theorem noteSoFar_a5 (noted : Bool) : (s.noteSoFar noted).a5 = s.a5 := by
  rw [State.noteSoFar]; split <;> rfl
@[simp] theorem noteSoFar_result (noted : Bool) : (s.noteSoFar noted).result = s.result := by
  rw [State.noteSoFar]; split <;> rfl
@[simp] theorem noteSoFar_rc (noted : Bool) : (s.noteSoFar noted).rc = s.rc := by
  rw [State.noteSoFar]; split <;> rfl
@[simp] theorem noteSoFar_img (noted : Bool) : (s.noteSoFar noted).img = s.img := by
  rw [State.noteSoFar]; split <;> rfl
@[simp] theorem noteSoFar_trace (noted : Bool) : (s.noteSoFar noted).trace = s.trace := by
  rw [State.noteSoFar]; split <;> rfl
@[simp] theorem noteSoFar_racing (noted : Bool) : (s.noteSoFar noted).racing = s.racing := by
  rw [State.noteSoFar]; split <;> rfl
@[simp] theorem noteSoFar_races (noted : Bool) : (s.noteSoFar noted).races = s.races := by
  rw [State.noteSoFar]; split <;> rfl
@[simp] theorem noteSoFar_hostData (noted : Bool) : (s.noteSoFar noted).hostData = s.hostData := by
  rw [State.noteSoFar]; split <;> rfl
@[simp] theorem noteSoFar_host (noted : Bool) : (s.noteSoFar noted).host = s.host := by
  rw [State.noteSoFar]; split <;> rfl
@[simp] theorem noteSoFar_status (noted : Bool) : (s.noteSoFar noted).status =
    (if noted && s.busy && s.notesRange then statusSet .range s.status else s.status) := by
  rw [State.noteSoFar]; split <;> rfl
@[simp] theorem noteSoFar_false : s.noteSoFar false = s := rfl

end StateFields

section RunFields
variable (c : Config) (b : Byte) (u : Run)

@[simp] theorem busCmd_rc : (busCmd c b u).rc = u.rc.command c b := rfl
@[simp] theorem busCmd_trace : (busCmd c b u).trace = u.trace ++ [.cmd b] := rfl
@[simp] theorem busCmd_range : (busCmd c b u).range = u.range := rfl
@[simp] theorem busData_rc : (busData b u).rc = u.rc.data b := rfl
@[simp] theorem busData_trace : (busData b u).trace = u.trace ++ [.data b] := rfl
@[simp] theorem busData_range : (busData b u).range = u.range := rfl
@[simp] theorem busRead_rc : (busRead u).rc = u.rc.afterRead := rfl
@[simp] theorem busRead_trace : (busRead u).trace = u.trace ++ [.read u.rc.readValue] := rfl
@[simp] theorem busRead_range : (busRead u).range = u.range := rfl
@[simp] theorem noteRange_rc : (noteRange u).rc = u.rc := rfl
@[simp] theorem noteRange_trace : (noteRange u).trace = u.trace := rfl
@[simp] theorem noteRange_range : (noteRange u).range = true := rfl

end RunFields

end Sys2Proof.Machine
end

