-- ==== Sys2Proof/Laws/Memory.lean ====
section
/-! SUPPORT. Memories: read after write, the canonical form, and display words. -/

namespace Sys2Proof.Machine

theorem read_without_same (m : Memory) (a : Nat) : (m.without a).read a = unlistedByte := by
  induction m with
  | nil => rfl
  | cons c m ih =>
    by_cases h : c.1 = a
    · simpa [Memory.without, h] using ih
    · have h' : ¬ a = c.1 := fun e => h e.symm
      have e : Memory.without (c :: m) a = c :: Memory.without m a := by simp [Memory.without, h]
      rw [e, Memory.read, if_neg h', ih]

theorem read_without_other (m : Memory) {a b : Nat} (hb : b ≠ a) : (m.without a).read b = m.read b := by
  induction m with
  | nil => rfl
  | cons c m ih =>
    by_cases h : c.1 = a
    · have e : Memory.without (c :: m) a = Memory.without m a := by simp [Memory.without, h]
      have hb' : ¬ b = c.1 := fun e => hb (e.trans h)
      rw [e, ih, Memory.read, if_neg hb']
    · have e : Memory.without (c :: m) a = c :: Memory.without m a := by simp [Memory.without, h]
      rw [e, Memory.read, Memory.read, ih]

theorem read_place_same (m : Memory) (a : Nat) (v : Byte) (hm : ∀ c ∈ m, c.1 ≠ a) : (m.place a v).read a = v := by
  induction m with
  | nil => simp [Memory.place, Memory.read]
  | cons c m ih =>
    have hc : ¬ a = c.1 := fun e => hm c (by simp) e.symm
    rw [Memory.place]
    split
    · simp [Memory.read]
    · rw [Memory.read, if_neg hc, ih (fun d hd => hm d (by simp [hd]))]

theorem read_place_other (m : Memory) {a b : Nat} (v : Byte) (hb : b ≠ a) : (m.place a v).read b = m.read b := by
  induction m with
  | nil => simp [Memory.place, Memory.read, hb]
  | cons c m ih =>
    rw [Memory.place]
    split
    · rw [Memory.read, if_neg hb]
    · rw [Memory.read, Memory.read, ih]

theorem without_avoids (m : Memory) (a : Nat) : ∀ c ∈ m.without a, c.1 ≠ a := by
  intro c hc
  simpa using (List.mem_filter.mp hc).2

/-- A byte written reads back. -/
@[simp] theorem read_write_same (m : Memory) (a : Nat) (v : Byte) : (m.write a v).read a = v := by
  rw [Memory.write]
  split
  · rename_i h
    rw [read_without_same, h]
  · exact read_place_same _ _ _ (without_avoids m a)

/-- Writing a byte leaves every other address alone. -/
theorem read_write_other (m : Memory) {a b : Nat} (v : Byte) (hb : b ≠ a) : (m.write a v).read b = m.read b := by
  rw [Memory.write]
  split
  · exact read_without_other m hb
  · rw [read_place_other _ v hb, read_without_other m hb]

theorem wf_cons {size : Nat} {c : Host.Cell} {m : Memory} :
    Memory.wf size (c :: m) = true ↔
      c.1 < size ∧ c.2 ≠ unlistedByte ∧ (∀ d ∈ m, c.1 < d.1) ∧ Memory.wf size m = true := by
  simp [Memory.wf, and_assoc]

theorem wf_without {size : Nat} {m : Memory} (a : Nat) (h : m.wf size = true) : (m.without a).wf size = true := by
  induction m with
  | nil => exact h
  | cons c m ih =>
    obtain ⟨h1, h2, h3, h4⟩ := wf_cons.mp h
    by_cases hc : c.1 = a
    · have e : Memory.without (c :: m) a = Memory.without m a := by simp [Memory.without, hc]
      rw [e]
      exact ih h4
    · have e : Memory.without (c :: m) a = c :: Memory.without m a := by simp [Memory.without, hc]
      rw [e]
      exact wf_cons.mpr ⟨h1, h2, fun d hd => h3 d (List.mem_filter.mp hd).1, ih h4⟩

theorem mem_place {m : Memory} {a : Nat} {v : Byte} {d : Host.Cell} (h : d ∈ m.place a v) : d = (a, v) ∨ d ∈ m := by
  induction m with
  | nil => simpa [Memory.place] using h
  | cons c m ih =>
    rw [Memory.place] at h
    split at h
    · simpa using h
    · rcases List.mem_cons.mp h with h | h
      · exact .inr (by simp [h])
      · rcases ih h with h | h
        · exact .inl h
        · exact .inr (by simp [h])

theorem wf_place {size : Nat} {m : Memory} {a : Nat} {v : Byte} (h : m.wf size = true) (ha : a < size)
    (hv : v ≠ unlistedByte) (hm : ∀ c ∈ m, c.1 ≠ a) : (m.place a v).wf size = true := by
  induction m with
  | nil => exact wf_cons.mpr ⟨ha, hv, by simp, rfl⟩
  | cons c m ih =>
    obtain ⟨h1, h2, h3, h4⟩ := wf_cons.mp h
    rw [Memory.place]
    split
    · rename_i hlt
      refine wf_cons.mpr ⟨ha, hv, fun d hd => ?_, h⟩
      rcases List.mem_cons.mp hd with rfl | hd
      · exact hlt
      · exact Nat.lt_trans hlt (h3 d hd)
    · rename_i hlt
      have hne : c.1 ≠ a := hm c (by simp)
      refine wf_cons.mpr ⟨h1, h2, fun d hd => ?_, ih h4 (fun d hd => hm d (by simp [hd]))⟩
      rcases mem_place hd with rfl | hd
      · show c.1 < a
        have hlt' : ¬ a < c.1 := hlt
        omega
      · exact h3 d hd

/-- Every write keeps the canonical form. -/
theorem wf_write {size : Nat} {m : Memory} {a : Nat} (v : Byte) (h : m.wf size = true) (ha : a < size) :
    (m.write a v).wf size = true := by
  rw [Memory.write]
  split
  · exact wf_without a h
  · rename_i hv
    exact wf_place (wf_without a h) ha hv (without_avoids m a)

/-- A list of writes keeps the canonical form. -/
theorem wf_writeAll {size : Nat} (hs : 0 < size) (cells : List Host.Cell) {m : Memory} (h : m.wf size = true) :
    (m.writeAll size cells).wf size = true := by
  induction cells generalizing m with
  | nil => exact h
  | cons c cs ih => exact ih (wf_write c.2 h (Nat.mod_lt _ hs))

@[simp] theorem writeAll_nil (size : Nat) (m : Memory) : m.writeAll size [] = m := rfl

theorem imgSize_pos (c : Config) : 0 < imgSize c := Nat.two_pow_pos _

theorem joinBytes_toNat (h l : Byte) : (joinBytes h l).toNat = h.toNat * 256 + l.toNat := by
  simp only [joinBytes, BitVec.toNat_append]
  rw [← Nat.shiftLeft_add_eq_or_of_lt l.isLt, Nat.shiftLeft_eq]

@[simp] theorem joinBytes_hi_lo (w : Word) : joinBytes (hiByte w) (loByte w) = w := by
  apply BitVec.eq_of_toNat_eq
  rw [joinBytes_toNat]
  simp only [hiByte, loByte, BitVec.extractLsb'_toNat]
  have := w.isLt
  omega

@[simp] theorem hiByte_join (h l : Byte) : hiByte (joinBytes h l) = h := by
  apply BitVec.eq_of_toNat_eq
  have := h.isLt
  have := l.isLt
  simp only [hiByte, BitVec.extractLsb'_toNat, joinBytes_toNat]
  omega

@[simp] theorem loByte_join (h l : Byte) : loByte (joinBytes h l) = l := by
  apply BitVec.eq_of_toNat_eq
  have := h.isLt
  have := l.isLt
  simp only [loByte, BitVec.extractLsb'_toNat, joinBytes_toNat]
  omega

theorem wordAddr_bound (l c : Byte) : wordAddr l c + 1 < dramSize := by
  have := l.isLt
  have := c.isLt
  simp only [wordAddr, dramSize]
  omega

theorem wordAddr_inj {l c l' c' : Byte} (h : wordAddr l c = wordAddr l' c') : l = l' ∧ c = c' := by
  have := c.isLt
  have := c'.isLt
  simp only [wordAddr] at h
  constructor <;> apply BitVec.eq_of_toNat_eq <;> omega

/-- A display word written reads back whole, bit 5 included (R69). -/
@[simp] theorem readWord_writeWord_same (m : Memory) (l c : Byte) (w : Word) :
    (m.writeWord l c w).readWord l c = w := by
  rw [Memory.readWord, Memory.writeWord, read_write_same, read_write_other _ _ (by omega), read_write_same,
    joinBytes_hi_lo]

/-- Writing a display word leaves every other display word alone. -/
theorem readWord_writeWord_other (m : Memory) {l c l' c' : Byte} (w : Word) (h : ¬ (l' = l ∧ c' = c)) :
    (m.writeWord l c w).readWord l' c' = m.readWord l' c' := by
  have hne : wordAddr l' c' ≠ wordAddr l c := fun e => h (wordAddr_inj e)
  have e : ∀ x y : Byte, wordAddr x y % 2 = 0 := fun x y => by simp [wordAddr]
  have h1 := e l c
  have h2 := e l' c'
  rw [Memory.readWord, Memory.writeWord, read_write_other _ _ (by omega), read_write_other _ _ (by omega),
    read_write_other _ _ (by omega), read_write_other _ _ (by omega), Memory.readWord]

theorem wf_writeWord {m : Memory} (l c : Byte) (w : Word) (h : m.wf dramSize = true) :
    (m.writeWord l c w).wf dramSize = true := by
  have hb := wordAddr_bound l c
  exact wf_write _ (wf_write _ h (by omega)) hb

end Sys2Proof.Machine
end

