-- ==== Sys2Proof/Laws/Controller.lean ====
section
/-! SUPPORT. What each bus transaction does to a controller that expects it, and that every transaction keeps the
display memory canonical. -/

namespace Sys2Proof.Machine

theorem distinct_bytes {c : Config} (h : commandBytesDistinct c = true) :
    c.cmdCaset ≠ c.cmdLaset ∧ c.cmdRamwr ≠ c.cmdLaset ∧ c.cmdRamwr ≠ c.cmdCaset ∧ c.cmdRmwin ≠ c.cmdLaset ∧
      c.cmdRmwin ≠ c.cmdCaset ∧ c.cmdRmwin ≠ c.cmdRamwr ∧ c.cmdRmwout ≠ c.cmdLaset ∧ c.cmdRmwout ≠ c.cmdCaset ∧
      c.cmdRmwout ≠ c.cmdRamwr ∧ c.cmdRmwout ≠ c.cmdRmwin := by
  simp only [commandBytesDistinct, Bool.and_eq_true, bne_iff_ne, ne_eq] at h
  obtain ⟨⟨⟨⟨⟨⟨⟨⟨⟨h1, h2⟩, h3⟩, h4⟩, h5⟩, h6⟩, h7⟩, h8⟩, h9⟩, h10⟩ := h
  exact ⟨Ne.symm h1, Ne.symm h2, Ne.symm h5, Ne.symm h3, Ne.symm h6, Ne.symm h8, Ne.symm h4, Ne.symm h7, Ne.symm h9,
    Ne.symm h10⟩

theorem configWf_distinct {c : Config} (h : configWf c = true) : commandBytesDistinct c = true := by
  simp only [configWf, Bool.and_eq_true] at h
  exact h.1.1

theorem configWf_colEnd {c : Config} (h : configWf c = true) : 53 ≤ c.colEnd.toNat := by
  simp only [configWf, Bool.and_eq_true, decide_eq_true_eq] at h
  exact h.2

theorem configWf_masks {c : Config} (h : configWf c = true) : masksSeparate c = true := by
  simp only [configWf, Bool.and_eq_true] at h
  exact h.1.2

/-- The default parameters are well formed. -/
theorem configWf_default : configWf defaultConfig = true := by decide

section Commands
variable {c : Config} {rc : Controller}

theorem command_laset (hw : rc.wphase = false) (hm : rc.mode ≠ .rmw) :
    rc.command c c.cmdLaset = { rc with mode := .idle, pcmd := .laset, pidx := false } := by
  simp [Controller.command, hw, hm]

theorem command_caset (h : commandBytesDistinct c = true) (hw : rc.wphase = false) (hm : rc.mode ≠ .rmw) :
    rc.command c c.cmdCaset = { rc with mode := .idle, pcmd := .caset, pidx := false } := by
  simp [Controller.command, hw, hm, distinct_bytes h]

theorem command_ramwr (h : commandBytesDistinct c = true) (hw : rc.wphase = false) (hm : rc.mode ≠ .rmw) :
    rc.command c c.cmdRamwr = { rc with mode := .write, pcmd := .none, wphase := false } := by
  simp [Controller.command, hw, hm, distinct_bytes h]

theorem command_rmwin (h : commandBytesDistinct c = true) (hw : rc.wphase = false) (hm : rc.mode ≠ .rmw) :
    rc.command c c.cmdRmwin =
      { rc with mode := .rmw, pcmd := .none, sline := rc.line, scol := rc.col, dummy := true, rphase := false,
                wphase := false } := by
  simp [Controller.command, hw, hm, distinct_bytes h]

theorem command_rmwout (h : commandBytesDistinct c = true) (hw : rc.wphase = false) :
    rc.command c c.cmdRmwout = { rc with line := rc.sline, col := rc.scol, mode := .idle } := by
  simp [Controller.command, hw, distinct_bytes h]

end Commands

/-- Pointer advance touches only the pointer. -/
theorem advance_eq (rc : Controller) :
    rc.advance = { rc with line := rc.advance.line, col := rc.advance.col } := by
  rw [Controller.advance]
  split <;> rfl

@[simp] theorem advance_dram (rc : Controller) : rc.advance.dram = rc.dram := by
  rw [advance_eq]

theorem wf_unspecified (rc : Controller) : rc.unspecified.dram.wf dramSize = true :=
  wf_writeAll (by decide) _ rfl

theorem wf_store {rc : Controller} (b : Byte) (h : rc.dram.wf dramSize = true) :
    (rc.store b).dram.wf dramSize = true := by
  rw [Controller.store]
  split
  · rw [advance_dram]
    exact wf_writeWord _ _ _ h
  · exact h

/-- Every bus transaction keeps the display memory canonical. -/
theorem wf_apply (c : Config) (op : BusOp) {rc : Controller} (h : rc.dram.wf dramSize = true) :
    (rc.apply c op).dram.wf dramSize = true := by
  cases op with
  | cmd b =>
    simp only [Controller.apply, Controller.command]
    repeat' split
    all_goals first | exact wf_unspecified rc | exact h
  | data b =>
    simp only [Controller.apply, Controller.data]
    repeat' split
    all_goals first | exact wf_unspecified rc | exact wf_store b h | exact h
  | read =>
    simp only [Controller.apply, Controller.afterRead]
    repeat' split
    all_goals first | exact wf_unspecified rc | exact h

theorem wf_replay (c : Config) (evs : List BusEvent) {rc : Controller} (h : rc.dram.wf dramSize = true) :
    (rc.replay c evs).dram.wf dramSize = true := by
  induction evs generalizing rc with
  | nil => exact h
  | cons e es ih => exact ih (wf_apply c e.op h)

@[simp] theorem replay_nil (c : Config) (rc : Controller) : rc.replay c [] = rc := rfl

theorem replay_cons (c : Config) (rc : Controller) (e : BusEvent) (es : List BusEvent) :
    rc.replay c (e :: es) = (rc.apply c e.op).replay c es := rfl

theorem replay_append (c : Config) (rc : Controller) (es fs : List BusEvent) :
    rc.replay c (es ++ fs) = (rc.replay c es).replay c fs := by
  simp [Controller.replay, List.foldl_append]

theorem allSpecified_append (c : Config) (rc : Controller) (es fs : List BusEvent) :
    rc.allSpecified c (es ++ fs) = (rc.allSpecified c es && (rc.replay c es).allSpecified c fs) := by
  induction es generalizing rc with
  | nil => simp [Controller.allSpecified]
  | cons e es ih => simp [Controller.allSpecified, replay_cons, ih, Bool.and_assoc]

end Sys2Proof.Machine
end

