-- ==== Sys2Proof/Laws/Trace.lean ====
section
/-! SUPPORT. Every operation of a running command acts on the controller through the bus events it appends to the
trace, and through nothing else (R45, R71, R73). -/

namespace Sys2Proof.Machine

theorem readsHonest_append (c : Config) (rc : Controller) (es fs : List BusEvent) :
    readsHonest c rc (es ++ fs) ↔ readsHonest c rc es ∧ readsHonest c (rc.replay c es) fs := by
  induction es generalizing rc with
  | nil => simp [readsHonest]
  | cons e es ih => simp [readsHonest, replay_cons, ih, and_assoc]

/-- `v` comes from `u` by emitting bus events: the trace grows, the controller is where those events leave it, each
read returned the controller's byte, and a noted RANGE stays noted. -/
def Emits (c : Config) (u v : Run) : Prop :=
  (∃ evs, v.trace = u.trace ++ evs ∧ v.rc = u.rc.replay c evs ∧ readsHonest c u.rc evs) ∧
    (u.range = true → v.range = true)

namespace Emits
variable {c : Config} {u v w : Run}

theorem refl (u : Run) : Emits c u u := ⟨⟨[], by simp, rfl, trivial⟩, id⟩

theorem trans (h : Emits c u v) (h' : Emits c v w) : Emits c u w := by
  obtain ⟨⟨es, h1, h2, h7⟩, h3⟩ := h
  obtain ⟨⟨fs, h4, h5, h8⟩, h6⟩ := h'
  exact ⟨⟨es ++ fs, by rw [h4, h1, List.append_assoc], by rw [h5, h2, replay_append],
    (readsHonest_append ..).mpr ⟨h7, h2 ▸ h8⟩⟩, h6 ∘ h3⟩

theorem busCmd (b : Byte) (u : Run) : Emits c u (busCmd c b u) := ⟨⟨[.cmd b], rfl, rfl, by simp [readsHonest]⟩, id⟩

theorem busData (b : Byte) (u : Run) : Emits c u (busData b u) := ⟨⟨[.data b], rfl, rfl, by simp [readsHonest]⟩, id⟩

theorem busRead (u : Run) : Emits c u (busRead u) :=
  ⟨⟨[.read u.rc.readValue], rfl, rfl, by simp [readsHonest]⟩, id⟩

theorem noteRange (u : Run) : Emits c u (noteRange u) :=
  ⟨⟨[], by simp, rfl, trivial⟩, fun _ => rfl⟩

theorem busDataWord (x : Word) (u : Run) : Emits c u (busDataWord x u) := (busData _ u).trans (busData _ _)

theorem setAddress (xa y : Int) (u : Run) : Emits c u (setAddress c xa y u) :=
  (((((busCmd _ u).trans (busData _ _)).trans (busData _ _)).trans (busCmd _ _)).trans (busData _ _)).trans
    (busData _ _)

theorem rmwOpen (x y : Int) (u : Run) : Emits c u (rmwOpen c x y u) :=
  ((setAddress _ _ u).trans (busCmd _ _)).trans (busRead _)

theorem rmwReads (u : Run) : Emits c u (rmwReads u) := (busRead u).trans (busRead _)

theorem rmwClose (k : PointKind) (f : Nat) (x : Word) (u : Run) : Emits c u (rmwClose c k f x u) := by
  cases k with
  | set => exact (busDataWord _ u).trans (busCmd _ _)
  | clear => exact (busDataWord _ u).trans (busCmd _ _)
  | read => exact busCmd _ u

theorem single (x y : Int) (k : PointKind) (u : Run) : Emits c u (single c x y k u) := by
  rw [Machine.single]
  split
  · exact ((rmwOpen x y u).trans (rmwReads _)).trans (rmwClose _ _ _ _)
  · exact noteRange u

theorem foldl {α : Type} (f : Run → α → Run) (hf : ∀ u a, Emits c u (f u a)) (l : List α) (u : Run) :
    Emits c u (l.foldl f u) := by
  induction l generalizing u with
  | nil => exact refl u
  | cons a l ih => exact (hf u a).trans (ih (f u a))

theorem plotOffsets (x y : Int) (k : PointKind) (offs : List (Int × Int)) (u : Run) :
    Emits c u (plotOffsets c x y k offs u) :=
  foldl _ (fun u d => single (x + d.1) (y + d.2) k u) offs u

theorem plot (x y : Int) (op : PointOp) (u : Run) : Emits c u (plot c x y op u) := by
  cases op with
  | single k => exact single x y k u
  | composite d code => exact plotOffsets x y _ _ u
  | reserved => exact refl u

theorem plotAll (op : PointOp) (pts : List (Int × Int)) (u : Run) : Emits c u (plotAll c op pts u) :=
  foldl _ (fun u p => plot p.1 p.2 op u) pts u

theorem singleAll (k : PointKind) (pts : List (Int × Int)) (u : Run) : Emits c u (singleAll c k pts u) :=
  foldl _ (fun u p => single p.1 p.2 k u) pts u

end Emits

/-- Streaming words emits events and notes no cause. -/
theorem streamWords_emits {σ : Type} (c : Config) (next : Nat → σ → Option (Word × σ)) (ks : List Nat) (d : σ)
    (u : Run) : Emits c u (streamWords next ks d u).2 ∧ (streamWords next ks d u).2.range = u.range := by
  induction ks generalizing d u with
  | nil => exact ⟨.refl u, rfl⟩
  | cons k ks ih =>
    rw [streamWords]
    split
    · exact ⟨.refl u, rfl⟩
    · rename_i x d' _
      have h := ih d' (busDataWord x u)
      exact ⟨(Emits.busDataWord x u).trans h.1, h.2⟩

/-- A blit emits events and notes no cause. -/
theorem blitRows_emits {σ : Type} (c : Config) (xa y : Int) (nw : Nat) (next : Nat → Nat → σ → Option (Word × σ))
    (rs : List Nat) (d : σ) (u : Run) :
    Emits c u (blitRows c xa y nw next rs d u).2 ∧ (blitRows c xa y nw next rs d u).2.range = u.range := by
  induction rs generalizing d u with
  | nil => exact ⟨.refl u, rfl⟩
  | cons r rs ih =>
    have h := streamWords_emits c (next r) (List.range nw) d (busCmd c c.cmdRamwr (setAddress c xa (y + r) u))
    have h0 := (Emits.setAddress (c := c) xa (y + r) u).trans (.busCmd c.cmdRamwr _)
    rw [blitRows]
    split
    · rename_i u' e
      rw [e] at h
      exact ⟨h0.trans h.1, h.2⟩
    · rename_i d' u' e
      rw [e] at h
      have h' := ih d' u'
      exact ⟨(h0.trans h.1).trans h'.1, h'.2.trans h.2⟩

theorem blitPure_emits (c : Config) (x y w h : Int) (f : Nat → Nat → Word) (u : Run) :
    Emits c u (blitPure c x y w h f u) ∧ (blitPure c x y w h f u).range = u.range :=
  blitRows_emits c (blitColumn x w) y (blitWords w) (pureSource f) (List.range h.toNat) () u

theorem fillAll_emits (c : Config) (v : Word) (u : Run) :
    Emits c u (fillAll c v u) ∧ (fillAll c v u).range = u.range := by
  rw [fillAll]
  generalize List.range screenSize.toNat = rs
  exact blitRows_emits c 0 0 wordsPerLine (pureSource fun _ _ => v) rs () u

end Sys2Proof.Machine
end

