-- ==== Sys2Proof/Laws/Pixel.lean ====
section
/-! SUPPORT. The pixel engine, one lemma per operation: what SetAddress, an RMW cycle, a single-point access and a list
of single-point accesses do to the controller, the trace and the RANGE note. -/

namespace Sys2Proof.Machine

/-- The controller after SetAddress (R114). -/
def addressed (c : Config) (xa y : Int) (rc : Controller) : Controller :=
  { rc with ls := byteOfInt y, line := byteOfInt y, le := c.lineEnd, cs := columnByte xa, col := columnByte xa,
            ce := c.colEnd, mode := .idle, pcmd := .none, pidx := true }

section
variable {c : Config} {u : Run}

/-- SetAddress leaves the pointer where R114 says, whatever pointer, window and pending parameters it finds. -/
theorem setAddress_rc (h : commandBytesDistinct c = true) (xa y : Int) (hw : u.rc.wphase = false)
    (hm : u.rc.mode ≠ .rmw) : (setAddress c xa y u).rc = addressed c xa y u.rc := by
  simp [setAddress, command_laset hw hm, Controller.data, command_caset h, hw, addressed]

/-- SetAddress emits six events (R113). -/
theorem setAddress_trace (xa y : Int) : (setAddress c xa y u).trace = u.trace ++
    [.cmd c.cmdLaset, .data (byteOfInt y), .data c.lineEnd, .cmd c.cmdCaset, .data (columnByte xa),
      .data c.colEnd] := by
  simp [setAddress]

@[simp] theorem setAddress_range (xa y : Int) : (setAddress c xa y u).range = u.range := rfl

/-- The controller inside an RMW cycle on logical pixel (x, y), the dummy read done (R65, R66). -/
def rmwOpened (c : Config) (x y : Int) (rc : Controller) : Controller :=
  { addressed c (159 - x) y rc with
    mode := .rmw, sline := byteOfInt y, scol := columnByte (159 - x), dummy := false, rphase := false,
    wphase := false, draws := rc.draws + 1 }

theorem rmwOpen_rc (h : commandBytesDistinct c = true) (x y : Int) (hw : u.rc.wphase = false)
    (hm : u.rc.mode ≠ .rmw) : (rmwOpen c x y u).rc = rmwOpened c x y u.rc := by
  have ha := setAddress_rc h (159 - x) y hw hm
  simp only [rmwOpen, busRead_rc, busCmd_rc, ha]
  rw [command_rmwin (rc := addressed c (159 - x) y u.rc) h hw (by simp [addressed])]
  simp [Controller.afterRead, rmwOpened, addressed]

theorem rmwOpen_trace (h : commandBytesDistinct c = true) (x y : Int) (hw : u.rc.wphase = false)
    (hm : u.rc.mode ≠ .rmw) : (rmwOpen c x y u).trace = u.trace ++
    [.cmd c.cmdLaset, .data (byteOfInt y), .data c.lineEnd, .cmd c.cmdCaset, .data (columnByte (159 - x)),
      .data c.colEnd, .cmd c.cmdRmwin, .read (Config.freeByte u.rc.draws 0)] := by
  have ha := setAddress_rc h (159 - x) y hw hm
  simp only [rmwOpen, busRead_trace, busCmd_trace, busCmd_rc, ha, setAddress_trace]
  rw [command_rmwin (rc := addressed c (159 - x) y u.rc) h hw (by simp [addressed])]
  simp [Controller.readValue, addressed]

/-- The two data reads of an open RMW cycle return the addressed word and leave the controller as it was (R66). -/
theorem rmwWord_open {rc : Controller} (x y : Int) (hu : u.rc = rmwOpened c x y rc) :
    rmwWord u = rc.dram.readWord (byteOfInt y) (columnByte (159 - x)) := by
  simp [rmwWord, busReadValue, hu, Controller.readValue, Controller.afterRead, rmwOpened, addressed]

theorem rmwReads_rc {rc : Controller} (x y : Int) (hu : u.rc = rmwOpened c x y rc) :
    (rmwReads u).rc = rmwOpened c x y rc := by
  simp [rmwReads, hu, Controller.afterRead, rmwOpened, addressed]

theorem rmwReads_trace {rc : Controller} (x y : Int) (hu : u.rc = rmwOpened c x y rc) :
    (rmwReads u).trace = u.trace ++
      [.read (hiByte (rc.dram.readWord (byteOfInt y) (columnByte (159 - x)))),
       .read (loByte (rc.dram.readWord (byteOfInt y) (columnByte (159 - x))))] := by
  simp [rmwReads, hu, Controller.readValue, Controller.afterRead, rmwOpened, addressed]

@[simp] theorem rmwOpen_range (x y : Int) : (rmwOpen c x y u).range = u.range := rfl
@[simp] theorem rmwReads_range : (rmwReads u).range = u.range := rfl
@[simp] theorem rmwClose_range (k : PointKind) (f : Nat) (w : Word) : (rmwClose c k f w u).range = u.range := by
  cases k <;> rfl

/-- The controller after an RMW cycle that wrote nothing back: the pointer is where SetAddress put it (R67, R133). -/
def rmwClosed (c : Config) (x y : Int) (rc : Controller) : Controller :=
  { rmwOpened c x y rc with mode := .idle }

theorem rmwOut_rc {rc : Controller} (h : commandBytesDistinct c = true) (x y : Int)
    (hu : u.rc = rmwOpened c x y rc) : (busCmd c c.cmdRmwout u).rc = rmwClosed c x y rc := by
  rw [busCmd_rc, hu, command_rmwout h (by simp [rmwOpened])]
  simp [rmwOpened, rmwClosed, addressed]

/-- The controller after an RMW cycle that wrote word `w` back (R63 to R67). -/
def rmwWritten (c : Config) (x y : Int) (w : Word) (rc : Controller) : Controller :=
  { rmwClosed c x y rc with
    dram := rc.dram.writeWord (byteOfInt y) (columnByte (159 - x)) w, whi := hiByte w }

theorem rmwWrite_rc {rc : Controller} (h : commandBytesDistinct c = true) (x y : Int) (w : Word)
    (hu : u.rc = rmwOpened c x y rc) :
    (busCmd c c.cmdRmwout (busDataWord w u)).rc = rmwWritten c x y w rc := by
  have h1 : (busDataWord w u).rc = ({ rmwOpened c x y rc with
      dram := rc.dram.writeWord (byteOfInt y) (columnByte (159 - x)) w, whi := hiByte w } : Controller).advance := by
    simp [busDataWord, hu, Controller.data, Controller.store, rmwOpened, addressed]
  rw [busCmd_rc, h1, advance_eq, command_rmwout h (by simp [rmwOpened])]
  simp [rmwOpened, rmwClosed, rmwWritten, addressed]

theorem busDataWord_trace (w : Word) : (busDataWord w u).trace = u.trace ++ [.data (hiByte w), .data (loByte w)] := by
  simp [busDataWord]

@[simp] theorem busDataWord_range (w : Word) : (busDataWord w u).range = u.range := rfl

/-- The word that holds logical pixel (x, y) (R49). -/
def pixelWord (x y : Int) (m : Memory) : Word := m.readWord (byteOfInt y) (columnByte (159 - x))

/-- The display memory with logical pixel (x, y) edited (R123). -/
def paint (c : Config) (k : PointKind) (m : Memory) (p : Int × Int) : Memory :=
  m.writeWord (byteOfInt p.2) (columnByte (159 - p.1)) (editField c k (fieldIndex p.1) (pixelWord p.1 p.2 m))

/-- An out-of-range single-point access notes RANGE and does nothing else (R121). -/
theorem single_out {x y : Int} (hr : inRange x y = false) (k : PointKind) : single c x y k u = noteRange u := by
  simp [single, hr]

/-- An in-range SET or CLEAR (R123): the controller it leaves. -/
theorem single_rc (h : commandBytesDistinct c = true) {x y : Int} (hr : inRange x y = true) {k : PointKind}
    (hk : k ≠ .read) (hw : u.rc.wphase = false) (hm : u.rc.mode ≠ .rmw) :
    (single c x y k u).rc = rmwWritten c x y (editField c k (fieldIndex x) (pixelWord x y u.rc.dram)) u.rc := by
  have h1 := rmwOpen_rc h x y hw hm
  have h2 := rmwReads_rc x y h1
  have h3 := rmwWord_open x y h1
  cases k with
  | read => exact absurd rfl hk
  | set => simp only [single, hr, if_true, rmwClose, rmwWrite_rc h x y _ h2, h3, pixelWord]
  | clear => simp only [single, hr, if_true, rmwClose, rmwWrite_rc h x y _ h2, h3, pixelWord]

/-- The thirteen events of an in-range SET or CLEAR (R122). -/
theorem single_trace (h : commandBytesDistinct c = true) {x y : Int} (hr : inRange x y = true) {k : PointKind}
    (hk : k ≠ .read) (hw : u.rc.wphase = false) (hm : u.rc.mode ≠ .rmw) :
    (single c x y k u).trace = u.trace ++
      [.cmd c.cmdLaset, .data (byteOfInt y), .data c.lineEnd, .cmd c.cmdCaset, .data (columnByte (159 - x)),
       .data c.colEnd, .cmd c.cmdRmwin, .read (Config.freeByte u.rc.draws 0),
       .read (hiByte (pixelWord x y u.rc.dram)), .read (loByte (pixelWord x y u.rc.dram)),
       .data (hiByte (editField c k (fieldIndex x) (pixelWord x y u.rc.dram))),
       .data (loByte (editField c k (fieldIndex x) (pixelWord x y u.rc.dram))), .cmd c.cmdRmwout] := by
  have h1 := rmwOpen_rc h x y hw hm
  have h3 := rmwWord_open x y h1
  cases k with
  | read => exact absurd rfl hk
  | set =>
    simp [single, hr, rmwClose, h3, pixelWord, busDataWord_trace, rmwReads_trace x y h1, rmwOpen_trace h x y hw hm]
  | clear =>
    simp [single, hr, rmwClose, h3, pixelWord, busDataWord_trace, rmwReads_trace x y h1, rmwOpen_trace h x y hw hm]

/-- An in-range READ: the controller it leaves, no word changed (R123, R124). -/
theorem single_read_rc (h : commandBytesDistinct c = true) {x y : Int} (hr : inRange x y = true)
    (hw : u.rc.wphase = false) (hm : u.rc.mode ≠ .rmw) :
    (single c x y .read u).rc = rmwClosed c x y u.rc := by
  have h1 := rmwOpen_rc h x y hw hm
  have h2 := rmwReads_rc x y h1
  simp only [single, hr, if_true, rmwClose, rmwOut_rc h x y h2]

/-- The eleven events of an in-range READ (R122). -/
theorem single_read_trace (h : commandBytesDistinct c = true) {x y : Int} (hr : inRange x y = true)
    (hw : u.rc.wphase = false) (hm : u.rc.mode ≠ .rmw) :
    (single c x y .read u).trace = u.trace ++
      [.cmd c.cmdLaset, .data (byteOfInt y), .data c.lineEnd, .cmd c.cmdCaset, .data (columnByte (159 - x)),
       .data c.colEnd, .cmd c.cmdRmwin, .read (Config.freeByte u.rc.draws 0),
       .read (hiByte (pixelWord x y u.rc.dram)), .read (loByte (pixelWord x y u.rc.dram)), .cmd c.cmdRmwout] := by
  have h1 := rmwOpen_rc h x y hw hm
  simp [single, hr, rmwClose, pixelWord, rmwReads_trace x y h1, rmwOpen_trace h x y hw hm]

/-- What an in-range READ returns (R125). -/
theorem singleValue_in (h : commandBytesDistinct c = true) {x y : Int} (hr : inRange x y = true)
    (hw : u.rc.wphase = false) (hm : u.rc.mode ≠ .rmw) :
    singleValue c x y u = some (pixelWord x y u.rc.dram &&& fieldMask c (fieldIndex x) == 0) := by
  simp [singleValue, hr, rmwWord_open x y (rmwOpen_rc h x y hw hm), pixelWord]

@[simp] theorem single_range (x y : Int) (k : PointKind) :
    (single c x y k u).range = (u.range || !inRange x y) := by
  rw [single]
  split <;> simp_all

end

/-- Points a list of single-point accesses reaches: those on the surface. -/
def onSurface (pts : List (Int × Int)) : List (Int × Int) := pts.filter (fun p => inRange p.1 p.2)

/-- A list of SET or CLEAR accesses on a controller between whole commands: the display memory is painted at the points
on the surface, in order; 13 events each; RANGE is noted iff some point is off the surface (R130, R137, R151). -/
theorem singleAll_spec {c : Config} (h : commandBytesDistinct c = true) {k : PointKind} (hk : k ≠ .read)
    (pts : List (Int × Int)) {u : Run} (hu : u.rc.ready = true) :
    (singleAll c k pts u).rc.dram = (onSurface pts).foldl (paint c k) u.rc.dram ∧
      (singleAll c k pts u).rc.ready = true ∧
      (singleAll c k pts u).trace.length = u.trace.length + 13 * (onSurface pts).length ∧
      (singleAll c k pts u).range = (u.range || pts.any (fun p => !inRange p.1 p.2)) := by
  induction pts generalizing u with
  | nil => simp [singleAll, onSurface, hu]
  | cons p pts ih =>
    have e : singleAll c k (p :: pts) u = singleAll c k pts (single c p.1 p.2 k u) := rfl
    rw [e]
    simp only [Controller.ready, Bool.and_eq_true, beq_iff_eq, Bool.not_eq_true', bne_iff_ne] at hu
    obtain ⟨⟨hp, hw⟩, hm⟩ := hu
    cases hr : inRange p.1 p.2 with
    | true =>
      have h1 := single_rc h hr hk hw hm
      have h2 := single_trace h hr hk hw hm
      have hready : (single c p.1 p.2 k u).rc.ready = true := by
        rw [h1]
        simp [rmwWritten, rmwClosed, rmwOpened, addressed, Controller.ready]
      obtain ⟨i1, i2, i3, i4⟩ := ih hready
      refine ⟨?_, i2, ?_, ?_⟩
      · rw [i1, h1]
        simp [onSurface, hr, paint, rmwWritten]
      · rw [i3, h2]
        simp [onSurface, hr]
        omega
      · rw [i4]
        simp [hr]
    | false =>
      have h1 := single_out (c := c) (u := u) hr k
      have hready : (single c p.1 p.2 k u).rc.ready = true := by
        rw [h1]
        simp [Controller.ready, hp, hw, hm]
      obtain ⟨i1, i2, i3, i4⟩ := ih hready
      refine ⟨?_, i2, ?_, ?_⟩
      · rw [i1, h1]
        simp [onSurface, hr]
      · rw [i3, h1]
        simp [onSurface, hr]
      · rw [i4]
        simp [hr]

/-- The machine's composite offsets are those of R126, in its order. -/
theorem penOffsets_eq_dotOffsets (c : Config) (code : Nat) : penOffsets c code = dotOffsets c code := by
  induction code with
  | zero => simp [penOffsets, penRow, dotOffsets]
  | succ n ih =>
    rw [dotOffsets, ← ih]
    simp [penOffsets, penRow, List.range_succ (n := n + 1)]

/-- The points a composite op touches for each point plotted, in order (R126). -/
def dotsPoints (c : Config) (code : Nat) (pts : List (Int × Int)) : List (Int × Int) :=
  pts.flatMap (fun p => dotPoints c code p.1 p.2)

theorem singleAll_append (c : Config) (k : PointKind) (ps qs : List (Int × Int)) (u : Run) :
    singleAll c k (ps ++ qs) u = singleAll c k qs (singleAll c k ps u) := by
  simp [singleAll, List.foldl_append]

theorem plotOffsets_eq_singleAll (c : Config) (x y : Int) (k : PointKind) (offs : List (Int × Int)) (u : Run) :
    plotOffsets c x y k offs u = singleAll c k (offs.map (fun d => (x + d.1, y + d.2))) u := by
  simp [plotOffsets, singleAll, List.foldl_map]

end Sys2Proof.Machine
end

