-- ==== Sys2Proof/Laws/Blitter.lean ====
section
/-! SUPPORT. The blitter, one lemma per operation: a blit sends the words its source supplies, row by row, and a row
of words lands in consecutive word columns. -/

namespace Sys2Proof.Machine

/-- The words a source supplies for `ks`, and its state after them; none when it fails. -/
def sourceWords {σ : Type} (next : Nat → σ → Option (Word × σ)) : List Nat → σ → List Word × Option σ
  | [], d => ([], some d)
  | k :: ks, d =>
    match next k d with
    | none => ([], none)
    | some (w, d') => (w :: (sourceWords next ks d').1, (sourceWords next ks d').2)

/-- Words sent one after the other. -/
def sendWords (ws : List Word) (u : Run) : Run := ws.foldl (fun u w => busDataWord w u) u

/-- Streaming sends the words the source supplies up to its failure (R181, R194). -/
theorem streamWords_eq {σ : Type} (next : Nat → σ → Option (Word × σ)) (ks : List Nat) (d : σ) (u : Run) :
    streamWords next ks d u = ((sourceWords next ks d).2, sendWords (sourceWords next ks d).1 u) := by
  induction ks generalizing d u with
  | nil => rfl
  | cons k ks ih =>
    rw [streamWords, sourceWords]
    cases next k d with
    | none => rfl
    | some q => exact ih q.2 (busDataWord q.1 u)

/-- The words of each row, and the source's state after the blit; none when it fails, with the failing row's words up
to the failure. -/
def sourceRows {σ : Type} (next : Nat → Nat → σ → Option (Word × σ)) (nw : Nat) :
    List Nat → σ → List (Nat × List Word) × Option σ
  | [], d => ([], some d)
  | r :: rs, d =>
    match sourceWords (next r) (List.range nw) d with
    | (ws, none) => ([(r, ws)], none)
    | (ws, some d') => ((r, ws) :: (sourceRows next nw rs d').1, (sourceRows next nw rs d').2)

/-- One row of a blit: address, write-to-memory command, words (R181). -/
def sendRow (c : Config) (xa y : Int) (u : Run) (row : Nat × List Word) : Run :=
  sendWords row.2 (busCmd c c.cmdRamwr (setAddress c xa (y + row.1) u))

/-- A blit sends the rows its source supplies (R181). -/
theorem blitRows_eq {σ : Type} (c : Config) (xa y : Int) (nw : Nat) (next : Nat → Nat → σ → Option (Word × σ))
    (rs : List Nat) (d : σ) (u : Run) :
    blitRows c xa y nw next rs d u =
      ((sourceRows next nw rs d).2, (sourceRows next nw rs d).1.foldl (sendRow c xa y) u) := by
  induction rs generalizing d u with
  | nil => rfl
  | cons r rs ih =>
    rw [blitRows, sourceRows, streamWords_eq]
    cases h : sourceWords (next r) (List.range nw) d with
    | mk ws o =>
      cases o with
      | none => rfl
      | some d' => exact ih d' _

theorem sourceWords_pure (f : Nat → Nat → Word) (r : Nat) (ks : List Nat) :
    sourceWords (pureSource f r) ks () = (ks.map (f r), some ()) := by
  induction ks with
  | nil => rfl
  | cons k ks ih => simp [sourceWords, pureSource, ih]

theorem sourceRows_pure (f : Nat → Nat → Word) (nw : Nat) (rs : List Nat) :
    sourceRows (pureSource f) nw rs () = (rs.map (fun r => (r, (List.range nw).map (f r))), some ()) := by
  induction rs with
  | nil => rfl
  | cons r rs ih => simp [sourceRows, sourceWords_pure, ih]

/-- A row of words in consecutive word columns from `c0` on. -/
def writeRow (m : Memory) (line : Byte) : Nat → List Word → Memory
  | _, [] => m
  | c0, w :: ws => writeRow (m.writeWord line (BitVec.ofNat 8 c0) w) line (c0 + 1) ws

/-- One whole word sent to a controller in WRITE mode (R63, R64). -/
theorem busDataWord_rc {u : Run} (w : Word) (hm : u.rc.mode = .write) (hp : u.rc.pcmd = .none)
    (hw : u.rc.wphase = false) :
    (busDataWord w u).rc =
      ({ u.rc with dram := u.rc.dram.writeWord u.rc.line u.rc.col w, whi := hiByte w } : Controller).advance := by
  simp [busDataWord, Controller.data, Controller.store, hm, hp, hw]

/-- A row of words that fits the column window lands in consecutive word columns and leaves the controller between
whole words (R63, R64, R183). -/
theorem sendWords_spec (ws : List Word) (u : Run) (c0 : Nat) (hm : u.rc.mode = .write) (hp : u.rc.pcmd = .none)
    (hw : u.rc.wphase = false) (hc : ws ≠ [] → u.rc.col.toNat = c0) (hfit : c0 + ws.length ≤ u.rc.ce.toNat + 1) :
    (sendWords ws u).rc.dram = writeRow u.rc.dram u.rc.line c0 ws ∧ (sendWords ws u).rc.mode = .write ∧
      (sendWords ws u).rc.pcmd = .none ∧ (sendWords ws u).rc.wphase = false ∧
      (sendWords ws u).trace.length = u.trace.length + 2 * ws.length ∧ (sendWords ws u).range = u.range ∧
      (sendWords ws u).rc.draws = u.rc.draws := by
  induction ws generalizing u c0 with
  | nil => simp [sendWords, writeRow, hm, hp, hw]
  | cons w ws ih =>
    have e : sendWords (w :: ws) u = sendWords ws (busDataWord w u) := rfl
    have hcol : u.rc.col.toNat = c0 := hc (by simp)
    have hcol' : u.rc.col = BitVec.ofNat 8 c0 := by
      apply BitVec.eq_of_toNat_eq
      have := u.rc.col.isLt
      simp [hcol]
      omega
    have h1 := busDataWord_rc w hm hp hw
    have hlen : (w :: ws).length = ws.length + 1 := rfl
    rw [hlen] at hfit
    have hadv : (ws ≠ [] → (busDataWord w u).rc.col.toNat = c0 + 1 ∧ (busDataWord w u).rc.line = u.rc.line) := by
      intro hne
      have hpos : 0 < ws.length := List.length_pos_iff.mpr hne
      have hlt : ¬ u.rc.ce.toNat < u.rc.col.toNat + 1 := by omega
      have := u.rc.ce.isLt
      rw [h1]
      simp only [Controller.advance, hlt, if_false]
      simp
      omega
    have hrest : (busDataWord w u).rc.mode = .write ∧ (busDataWord w u).rc.pcmd = .none ∧
        (busDataWord w u).rc.wphase = false ∧ (busDataWord w u).rc.ce = u.rc.ce ∧
        (busDataWord w u).rc.draws = u.rc.draws ∧
        (busDataWord w u).rc.dram = u.rc.dram.writeWord u.rc.line u.rc.col w := by
      rw [h1, advance_eq]
      exact ⟨hm, hp, hw, rfl, rfl, rfl⟩
    obtain ⟨r1, r2, r3, r4, r6, r5⟩ := hrest
    have hih := ih (busDataWord w u) (c0 + 1) r1 r2 r3 (fun hne => (hadv hne).1) (by rw [r4]; omega)
    obtain ⟨i1, i2, i3, i4, i5, i6, i7⟩ := hih
    rw [e]
    refine ⟨?_, i2, i3, i4, ?_, ?_, i7.trans r6⟩
    · rw [i1, r5, writeRow, hcol']
      by_cases hne : ws = []
      · subst hne; rfl
      · rw [(hadv hne).2]
    · rw [i5, busDataWord_trace, hlen]
      simp
      omega
    · rw [i6, busDataWord_range]

/-- A display word after a row of words has been written. -/
theorem readWord_writeRow (ws : List Word) (m : Memory) (line : Byte) (c0 : Nat) (hfit : c0 + ws.length ≤ 256)
    (l : Byte) (k : Byte) :
    (writeRow m line c0 ws).readWord l k =
      if l = line ∧ c0 ≤ k.toNat ∧ k.toNat < c0 + ws.length then ws.getD (k.toNat - c0) 0 else m.readWord l k := by
  induction ws generalizing m c0 with
  | nil =>
    have : ¬ (l = line ∧ c0 ≤ k.toNat ∧ k.toNat < c0 + ([] : List Word).length) := by
      rintro ⟨-, h1, h2⟩
      simp at h2
      omega
    rw [if_neg this]
    rfl
  | cons w ws ih =>
    have hlen : (w :: ws).length = ws.length + 1 := rfl
    rw [hlen] at hfit ⊢
    rw [writeRow, ih _ _ (by omega)]
    by_cases h : l = line ∧ c0 + 1 ≤ k.toNat ∧ k.toNat < c0 + 1 + ws.length
    · have h' : l = line ∧ c0 ≤ k.toNat ∧ k.toNat < c0 + (ws.length + 1) := ⟨h.1, by omega, by omega⟩
      rw [if_pos h, if_pos h', show k.toNat - c0 = (k.toNat - (c0 + 1)) + 1 by omega]
      rfl
    · rw [if_neg h]
      by_cases hk : l = line ∧ k = BitVec.ofNat 8 c0
      · have hkn : k.toNat = c0 := by rw [hk.2]; simp; omega
        have h' : l = line ∧ c0 ≤ k.toNat ∧ k.toNat < c0 + (ws.length + 1) := ⟨hk.1, by omega, by omega⟩
        rw [if_pos h', hk.1, hk.2, readWord_writeWord_same, ← hk.2, hkn]
        simp
      · rw [readWord_writeWord_other _ _ hk]
        have h' : ¬ (l = line ∧ c0 ≤ k.toNat ∧ k.toNat < c0 + (ws.length + 1)) := by
          rintro ⟨h1, h2, h3⟩
          have : k.toNat ≠ c0 := fun e => hk ⟨h1, by apply BitVec.eq_of_toNat_eq; simp [e]; omega⟩
          exact h ⟨h1, by omega, by omega⟩
        rw [if_neg h']

/-- One row of a blit whose words fit the column window (R181, R183). -/
theorem sendRow_spec {c : Config} (h : commandBytesDistinct c = true) (xa y : Int) {u : Run}
    (hu : u.rc.ready = true) (r : Nat) (ws : List Word)
    (hfit : (columnByte xa).toNat + ws.length ≤ c.colEnd.toNat + 1) :
    (sendRow c xa y u (r, ws)).rc.dram =
        writeRow u.rc.dram (byteOfInt (y + r)) (columnByte xa).toNat ws ∧
      (sendRow c xa y u (r, ws)).rc.ready = true ∧
      (sendRow c xa y u (r, ws)).trace.length = u.trace.length + 7 + 2 * ws.length ∧
      (sendRow c xa y u (r, ws)).range = u.range ∧ (sendRow c xa y u (r, ws)).rc.draws = u.rc.draws := by
  simp only [Controller.ready, Bool.and_eq_true, beq_iff_eq, Bool.not_eq_true', bne_iff_ne] at hu
  obtain ⟨⟨hp, hw⟩, hm⟩ := hu
  have ha := setAddress_rc h xa (y + r) hw hm
  have hv : (busCmd c c.cmdRamwr (setAddress c xa (y + r) u)).rc =
      { addressed c xa (y + r) u.rc with mode := .write, wphase := false } := by
    rw [busCmd_rc, ha, command_ramwr (rc := addressed c xa (y + r) u.rc) h hw (by simp [addressed])]
    rfl
  have hs := sendWords_spec ws (busCmd c c.cmdRamwr (setAddress c xa (y + r) u)) (columnByte xa).toNat
    (by rw [hv]) (by rw [hv]; rfl) (by rw [hv]) (fun _ => by rw [hv]; rfl) (by rw [hv]; exact hfit)
  obtain ⟨s1, s2, s3, s4, s5, s6, s7⟩ := hs
  refine ⟨?_, ?_, ?_, ?_, ?_⟩
  · rw [sendRow, s1, hv]
    rfl
  · simp [sendRow, Controller.ready, s2, s3, s4]
  · rw [sendRow, s5]
    simp [setAddress_trace]
  · rw [sendRow, s6]
    rfl
  · rw [sendRow, s7, hv]
    rfl

/-- The rows of a blit written one after the other. -/
def writeRows (m : Memory) (y : Int) (c0 : Nat) (rows : List (Nat × List Word)) : Memory :=
  rows.foldl (fun m row => writeRow m (byteOfInt (y + row.1)) c0 row.2) m

/-- A blit whose rows fit the column window: what it writes, that it leaves the controller between whole commands, how
many events it emits, and that it notes no cause (R181, R183, R254). -/
theorem sendRows_spec {c : Config} (h : commandBytesDistinct c = true) (xa y : Int) (rows : List (Nat × List Word))
    {u : Run} (hu : u.rc.ready = true)
    (hfit : ∀ row ∈ rows, (columnByte xa).toNat + row.2.length ≤ c.colEnd.toNat + 1) :
    (rows.foldl (sendRow c xa y) u).rc.dram = writeRows u.rc.dram y (columnByte xa).toNat rows ∧
      (rows.foldl (sendRow c xa y) u).rc.ready = true ∧
      (rows.foldl (sendRow c xa y) u).trace.length =
        u.trace.length + (rows.map (fun row => 7 + 2 * row.2.length)).sum ∧
      (rows.foldl (sendRow c xa y) u).range = u.range ∧
      (rows.foldl (sendRow c xa y) u).rc.draws = u.rc.draws := by
  induction rows generalizing u with
  | nil => simp [writeRows, hu]
  | cons row rows ih =>
    obtain ⟨r, ws⟩ := row
    obtain ⟨s1, s2, s3, s4, s5⟩ := sendRow_spec h xa y hu r ws (hfit (r, ws) (by simp))
    obtain ⟨i1, i2, i3, i4, i5⟩ := ih s2 (fun row hr => hfit row (by simp [hr]))
    refine ⟨?_, i2, ?_, i4.trans s4, i5.trans s5⟩
    · simp only [List.foldl_cons, i1, s1, writeRows]
    · simp only [List.foldl_cons, i3, s3, List.map_cons, List.sum_cons]
      omega

theorem byteOfInt_toNat {v : Int} (h0 : 0 ≤ v) (h1 : v < 256) : (byteOfInt v).toNat = v.toNat := by
  simp only [byteOfInt, BitVec.toNat_ofInt]
  omega

/-- A display word after the rows `0 .. h-1` of a blit with the same number of words in each row. -/
theorem readWord_writeRows (f : Nat → List Word) (nw : Nat) (hlen : ∀ r, (f r).length = nw) (m : Memory) (y : Int)
    (c0 n : Nat) (hy : 0 ≤ y) (hn : y + n ≤ 256) (hfit : c0 + nw ≤ 256) (l k : Byte) :
    (writeRows m y c0 ((List.range n).map (fun r => (r, f r)))).readWord l k =
      if y ≤ l.toNat ∧ (l.toNat : Int) < y + n ∧ c0 ≤ k.toNat ∧ k.toNat < c0 + nw then
        (f (l.toNat - y.toNat)).getD (k.toNat - c0) 0
      else m.readWord l k := by
  induction n with
  | zero =>
    rw [if_neg (by omega)]
    rfl
  | succ n ih =>
    have e : writeRows m y c0 ((List.range (n + 1)).map (fun r => (r, f r))) =
        writeRow (writeRows m y c0 ((List.range n).map (fun r => (r, f r)))) (byteOfInt (y + n)) c0 (f n) := by
      simp [writeRows, List.range_succ, List.foldl_append]
    have hl : l = byteOfInt (y + n) ↔ (l.toNat : Int) = y + n := by
      have hb := byteOfInt_toNat (v := y + n) (by omega) (by omega)
      constructor
      · intro hh; rw [hh, hb]; omega
      · intro hh; apply BitVec.eq_of_toNat_eq; rw [hb]; omega
    rw [e, readWord_writeRow _ _ _ _ (by rw [hlen]; exact hfit), ih (by omega), hlen]
    by_cases h1 : l = byteOfInt (y + n) ∧ c0 ≤ k.toNat ∧ k.toNat < c0 + nw
    · have h2 := hl.mp h1.1
      rw [if_pos h1, if_pos (by omega), show l.toNat - y.toNat = n by omega]
    · rw [if_neg h1]
      by_cases h2 : y ≤ l.toNat ∧ (l.toNat : Int) < y + n ∧ c0 ≤ k.toNat ∧ k.toNat < c0 + nw
      · rw [if_pos h2, if_pos (by omega)]
      · rw [if_neg h2, if_neg]
        rintro ⟨h3, h4, h5⟩
        by_cases h6 : (l.toNat : Int) = y + n
        · exact h1 ⟨hl.mpr h6, h5⟩
        · exact h2 ⟨h3, by omega, h5⟩

end Sys2Proof.Machine
end

