-- ==== Sys2Proof/Laws/Status.lean ====
section
/-! SUPPORT. The STATUS register: each field operation against each field and against the reserved bits, and what
acceptance, completion and a cause leave. -/

namespace Sys2Proof.Machine

/-- The bit number of a STATUS field (R25). -/
def statusBit : StatusField → Nat
  | .busy => 0
  | .range => 1
  | .illegal => 2
  | .badimg => 3
  | .busyerr => 4

theorem statusMask_eq_twoPow (f : StatusField) : statusMask f = BitVec.twoPow 16 (statusBit f) := by
  cases f <;> rfl

theorem and_twoPow_ne_zero (w : Word) (k : Nat) (hk : k < 16) :
    (w &&& BitVec.twoPow 16 k != 0) = w.getLsbD k := by
  rw [BitVec.and_twoPow]
  by_cases h : w.getLsbD k <;> simp [h]
  intro h0
  have := congrArg (·.getLsbD k) h0
  simp [hk] at this

/-- A STATUS field is one bit of the register. -/
theorem statusGet_eq_bit (f : StatusField) (w : Word) : statusGet f w = w.getLsbD (statusBit f) := by
  unfold statusGet
  rw [statusMask_eq_twoPow, and_twoPow_ne_zero]
  cases f <;> decide

/-- Setting a field changes that field alone. -/
@[simp] theorem statusGet_set (f g : StatusField) (w : Word) :
    statusGet g (statusSet f w) = (decide (f = g) || statusGet g w) := by
  rw [statusGet_eq_bit, statusGet_eq_bit, statusSet, statusMask_eq_twoPow, BitVec.getLsbD_or,
    BitVec.getLsbD_twoPow, Bool.or_comm]
  cases f <;> cases g <;> rfl

/-- Clearing a field changes that field alone. -/
@[simp] theorem statusGet_clear (f g : StatusField) (w : Word) :
    statusGet g (statusClear f w) = (!decide (f = g) && statusGet g w) := by
  rw [statusGet_eq_bit, statusGet_eq_bit, statusClear, statusMask_eq_twoPow, BitVec.getLsbD_and,
    BitVec.getLsbD_not, BitVec.getLsbD_twoPow, Bool.and_comm]
  cases f <;> cases g <;> rfl

/-- No field lies in the reserved bits. -/
theorem statusReserved_mask (f : StatusField) : statusMask f &&& statusReserved = 0 := by
  cases f <;> decide

@[simp] theorem statusSet_reserved (f : StatusField) (w : Word) :
    statusSet f w &&& statusReserved = w &&& statusReserved := by
  have h : ∀ a b c : Word, (a ||| b) &&& c = (a &&& c) ||| (b &&& c) := by
    intro a b c
    ext i
    simp [Bool.and_or_distrib_right]
  rw [statusSet, h, statusReserved_mask]
  simp

theorem statusReserved_not_mask (f : StatusField) : ~~~ statusMask f &&& statusReserved = statusReserved := by
  cases f <;> decide

@[simp] theorem statusClear_reserved (f : StatusField) (w : Word) :
    statusClear f w &&& statusReserved = w &&& statusReserved := by
  rw [statusClear, BitVec.and_assoc, statusReserved_not_mask]

@[simp] theorem statusGet_complete (f : StatusField) (w : Word) :
    statusGet f (statusComplete w) = (!decide (f = .busy) && statusGet f w) := by
  rw [statusComplete, statusGet_clear]
  cases f <;> rfl

@[simp] theorem statusComplete_reserved (w : Word) :
    statusComplete w &&& statusReserved = w &&& statusReserved := by
  rw [statusComplete, statusClear_reserved]

/-- Acceptance clears every cause and sets BUSY (R26). -/
@[simp] theorem statusGet_accept (f : StatusField) (w : Word) :
    statusGet f (statusAccept w) = decide (f = .busy) := by
  cases f <;> simp [statusAccept]

@[simp] theorem statusAccept_reserved (w : Word) : statusAccept w &&& statusReserved = w &&& statusReserved := by
  simp [statusAccept]

/-- Two STATUS values with the same fields and the same reserved bits are equal. -/
theorem status_ext {v w : Word} (hf : ∀ f, statusGet f v = statusGet f w)
    (hr : v &&& statusReserved = w &&& statusReserved) : v = w := by
  apply BitVec.eq_of_getLsbD_eq
  intro i hi
  have hb := fun f => by have := hf f; rwa [statusGet_eq_bit, statusGet_eq_bit] at this
  have hi5 : i < 5 ∨ 5 ≤ i := by omega
  rcases hi5 with h | h
  · have h5 : i = 0 ∨ i = 1 ∨ i = 2 ∨ i = 3 ∨ i = 4 := by omega
    rcases h5 with rfl | rfl | rfl | rfl | rfl
    · exact hb .busy
    · exact hb .range
    · exact hb .illegal
    · exact hb .badimg
    · exact hb .busyerr
  · have hm : ∀ j : Fin 16, 5 ≤ j.val → statusReserved.getLsbD j.val = true := by decide
    have h1 := congrArg (·.getLsbD i) hr
    simp only [BitVec.getLsbD_and, hm ⟨i, hi⟩ h, Bool.and_true] at h1
    exact h1

/-- A command that ends by `finish` ends with a legal STATUS, whether it notes RANGE or not. -/
theorem statusWf_finish {w : Word} (hr : w &&& statusReserved = 0) (hc : noFailure w = true) (noted : Bool) :
    statusWf (statusComplete (if noted then statusSet .range w else w)) = true := by
  simp only [noFailure, Bool.and_eq_true, Bool.not_eq_true'] at hc
  obtain ⟨h2, h3⟩ := hc
  cases noted <;> simp [statusWf, causesExclusive, h2, h3, hr]

/-- A command that fails without having noted RANGE ends with a legal STATUS. -/
theorem statusWf_fail {w : Word} (hr : w &&& statusReserved = 0) (hc : noFailure w = true)
    (hn : statusGet .range w = false) (f : StatusField) : statusWf (statusComplete (statusSet f w)) = true := by
  simp only [noFailure, Bool.and_eq_true, Bool.not_eq_true'] at hc
  obtain ⟨h2, h3⟩ := hc
  cases f <;> simp [statusWf, causesExclusive, hn, h2, h3, hr]

/-- A running command's noted RANGE keeps STATUS legal (R228, R247). -/
theorem statusWf_noted {w : Word} (h : statusWf w = true) (hb : statusGet .busy w = true) :
    statusWf (statusSet .range w) = true := by
  revert h
  simp [statusWf, noFailure, hb]

/-- BUSYERR is no cause of a command: setting it keeps a legal STATUS legal (R228). -/
theorem statusWf_busyerr {w : Word} (h : statusWf w = true) : statusWf (statusSet .busyerr w) = true := by
  revert h
  simp [statusWf, causesExclusive, noFailure]

theorem statusWf_accept {w : Word} (h : statusWf w = true) : statusWf (statusAccept w) = true := by
  simp only [statusWf, Bool.and_eq_true, beq_iff_eq] at h
  simp [statusWf, noFailure, h.1]

end Sys2Proof.Machine
end

