-- ==== Sys2Proof/Laws/Exec.lean ====
section
/-! SUPPORT. What a command can do, said once: it ends in a next state by `finish` or by `fail`, after emitting bus
events, and only the reading commands write RESULT. -/

namespace Sys2Proof.Machine

/-- `t` ends a command that started in `s` with run `u` and RESULT `v`: by `finish`, or by `fail` with one of the
causes a command fails with and no RANGE noted before (R220). -/
def Ends (s : State) (v : Word) (u : Run) (t : State) : Prop :=
  t = (s.setResult v).finish u ∨
    u.range = false ∧ ∃ f, (f = .range ∨ f = .illegal ∨ f = .badimg) ∧ t = (s.setResult v).fail f u

/-- How a command went: it emitted bus events from its start, then ended (R220). -/
structure Completes (s : State) (v : Word) (u : Run) (t : State) : Prop where
  emits : Emits s.cfg s.run u
  ends : Ends s v u t

/-- `t` is where some command started in `s` completes. -/
def Completed (s t : State) : Prop := ∃ v u, Completes s v u t

theorem setResult_self (s : State) : s.setResult s.result = s := rfl

section
variable {s : State} {u : Run}

theorem Completed.finish (s : State) (h : Emits s.cfg s.run u) : Completed s (s.finish u) :=
  ⟨s.result, u, h, .inl rfl⟩

theorem Completed.fail (s : State) {f : StatusField} (hf : f = .range ∨ f = .illegal ∨ f = .badimg)
    (h : Emits s.cfg s.run u) (hr : u.range = false) : Completed s (s.fail f u) :=
  ⟨s.result, u, h, .inr ⟨hr, f, hf, rfl⟩⟩

end

theorem blitChecked_completes {s : State} {x y w h : Int} {body : State} (hb : Completed s body) :
    Completed s (blitChecked s x y w h body) := by
  rw [blitChecked]
  split
  · exact .finish s (.refl _)
  · exact .fail s (.inl rfl) (.refl _) rfl
  · exact hb

theorem blitPure_completes (s : State) (x y w h : Int) (f : Nat → Nat → Word) :
    Completed s (s.finish (blitPure s.cfg x y w h f s.run)) :=
  .finish s (blitPure_emits ..).1

theorem drawShape_completes (s : State) (pen : Word) (pts : List (Int × Int)) :
    Completed s (drawShape s pen pts) := by
  rw [drawShape]
  split
  · exact .finish s (.plotAll _ _ _)
  · exact .fail s (.inr (.inl rfl)) (.refl _) rfl

theorem drawWordPlane_completes (s : State) (p : Nat) (x y w h : Int) :
    Completed s (drawWordPlane s p x y w h) := by
  have hb := blitRows_emits s.cfg (blitColumn x w) y (blitWords w) (fun _ _ d => nextWord s d) (List.range h.toNat)
    (Decoder.start s p) s.run
  rw [drawWordPlane]
  split
  · rename_i e
    rw [e] at hb
    exact .finish s hb.1
  · rename_i e
    rw [e] at hb
    exact .fail s (.inr (.inr rfl)) hb.1 hb.2

/-- Every command ends in a next state, by `finish` or by `fail` (R220, R252). -/
theorem exec_completes (i : Instr) (s : State) : ∃ t, exec i s = .next t ∧ Completed s t := by
  cases i with
  | nop => exact ⟨_, rfl, .finish s (.refl _)⟩
  | setaddr => exact ⟨_, rfl, .finish s (.setAddress _ _ _)⟩
  | point =>
    refine ⟨_, rfl, ?_⟩
    split
    · exact .fail s (.inr (.inl rfl)) (.refl _) rfl
    · exact ⟨_, _, .plot _ _ _ _, .inl rfl⟩
    · exact .finish s (.plot _ _ _ _)
    · exact .finish s (.plot _ _ _ _)
    · exact .finish s (.plot _ _ _ _)
  | readword =>
    refine ⟨_, rfl, ?_⟩
    split
    · exact ⟨_, _, ((Emits.rmwOpen _ _ _).trans (.rmwReads _)).trans (.busCmd _ _), .inl rfl⟩
    · exact ⟨_, s.run, .refl _, .inr ⟨rfl, _, .inl rfl, rfl⟩⟩
  | writeword =>
    refine ⟨_, rfl, ?_⟩
    split
    · exact .finish s (((Emits.setAddress _ _ _).trans (.busCmd _ _)).trans (.busDataWord _ _))
    · exact .fail s (.inl rfl) (.refl _) rfl
  | blank => exact ⟨_, rfl, .finish s (.singleAll _ _ _)⟩
  | circle => exact ⟨_, rfl, drawShape_completes ..⟩
  | rect => exact ⟨_, rfl, drawShape_completes ..⟩
  | triangle => exact ⟨_, rfl, drawShape_completes ..⟩
  | star => exact ⟨_, rfl, drawShape_completes ..⟩
  | bitimage =>
    refine ⟨_, rfl, ?_⟩
    dsimp only
    split
    · exact .fail s (.inr (.inl rfl)) (.refl _) rfl
    · exact blitChecked_completes (blitPure_completes ..)
    · exact blitChecked_completes (blitPure_completes ..)
    · exact blitChecked_completes (blitPure_completes ..)
  | wordimage =>
    refine ⟨_, rfl, ?_⟩
    dsimp only
    split
    · exact .fail s (.inr (.inl rfl)) (.refl _) rfl
    · split
      · exact .fail s (.inr (.inl rfl)) (.refl _) rfl
      · split
        · exact blitChecked_completes (blitPure_completes ..)
        · exact blitChecked_completes (blitPure_completes ..)
        · exact blitChecked_completes (drawWordPlane_completes ..)
  | fillregion =>
    refine ⟨_, rfl, ?_⟩
    dsimp only
    split
    · exact .fail s (.inr (.inl rfl)) (.refl _) rfl
    · exact .fail s (.inr (.inl rfl)) (.refl _) rfl
    · exact blitChecked_completes (blitPure_completes ..)
    · exact blitChecked_completes (blitPure_completes ..)
  | clear => exact ⟨_, rfl, .finish s (fillAll_emits ..).1⟩
  | fillscreen => exact ⟨_, rfl, .finish s (fillAll_emits ..).1⟩

/-- Every accepted CMD word ends in a next state, a reserved one too (R82, R106). -/
theorem runCommand_completes (s : State) : ∃ t, runCommand s = .next t ∧ Completed s t := by
  rw [runCommand]
  split
  · exact exec_completes _ s
  · exact ⟨_, rfl, .fail s (.inr (.inl rfl)) (.refl _) rfl⟩
  · exact ⟨_, rfl, .fail s (.inr (.inl rfl)) (.refl _) rfl⟩

/-- What a completed command leaves in each field of the state. -/
theorem Completes.fields {s t : State} {v : Word} {u : Run} (h : Completes s v u t) :
    t.rc = u.rc ∧ t.trace = u.trace ∧ t.result = v ∧ t.img = s.settle.img ∧ t.racing = [] ∧
      t.races = s.settle.races ∧ s.sameHostSide t ∧
      ∃ w, t.status = statusComplete w ∧
        (w = (if u.range then statusSet .range s.status else s.status) ∨
          u.range = false ∧ ∃ f, (f = .range ∨ f = .illegal ∨ f = .badimg) ∧ w = statusSet f s.status) := by
  rcases h.ends with e | ⟨hr, f, hf, e⟩
  · subst e
    exact ⟨rfl, rfl, rfl, rfl, rfl, rfl, ⟨rfl, rfl, rfl, rfl, rfl, rfl, rfl, rfl, rfl, rfl⟩, _, rfl, .inl rfl⟩
  · subst e
    refine ⟨rfl, rfl, rfl, rfl, rfl, rfl, ⟨rfl, rfl, rfl, rfl, rfl, rfl, rfl, rfl, rfl, rfl⟩, _, rfl,
      .inr ⟨hr, f, hf, ?_⟩⟩
    simp [hr]

end Sys2Proof.Machine
end

