-- ==== Sys2Proof/Laws/Noting.lean ====
section
/-! SUPPORT. The commands that note RANGE and go on: how they end, whatever the host does meanwhile, and that a RANGE
seen early changes nothing of what they do. -/

namespace Sys2Proof.Machine

theorem notesKind_iff (i : Instr) : notesKind i = true ↔ i ∈ notingCommands := by
  cases i <;> decide

/-- A state after host actions that do not end its running command: STATUS, the racing image bytes, the host's last
read and its script may differ. -/
def State.touched (s : State) (w : Word) (racing : List Host.Cell) (hd : Option Word) (host : List HostEvent) : State :=
  { s with status := w, racing := racing, hostData := hd, host := host }

/-- Whatever the host does meanwhile, the command finishes with one run and RESULT, or is refused with ILLEGAL before it
has done anything. -/
def Noting (i : Instr) (s : State) : Prop :=
  (∃ v u, ∀ w ra hd ho, exec i (s.touched w ra hd ho) = .next (((s.touched w ra hd ho).setResult v).finish u)) ∨
    ∀ w ra hd ho, exec i (s.touched w ra hd ho) = .next ((s.touched w ra hd ho).fail .illegal s.run)

theorem drawShape_noting {i : Instr} {s : State} (pen : Word) (pts : List (Int × Int))
    (h : ∀ w ra hd ho, exec i (s.touched w ra hd ho) = .next (drawShape (s.touched w ra hd ho) pen pts)) :
    Noting i s := by
  cases hp : penValid pen with
  | true =>
    refine .inl ⟨s.result, plotAll s.cfg (decodeOp (penOp pen)) pts s.run, fun w ra hd ho => ?_⟩
    rw [h, drawShape, if_pos hp]
    rfl
  | false =>
    refine .inr fun w ra hd ho => ?_
    rw [h, drawShape, if_neg (by simp [hp])]
    rfl

/-- A command that notes RANGE and goes on ends so (R222, R223). -/
theorem exec_noting {i : Instr} (hi : notesKind i = true) (s : State) : Noting i s := by
  cases i with
  | point =>
    cases ho : decodeOp s.a2 with
    | reserved =>
      refine .inr fun w ra hd hs => ?_
      simp only [exec, execPoint, State.touched, ho]
      rfl
    | composite d code =>
      refine .inl ⟨s.result, plot s.cfg (sext16 s.a0) (sext16 s.a1) (.composite d code) s.run, fun w ra hd hs => ?_⟩
      simp only [exec, execPoint, State.touched, ho]
      rfl
    | single k =>
      refine .inl ⟨if k = .read then readResult (singleValue s.cfg (sext16 s.a0) (sext16 s.a1) s.run) else s.result,
        plot s.cfg (sext16 s.a0) (sext16 s.a1) (.single k) s.run, fun w ra hd hs => ?_⟩
      cases k <;> simp only [exec, execPoint, State.touched, ho] <;> rfl
  | blank =>
    refine .inl ⟨s.result, singleAll s.cfg .clear
      (areaPoints (sext16 s.a0) (sext16 s.a1) (sext16 s.a2) (sext16 s.a3)) s.run, fun w ra hd ho => ?_⟩
    simp only [exec, execBlank, State.touched]
    rfl
  | circle =>
    exact drawShape_noting s.a3 (circlePoints (sext16 s.a0) (sext16 s.a1) (sext16 s.a2) (penFill s.a3))
      fun _ _ _ _ => rfl
  | rect =>
    exact drawShape_noting s.a4
      (rectPoints (sext16 s.a0) (sext16 s.a1) (sext16 s.a2) (sext16 s.a3) (penFill s.a4)) fun _ _ _ _ => rfl
  | triangle =>
    exact drawShape_noting s.a4 (trianglePoints (sext16 s.a0) (sext16 s.a1) (sext16 s.a2) (sext16 s.a3) (penFill s.a4)
      (penOrient s.a4)) fun _ _ _ _ => rfl
  | star =>
    exact drawShape_noting s.a4
      (starPoints (sext16 s.a0) (sext16 s.a1) (sext16 s.a2) (sext16 s.a3) (penFill s.a4)) fun _ _ _ _ => rfl
  | _ => simp [notesKind] at hi

/-- A command that notes RANGE finishes with it, whatever the host does meanwhile. -/
theorem notesWith_finishes {i : Instr} {s : State} (h : s.notesWith i = true) :
    ∃ v u, u.range = true ∧
      ∀ w ra hd ho, exec i (s.touched w ra hd ho) = .next (((s.touched w ra hd ho).setResult v).finish u) := by
  have hk : notesKind i = true := by
    rw [State.notesWith] at h
    split at h
    · exact (Bool.and_eq_true_iff.mp h).1
    all_goals simp at h
  have e : ({ s with status := statusAccept s.status } : State) =
    s.touched (statusAccept s.status) s.racing s.hostData s.host := rfl
  rcases exec_noting hk s with ⟨v, u, hu⟩ | hu
  · refine ⟨v, u, ?_, hu⟩
    rw [State.notesWith, e, hu] at h
    cases hr : u.range with
    | true => rfl
    | false => simp [State.touched, hk, hr] at h
  · rw [State.notesWith, e, hu] at h
    simp [State.touched, hk, State.run] at h

/-- Whether the running command notes RANGE does not depend on what the host does meanwhile. -/
theorem notesRange_touched (s : State) (w : Word) (ra : List Host.Cell) (hd : Option Word) (ho : List HostEvent) :
    (s.touched w ra hd ho).notesRange = s.notesRange := by
  have hf : (s.touched w ra hd ho).fetch = s.fetch := rfl
  simp only [State.notesRange, hf]
  split
  · rename_i i _
    cases hk : notesKind i with
    | false =>
      simp only [State.notesWith]
      split <;> split <;> simp [hk]
    | true =>
      have e : ∀ v : State, ({ v with status := statusAccept v.status } : State) =
        v.touched (statusAccept v.status) v.racing v.hostData v.host := fun _ => rfl
      have e2 : (s.touched w ra hd ho).touched (statusAccept (s.touched w ra hd ho).status)
        (s.touched w ra hd ho).racing (s.touched w ra hd ho).hostData (s.touched w ra hd ho).host =
          s.touched (statusAccept w) ra hd ho := rfl
      simp only [State.notesWith, e, e2]
      rcases exec_noting hk s with ⟨v, u, hu⟩ | hu
      · rw [hu, hu]
        cases hr : u.range <;> simp [State.touched, hk, hr]
      · rw [hu, hu]
        simp [State.touched, hk, State.run]
  · rfl
  · rfl

/-- Noting RANGE early changes nothing of what the running command does (R15, R247). -/
theorem runCommand_noteSoFar (s : State) (noted : Bool) : runCommand (s.noteSoFar noted) = runCommand s := by
  rw [State.noteSoFar]
  split
  · rename_i h
    simp only [Bool.and_eq_true, State.notesRange] at h
    have hf : ({ s with status := statusSet .range s.status } : State).fetch = s.fetch := rfl
    rw [runCommand, runCommand, hf]
    split at h
    · rename_i i hd
      obtain ⟨v, u, hr, hu⟩ := notesWith_finishes h.2
      have h1 := hu (statusSet .range s.status) s.racing s.hostData s.host
      have h2 := hu s.status s.racing s.hostData s.host
      show exec i (s.touched (statusSet .range s.status) s.racing s.hostData s.host) =
        exec i (s.touched s.status s.racing s.hostData s.host)
      rw [h1, h2]
      simp [State.finish, State.commit, State.setResult, State.complete, State.settle, State.touched, hr, statusSet,
        BitVec.or_assoc]
    all_goals simp at h
  · rfl

/-- What an action finds when it lands: the state, or the state with the RANGE the running command notes. -/
theorem noteSoFar_cases (s : State) (noted : Bool) :
    s.noteSoFar noted = s ∨ (s.busy = true ∧ s.notesRange = true ∧
      s.noteSoFar noted = { s with status := statusSet .range s.status }) := by
  rw [State.noteSoFar]
  split
  · rename_i h
    simp only [Bool.and_eq_true] at h
    exact .inr ⟨h.1.2, h.2, rfl⟩
  · exact .inl rfl

end Sys2Proof.Machine
end

