-- ==== Sys2Proof/Laws/PerInstr.lean ====
section
/-! SUPPORT. Per command: its CMD word is unreserved, decodes to it, and is its row of the opcode table; it reads at
most the five operand registers A0 to A4 (R81, R83, R106, R109). -/

namespace Sys2Proof.Laws.CmdWord

/-- What holds of each command as syntax. -/
def Statement (i : Instr) : Prop :=
  decode (encode i) = .command i ∧ cmdWordWellFormed (encode i) = true ∧
    decodeTableWord 16 (encode i).toNat = some i ∧ i ∈ Instr.all ∧ i.operands.length ≤ 5

theorem nop : Statement .nop := by unfold Statement; decide
theorem setaddr : Statement .setaddr := by unfold Statement; decide
theorem point : Statement .point := by unfold Statement; decide
theorem readword : Statement .readword := by unfold Statement; decide
theorem writeword : Statement .writeword := by unfold Statement; decide
theorem blank : Statement .blank := by unfold Statement; decide
theorem circle : Statement .circle := by unfold Statement; decide
theorem rect : Statement .rect := by unfold Statement; decide
theorem triangle : Statement .triangle := by unfold Statement; decide
theorem star : Statement .star := by unfold Statement; decide
theorem bitimage : Statement .bitimage := by unfold Statement; decide
theorem wordimage : Statement .wordimage := by unfold Statement; decide
theorem fillregion : Statement .fillregion := by unfold Statement; decide
theorem clear : Statement .clear := by unfold Statement; decide
theorem fillscreen : Statement .fillscreen := by unfold Statement; decide

end Sys2Proof.Laws.CmdWord
end

