-- ==== Sys2Proof/Laws/Raster.lean ====
section
/-! SUPPORT. Shapes are lists of single-point accesses, and the circle loop never runs out of fuel. -/

namespace Sys2Proof.Machine

/-- A shape drawn with a composite op is a list of single-point accesses (R150). -/
theorem plotAll_eq_singleAll (c : Config) (d : Bool) (code : Nat) (pts : List (Int × Int)) (u : Run) :
    plotAll c (.composite d code) pts u = singleAll c (compositeKind d) (dotsPoints c code pts) u := by
  induction pts generalizing u with
  | nil => rfl
  | cons p pts ih =>
    have e : plotAll c (.composite d code) (p :: pts) u =
        plotAll c (.composite d code) pts (plot c p.1 p.2 (.composite d code) u) := rfl
    have e' : dotsPoints c code (p :: pts) =
        (penOffsets c code).map (fun d => (p.1 + d.1, p.2 + d.2)) ++ dotsPoints c code pts := by
      simp [dotsPoints, dotPoints, penOffsets_eq_dotOffsets]
    rw [e, ih, e', singleAll_append, plot, plotOffsets_eq_singleAll]

/-- The point op of a valid pen is DRAW(SIZE) or ERASE(SIZE) (R88). -/
theorem decodeOp_penOp {pen : Word} (h : penValid pen = true) :
    decodeOp (penOp pen) = .composite (penDraw pen) (penSize pen) := by
  have hall : ∀ n : Fin 128, penValid (BitVec.ofNat 16 n.val) = true →
      decodeOp (penOp (BitVec.ofNat 16 n.val)) =
        .composite (penDraw (BitVec.ofNat 16 n.val)) (penSize (BitVec.ofNat 16 n.val)) := by decide
  have hlt : pen.toNat < 128 := by
    simp only [penValid, Bool.and_eq_true, beq_iff_eq] at h
    have h9 := congrArg BitVec.toNat h.1
    rw [BitVec.extractLsb'_toNat, Nat.shiftRight_eq_div_pow, show BitVec.toNat (0 : BitVec 9) = 0 from rfl] at h9
    have := pen.isLt
    omega
  have e : BitVec.ofNat 16 pen.toNat = pen := by simp
  have := hall ⟨pen.toNat, hlt⟩
  simp only [e] at this
  exact this h

/-- With enough fuel for `y - x + 1` iterations, more fuel changes nothing (R252). -/
theorem circleLoop_fuel (cx cy : Int) (fill : Bool) (n m : Nat) (x y d : Int) (hn : y - x + 1 ≤ n) (hm : y - x + 1 ≤ m) :
    circleLoop cx cy fill n x y d = circleLoop cx cy fill m x y d := by
  induction n generalizing m x y d with
  | zero =>
    have : ¬ x ≤ y := by omega
    cases m <;> simp [circleLoop, this]
  | succ n ih =>
    cases m with
    | zero =>
      have : ¬ x ≤ y := by omega
      simp [circleLoop, this]
    | succ m =>
      simp only [circleLoop]
      split
      · rw [ih m (x + 1) y _ (by omega) (by omega), ih m (x + 1) (y - 1) _ (by omega) (by omega)]
      · rfl

end Sys2Proof.Machine
end

