-- ==== Sys2Proof/Laws/Step.lean ====
section
/-! SUPPORT. What one step can do, said once: the accepted command runs, the idle block stays, or one host action
happens; and what a host action can do. -/

namespace Sys2Proof.Machine

/-- A step that answers a next state is one of these. -/
theorem step_cases {s t : State} (h : step s = .next t) :
    (s.busy = true ∧ s.hostFirst = false ∧ runCommand s = .next t ∧ Completed s t) ∨
    (s.busy = false ∧ s.host = [] ∧ t = s) ∨
    (∃ e es, s.host = e :: es ∧ (s.busy = true → e.early = true) ∧
      hostAct e.act (State.noteSoFar e.noted { s with host := es }) = .next t) := by
  rw [step] at h
  split at h
  · rename_i hb
    simp only [Bool.and_eq_true, Bool.not_eq_true'] at hb
    obtain ⟨t', ht', hc⟩ := runCommand_completes s
    rw [h] at ht'
    cases ht'
    exact .inl ⟨hb.1, hb.2, h, hc⟩
  · rename_i hb
    simp only [Bool.and_eq_true, Bool.not_eq_true', not_and, Bool.not_eq_false] at hb
    rw [hostStep] at h
    cases hh : s.host with
    | nil =>
      rw [hh] at h
      have hf : s.hostFirst = false := by simp [State.hostFirst, hh]
      cases hbusy : s.busy with
      | false => exact .inr (.inl ⟨rfl, rfl, by cases h; rfl⟩)
      | true => exact absurd (hb hbusy) (by simp [hf])
    | cons e es =>
      rw [hh] at h
      refine .inr (.inr ⟨e, es, rfl, fun hbusy => ?_, h⟩)
      have := hb hbusy
      simpa [State.hostFirst, hh] using this

/-- A running command answers a next state and nothing else. -/
theorem runCommand_next {s t : State} (h : runCommand s = .next t) : Completed s t := by
  obtain ⟨t', ht', hc⟩ := runCommand_completes s
  rw [h] at ht'
  cases ht'
  exact hc

/-- A reset that lands in a running command leaves the controller after a prefix of the command's trace (R42). -/
theorem resetRunning_cases (s : State) (n : Nat) :
    ∃ t, runCommand { s with trace := [] } = .next t ∧
      s.resetRunning n = .next (s.lgbReset (s.rc.replay s.cfg (t.trace.take n)) (t.trace.take n)) := by
  obtain ⟨t, ht, -⟩ := runCommand_completes { s with trace := [] }
  exact ⟨t, ht, by rw [State.resetRunning, ht]⟩

/-- Host register writes touch only CMD, A0 to A5, STATUS and, at acceptance, the trace. -/
theorem hostWrite_cases (s : State) (off : BitVec 4) (v : Word) :
    (s.busy = true ∧ (s.hostWrite off v = s.busyError ∨ s.hostWrite off v = s)) ∨
    (s.busy = false ∧ (s.hostWrite off v = s.accept v ∨
      ∃ a0 a1 a2 a3 a4 a5, s.hostWrite off v = { s with a0, a1, a2, a3, a4, a5 })) := by
  rw [State.hostWrite]
  cases hb : s.busy with
  | true =>
    refine .inl ⟨rfl, ?_⟩
    simp only [if_true, State.busyWrite]
    split <;> simp
  | false =>
    refine .inr ⟨rfl, ?_⟩
    simp only [Bool.false_eq_true, if_false, State.idleWrite]
    split
    · exact .inl rfl
    all_goals exact .inr ⟨_, _, _, _, _, _, rfl⟩

/-- A completed command keeps both memories canonical (R53, R58). -/
theorem Completed.memoriesWf {s t : State} (h : Completed s t) (hs : s.memoriesWf = true) : t.memoriesWf = true := by
  obtain ⟨v, u, hc⟩ := h
  obtain ⟨h1, -, -, h4, -, -, h7, -⟩ := hc.fields
  obtain ⟨⟨evs, -, e2, -⟩, -⟩ := hc.emits
  simp only [State.memoriesWf, Bool.and_eq_true] at hs ⊢
  refine ⟨?_, ?_⟩
  · rw [h1, e2]
    exact wf_replay s.cfg evs hs.1
  · rw [h4, h7.1]
    exact wf_writeAll (imgSize_pos _) _ hs.2

end Sys2Proof.Machine
end

