-- ==== Sys2Proof/Laws/Surface.lean ====
section
/-! SUPPORT. What commands do to the display: the machine's coordinate arithmetic against the claims' own, one painted
point bit by bit, and what an operation that respects the surface and the controller model leaves (R49, R51, R68). -/

namespace Sys2Proof.Machine

/-! ### Coordinates -/

theorem inRange_iff {x y : Int} : inRange x y = true ↔ onScreen x y := by
  show (decide (0 ≤ x) && decide (x < 160) && decide (0 ≤ y) && decide (y < 160)) = true ↔ _
  simp [and_assoc]

theorem byteOfInt_lineByte (y : Int) : byteOfInt y = lineByte y := rfl

theorem columnByte_toNat {v : Int} (h0 : 0 ≤ v) (h1 : v < 256) : (columnByte v).toNat = (v / 3).toNat := by
  simp only [columnByte, div3, byteOfInt_toNat h0 h1, BitVec.toNat_ofNat]
  omega

theorem columnByte_wordByte {x : Int} (h0 : 0 ≤ x) (h1 : x < 160) : columnByte (159 - x) = wordByte x := by
  apply BitVec.eq_of_toNat_eq
  rw [columnByte_toNat (by omega) (by omega)]
  simp only [wordByte, BitVec.toNat_ofInt]
  omega

theorem wordByte_toNat {x : Int} (h0 : 0 ≤ x) (h1 : x < 160) : ((wordByte x).toNat : Int) = (159 - x) / 3 := by
  simp only [wordByte, BitVec.toNat_ofInt]
  omega

theorem lineByte_toNat {y : Int} (h0 : 0 ≤ y) (h1 : y < 160) : ((lineByte y).toNat : Int) = y := by
  simp only [lineByte, BitVec.toNat_ofInt]
  omega

theorem fieldIndex_eq {x : Int} (h : x < 160) : fieldIndex x = ((159 - x) % 3).toNat := by
  simp only [fieldIndex, mod3, div3]
  omega

theorem columnMask_eq (c : Config) {x : Int} (h : x < 160) : fieldMask c (fieldIndex x) = columnMask c x := by
  rw [columnMask, fieldIndex_eq h]

theorem pixelWord_eq {x y : Int} (h : onScreen x y) (m : Memory) :
    pixelWord x y m = m.readWord (lineByte y) (wordByte x) := by
  rw [pixelWord, byteOfInt_lineByte, columnByte_wordByte h.1 h.2.1]

/-- Two logical pixels in one display word are on one line and in one word column (R52). -/
theorem line_word_inj {x y x' y' : Int} (h : onScreen x y) (h' : onScreen x' y') :
    (lineByte y = lineByte y' ∧ wordByte x = wordByte x') ↔ (y = y' ∧ (159 - x) / 3 = (159 - x') / 3) := by
  have e1 := lineByte_toNat h.2.2.1 h.2.2.2
  have e2 := lineByte_toNat h'.2.2.1 h'.2.2.2
  have e3 := wordByte_toNat h.1 h.2.1
  have e4 := wordByte_toNat h'.1 h'.2.1
  constructor
  · rintro ⟨h1, h2⟩
    rw [h1] at e1
    rw [h2] at e3
    omega
  · rintro ⟨h1, h2⟩
    exact ⟨BitVec.eq_of_toNat_eq (by omega), BitVec.eq_of_toNat_eq (by omega)⟩

/-- Words off the surface hold no logical pixel. -/
theorem onScreen_word {x y : Int} (h : onScreen x y) {l k : Byte} (hlk : 160 ≤ l.toNat ∨ 54 ≤ k.toNat) :
    ¬ (l = lineByte y ∧ k = wordByte x) := by
  rintro ⟨rfl, rfl⟩
  have e1 := lineByte_toNat h.2.2.1 h.2.2.2
  have e3 := wordByte_toNat h.1 h.2.1
  omega

/-- Shifting a field down loses nothing: its gray level is 0 exactly when its bits are (R50). -/
theorem shifted_field_zero (w m : Word) : (((w &&& m) >>> m.ctz.toNat).toNat == 0) = (w &&& m == 0) := by
  rw [Bool.eq_iff_iff, beq_iff_eq, beq_iff_eq]
  constructor
  · intro h
    have h0 : (w &&& m) >>> m.ctz.toNat = 0#16 := by apply BitVec.eq_of_toNat_eq; simpa using h
    apply BitVec.eq_of_getLsbD_eq
    intro i hi
    by_cases hc : i < m.ctz.toNat
    · simp [BitVec.getLsbD_false_of_lt_ctz hc]
    · have := congrArg (fun v => v.getLsbD (i - m.ctz.toNat)) h0
      simp only [BitVec.getLsbD_ushiftRight] at this
      rw [show m.ctz.toNat + (i - m.ctz.toNat) = i by omega] at this
      simpa using this
  · intro h
    rw [h]
    simp

/-- A logical pixel is on when its field is 0 (R50). -/
theorem pixel_eq (s : State) {x y : Int} (h : onScreen x y) :
    s.pixel x.toNat y.toNat = (s.wordOf x y &&& columnMask s.cfg x == 0) := by
  have e1 : BitVec.ofNat 8 y.toNat = lineByte y := by
    apply BitVec.eq_of_toNat_eq
    simp only [lineByte, BitVec.toNat_ofInt, BitVec.toNat_ofNat]
    omega
  have e2 : BitVec.ofNat 8 ((159 - x.toNat) / 3) = wordByte x := by
    apply BitVec.eq_of_toNat_eq
    simp only [wordByte, BitVec.toNat_ofInt, BitVec.toNat_ofNat]
    omega
  have e3 : (159 - x.toNat) % 3 = ((159 - x) % 3).toNat := by omega
  simp only [State.pixel, Controller.pixelOn, Controller.pixelLevel, fieldShift, e1, e2, e3]
  exact shifted_field_zero _ _

/-! ### One painted point, bit by bit -/

/-- The bits of an edited word (R50, R121). -/
theorem editField_bit (c : Config) {k : PointKind} (hk : k ≠ .read) (f : Nat) (w : Word) (i : Nat) (hi : i < 16) :
    (editField c k f w).getLsbD i =
      if (fieldMask c f).getLsbD i then decide (k = .clear) else w.getLsbD i := by
  cases k with
  | read => exact absurd rfl hk
  | set => cases hm : (fieldMask c f).getLsbD i <;> simp only [editField, BitVec.getLsbD_and, BitVec.getLsbD_not, hm, hi] <;> simp
  | clear => cases hm : (fieldMask c f).getLsbD i <;> simp [editField, hm]

/-- The bits of the display after one point on the surface is painted (R123). -/
theorem paint_bit (c : Config) {k : PointKind} (hk : k ≠ .read) {p : Int × Int} (hp : onScreen p.1 p.2) (m : Memory)
    (l col : Byte) (i : Nat) (hi : i < 16) :
    (pointTouches c l col i p.1 p.2 → ((paint c k m p).readWord l col).getLsbD i = decide (k = .clear)) ∧
      (¬ pointTouches c l col i p.1 p.2 →
        ((paint c k m p).readWord l col).getLsbD i = (m.readWord l col).getLsbD i) := by
  have e1 := lineByte_toNat hp.2.2.1 hp.2.2.2
  have e2 := wordByte_toNat hp.1 hp.2.1
  have hp' : paint c k m p = m.writeWord (lineByte p.2) (wordByte p.1)
      (editField c k (fieldIndex p.1) (m.readWord (lineByte p.2) (wordByte p.1))) := by
    rw [paint, pixelWord_eq hp, byteOfInt_lineByte, columnByte_wordByte hp.1 hp.2.1]
  have ht : pointTouches c l col i p.1 p.2 ↔
      (l = lineByte p.2 ∧ col = wordByte p.1) ∧ (fieldMask c (fieldIndex p.1)).getLsbD i = true := by
    rw [fieldIndex_eq hp.2.1]
    constructor
    · rintro ⟨-, -, -, -, h1, h2, h3⟩
      exact ⟨⟨BitVec.eq_of_toNat_eq (by omega), BitVec.eq_of_toNat_eq (by omega)⟩, h3⟩
    · rintro ⟨⟨rfl, rfl⟩, h3⟩
      exact ⟨hp.1, hp.2.1, hp.2.2.1, hp.2.2.2, by omega, by omega, h3⟩
  rw [ht, hp']
  by_cases hw : l = lineByte p.2 ∧ col = wordByte p.1
  · obtain ⟨rfl, rfl⟩ := hw
    rw [readWord_writeWord_same, editField_bit c hk _ _ i hi]
    constructor <;> intro h <;> simp_all
  · rw [readWord_writeWord_other _ _ hw]
    exact ⟨fun h => absurd h.1 hw, fun _ => rfl⟩

/-- The bits of the display after a list of points is painted: those some point on the surface touches (R123, R126). -/
theorem paintAll_bit (c : Config) {k : PointKind} (hk : k ≠ .read) (pts : List (Int × Int)) (m : Memory)
    (l col : Byte) (i : Nat) (hi : i < 16) :
    ((∃ p ∈ pts, pointTouches c l col i p.1 p.2) →
        (((onSurface pts).foldl (paint c k) m).readWord l col).getLsbD i = decide (k = .clear)) ∧
      ((¬ ∃ p ∈ pts, pointTouches c l col i p.1 p.2) →
        (((onSurface pts).foldl (paint c k) m).readWord l col).getLsbD i = (m.readWord l col).getLsbD i) := by
  induction pts generalizing m with
  | nil => exact ⟨fun h => by simp at h, fun _ => rfl⟩
  | cons p pts ih =>
    by_cases hp : inRange p.1 p.2 = true
    · have e : onSurface (p :: pts) = p :: onSurface pts := by simp [onSurface, hp]
      rw [e, List.foldl_cons]
      have h1 := paint_bit c hk (inRange_iff.mp hp) m l col i hi
      have h2 := ih (paint c k m p)
      by_cases ht : ∃ q ∈ pts, pointTouches c l col i q.1 q.2
      · refine ⟨fun _ => h2.1 ht, fun h => absurd ?_ h⟩
        obtain ⟨q, hq, h⟩ := ht
        exact ⟨q, by simp [hq], h⟩
      · rw [h2.2 ht]
        refine ⟨fun h => h1.1 ?_, fun h => h1.2 fun h' => h ⟨p, by simp, h'⟩⟩
        obtain ⟨q, hq, h⟩ := h
        rcases List.mem_cons.mp hq with rfl | hq
        · exact h
        · exact absurd ⟨q, hq, h⟩ ht
    · have e : onSurface (p :: pts) = onSurface pts := by simp [onSurface, hp]
      rw [e]
      have hn : ¬ pointTouches c l col i p.1 p.2 := fun h =>
        hp (inRange_iff.mpr ⟨h.1, h.2.1, h.2.2.1, h.2.2.2.1⟩)
      have h2 := ih m
      refine ⟨fun h => h2.1 ?_, fun h => h2.2 fun ⟨q, hq, h'⟩ => h ⟨q, by simp [hq], h'⟩⟩
      obtain ⟨q, hq, h⟩ := h
      rcases List.mem_cons.mp hq with rfl | hq
      · exact absurd h hn
      · exact ⟨q, hq, h⟩

/-- Painted points touch no word off the surface (R51). -/
theorem paintAll_off (c : Config) (k : PointKind) (pts : List (Int × Int)) (m : Memory) {l col : Byte}
    (h : 160 ≤ l.toNat ∨ 54 ≤ col.toNat) :
    ((onSurface pts).foldl (paint c k) m).readWord l col = m.readWord l col := by
  induction pts generalizing m with
  | nil => rfl
  | cons p pts ih =>
    by_cases hp : inRange p.1 p.2 = true
    · have e : onSurface (p :: pts) = p :: onSurface pts := by simp [onSurface, hp]
      have hs := inRange_iff.mp hp
      rw [e, List.foldl_cons, ih, paint, byteOfInt_lineByte, columnByte_wordByte hs.1 hs.2.1,
        readWord_writeWord_other _ _ (onScreen_word hs h)]
    · have e : onSurface (p :: pts) = onSurface pts := by simp [onSurface, hp]
      rw [e, ih]

/-! ### Operations that respect the controller model -/

theorem ready_iff {rc : Controller} : rc.ready = true ↔ rc.pcmd = .none ∧ rc.wphase = false ∧ rc.mode ≠ .rmw := by
  simp [Controller.ready, and_assoc]

/-- `v` comes from `u` by bus events the controller model specifies. -/
def Specified (c : Config) (u v : Run) : Prop :=
  ∃ evs, v.trace = u.trace ++ evs ∧ v.rc = u.rc.replay c evs ∧ u.rc.allSpecified c evs = true

namespace Specified
variable {c : Config} {u v w : Run}

theorem refl (u : Run) : Specified c u u := ⟨[], by simp, rfl, rfl⟩

theorem trans (h : Specified c u v) (h' : Specified c v w) : Specified c u w := by
  obtain ⟨es, h1, h2, h3⟩ := h
  obtain ⟨fs, h4, h5, h6⟩ := h'
  exact ⟨es ++ fs, by rw [h4, h1, List.append_assoc], by rw [h5, h2, replay_append],
    by rw [allSpecified_append, h3, ← h2, h6]; rfl⟩

theorem busCmd {b : Byte} (h : u.rc.specified c (.cmd b) = true) : Specified c u (busCmd c b u) :=
  ⟨[.cmd b], rfl, rfl, by simp [Controller.allSpecified, BusEvent.op, h]⟩

theorem busData {b : Byte} (h : u.rc.specified c (.data b) = true) : Specified c u (busData b u) :=
  ⟨[.data b], rfl, rfl, by simp [Controller.allSpecified, BusEvent.op, h]⟩

theorem busRead (h : u.rc.specified c .read = true) : Specified c u (busRead u) :=
  ⟨[.read u.rc.readValue], rfl, rfl, by simp [Controller.allSpecified, BusEvent.op, h]⟩

theorem setAddress (h : commandBytesDistinct c = true) (hu : u.rc.ready = true) (xa y : Int) :
    Specified c u (setAddress c xa y u) := by
  obtain ⟨-, hw, hm⟩ := ready_iff.mp hu
  refine ⟨_, setAddress_trace xa y, rfl, ?_⟩
  have e : ∀ rc : Controller, rc.wphase = false → rc.mode ≠ .rmw →
      rc.command c c.cmdCaset = { rc with mode := .idle, pcmd := .caset, pidx := false } :=
    fun rc => command_caset h
  simp [Controller.allSpecified, Controller.specified, Controller.apply, BusEvent.op, command_laset hw hm,
    Controller.data, e, hw, hm]

/-- The write-to-memory command after SetAddress, and the words of the row after it. -/
theorem sendWords (ws : List Word) (hm : u.rc.mode = .write) (hp : u.rc.pcmd = .none) (hw : u.rc.wphase = false) :
    Specified c u (sendWords ws u) := by
  induction ws generalizing u with
  | nil => exact refl u
  | cons w ws ih =>
    have h1 := busDataWord_rc w hm hp hw
    have hd : Specified c u (busDataWord w u) := by
      refine (busData (b := hiByte w) (by simp [Controller.specified, hm])).trans (busData ?_)
      simp [Controller.specified, Controller.data, hp, hm, Controller.store, hw]
    refine hd.trans (ih ?_ ?_ ?_)
    · rw [h1, advance_eq]; exact hm
    · rw [h1, advance_eq]; exact hp
    · rw [h1, advance_eq]; exact hw

theorem sendRow (h : commandBytesDistinct c = true) (hu : u.rc.ready = true) (xa y : Int) (row : Nat × List Word) :
    Specified c u (sendRow c xa y u row) := by
  obtain ⟨-, hw, hm⟩ := ready_iff.mp hu
  have ha := setAddress_rc h xa (y + row.1) hw hm
  have hv : (Machine.busCmd c c.cmdRamwr (Machine.setAddress c xa (y + row.1) u)).rc =
      { addressed c xa (y + row.1) u.rc with mode := .write, wphase := false } := by
    rw [busCmd_rc, ha, command_ramwr (rc := addressed c xa (y + row.1) u.rc) h hw (by simp [addressed])]
    rfl
  refine ((setAddress h hu xa (y + row.1)).trans (busCmd ?_)).trans (sendWords row.2 ?_ ?_ ?_)
  · rw [ha]; simp [Controller.specified, addressed, hw]
  · rw [hv]
  · rw [hv]; rfl
  · rw [hv]

/-- An RMW cycle: its opening, its reads, its end (R121). -/
theorem rmwOpen (h : commandBytesDistinct c = true) (hu : u.rc.ready = true) (x y : Int) :
    Specified c u (rmwOpen c x y u) := by
  obtain ⟨-, hw, hm⟩ := ready_iff.mp hu
  have ha := setAddress_rc h (159 - x) y hw hm
  refine ((setAddress h hu (159 - x) y).trans (busCmd ?_)).trans (busRead ?_)
  · rw [ha]; simp [Controller.specified, addressed, hw]
  · rw [busCmd_rc, ha, command_rmwin (rc := addressed c (159 - x) y u.rc) h hw (by simp [addressed])]
    simp [Controller.specified]

theorem rmwReads {x y : Int} {rc : Controller} (hu : u.rc = rmwOpened c x y rc) : Specified c u (rmwReads u) := by
  refine (busRead ?_).trans (busRead ?_)
  · rw [hu]; simp [Controller.specified, rmwOpened]
  · rw [busRead_rc, hu]; simp [Controller.specified, rmwOpened, Controller.afterRead]

theorem rmwOut {x y : Int} {rc : Controller} (hu : u.rc = rmwOpened c x y rc) :
    Specified c u (Machine.busCmd c c.cmdRmwout u) :=
  busCmd (by rw [hu]; simp [Controller.specified, rmwOpened])

theorem rmwWrite {x y : Int} {rc : Controller} (w : Word)
    (hu : u.rc = rmwOpened c x y rc) : Specified c u (Machine.busCmd c c.cmdRmwout (busDataWord w u)) := by
  refine ((busData (b := hiByte w) ?_).trans (busData ?_)).trans (busCmd ?_)
  · rw [hu]; simp [Controller.specified, rmwOpened]
  · rw [busData_rc, hu]; simp [Controller.specified, rmwOpened, Controller.data, Controller.store, addressed]
  · have e : (Machine.busData (loByte w) (Machine.busData (hiByte w) u)).rc.wphase = false := by
      rw [busData_rc, busData_rc, hu]
      simp [rmwOpened, Controller.data, Controller.store, addressed]
      rw [advance_eq]
    simp only [Controller.specified, e]
    simp

theorem single (h : commandBytesDistinct c = true) (hu : u.rc.ready = true) (x y : Int) (k : PointKind) :
    Specified c u (single c x y k u) := by
  obtain ⟨-, hw, hm⟩ := ready_iff.mp hu
  have h1 := rmwOpen_rc h x y hw hm
  have h2 := rmwReads_rc x y h1
  rw [Machine.single]
  split
  · refine ((rmwOpen h hu x y).trans (rmwReads h1)).trans ?_
    cases k with
    | set => exact rmwWrite _ h2
    | clear => exact rmwWrite _ h2
    | read => exact rmwOut h2
  · exact ⟨[], by simp, rfl, rfl⟩

end Specified

/-- A single-point access leaves the controller between whole commands. -/
theorem single_ready {c : Config} (h : commandBytesDistinct c = true) {u : Run} (hu : u.rc.ready = true) (x y : Int)
    (k : PointKind) : (single c x y k u).rc.ready = true := by
  obtain ⟨hp, hw, hm⟩ := ready_iff.mp hu
  cases hr : inRange x y with
  | false => rw [single_out hr]; simpa using hu
  | true =>
    by_cases hk : k = .read
    · subst hk
      rw [single_read_rc h hr hw hm]
      simp [rmwClosed, rmwOpened, addressed, Controller.ready]
    · rw [single_rc h hr hk hw hm]
      simp [rmwWritten, rmwClosed, rmwOpened, addressed, Controller.ready]

/-- A list of single-point accesses emits only specified sequences. -/
theorem singleAll_specified {c : Config} (h : commandBytesDistinct c = true) (k : PointKind) (pts : List (Int × Int))
    {u : Run} (hu : u.rc.ready = true) : Specified c u (singleAll c k pts u) := by
  induction pts generalizing u with
  | nil => exact .refl u
  | cons p pts ih => exact (Specified.single h hu p.1 p.2 k).trans (ih (single_ready h hu p.1 p.2 k))

/-- A row leaves the controller between whole commands, whatever its length. -/
theorem sendRow_ready {c : Config} (h : commandBytesDistinct c = true) {u : Run} (hu : u.rc.ready = true) (xa y : Int)
    (row : Nat × List Word) : (sendRow c xa y u row).rc.ready = true := by
  obtain ⟨-, hw, hm⟩ := ready_iff.mp hu
  have ha := setAddress_rc h xa (y + row.1) hw hm
  have hv : (busCmd c c.cmdRamwr (setAddress c xa (y + row.1) u)).rc =
      { addressed c xa (y + row.1) u.rc with mode := .write, wphase := false } := by
    rw [busCmd_rc, ha, command_ramwr (rc := addressed c xa (y + row.1) u.rc) h hw (by simp [addressed])]
    rfl
  have key : ∀ (ws : List Word) (u : Run), u.rc.mode = .write → u.rc.pcmd = .none → u.rc.wphase = false →
      (sendWords ws u).rc.ready = true := by
    intro ws
    induction ws with
    | nil => intro u h1 h2 h3; simp [sendWords, Controller.ready, h1, h2, h3]
    | cons w ws ih =>
      intro u h1 h2 h3
      have e := busDataWord_rc w h1 h2 h3
      exact ih (busDataWord w u) (by rw [e, advance_eq]; exact h1) (by rw [e, advance_eq]; exact h2)
        (by rw [e, advance_eq]; exact h3)
  exact key _ _ (by rw [hv]) (by rw [hv]; rfl) (by rw [hv])

/-- The rows of a blit, one after the other. -/
theorem sendRows_specified {c : Config} (h : commandBytesDistinct c = true) (xa y : Int)
    (rows : List (Nat × List Word)) {u : Run} (hu : u.rc.ready = true) :
    Specified c u (rows.foldl (sendRow c xa y) u) ∧ (rows.foldl (sendRow c xa y) u).rc.ready = true := by
  induction rows generalizing u with
  | nil => exact ⟨.refl u, hu⟩
  | cons row rows ih =>
    obtain ⟨h1, h2⟩ := ih (sendRow_ready h hu xa y row)
    exact ⟨(Specified.sendRow h hu xa y row).trans h1, h2⟩

/-- The free dummy bytes of a painted list may be numbered from any count. -/
theorem paintEvents_shift (c : Config) (on : Bool) (dummy : Nat → Byte) (pts : List (Int × Int)) (n k : Nat)
    (m : Memory) : paintEvents c on dummy (n + k) m pts = paintEvents c on (fun j => dummy (j + k)) n m pts := by
  induction pts generalizing n m with
  | nil => rfl
  | cons p pts ih =>
    simp only [paintEvents]
    split
    · rw [show n + k + 1 = (n + 1) + k by omega, ih]
    · exact ih n m

/-- A list of SET or CLEAR accesses on a controller between whole commands emits the events of painting its points in
order, each dummy read giving the free byte of its draw (R122, R126). -/
theorem singleAll_trace {c : Config} (h : commandBytesDistinct c = true) {k : PointKind} (hk : k ≠ .read)
    (pts : List (Int × Int)) {u : Run} (hu : u.rc.ready = true) :
    (singleAll c k pts u).trace = u.trace ++
      paintEvents c (decide (k = .set)) (fun j => Config.freeByte j 0) u.rc.draws u.rc.dram pts := by
  induction pts generalizing u with
  | nil => simp [singleAll, paintEvents]
  | cons p pts ih =>
    have e : singleAll c k (p :: pts) u = singleAll c k pts (single c p.1 p.2 k u) := rfl
    have hw := (ready_iff.mp hu).2.1
    have hm := (ready_iff.mp hu).2.2
    rw [e, ih (single_ready h hu p.1 p.2 k), paintEvents]
    by_cases hs : onScreen p.1 p.2
    · have hr := inRange_iff.mpr hs
      have he : editField c k (fieldIndex p.1) (pixelWord p.1 p.2 u.rc.dram) =
          (if decide (k = .set) = true then
            u.rc.dram.readWord (lineByte p.2) (wordByte p.1) &&& ~~~ columnMask c p.1
          else u.rc.dram.readWord (lineByte p.2) (wordByte p.1) ||| columnMask c p.1) := by
        rw [pixelWord_eq hs]
        cases k <;> simp_all [editField, columnMask_eq c hs.2.1]
      rw [single_trace h hr hk hw hm, single_rc h hr hk hw hm, he, if_pos hs]
      simp [rmwEvents, addressEvents, wordEvents, rmwWritten, rmwClosed, rmwOpened, addressed, pixelWord_eq hs,
        byteOfInt_lineByte, columnByte_wordByte hs.1 hs.2.1, hiByte, loByte]
    · have hr : inRange p.1 p.2 = false := by
        rw [← Bool.not_eq_true, inRange_iff]; exact hs
      rw [single_out hr, if_neg hs]
      rfl

/-- The same as a statement says it: some dummy bytes, numbered from 0. -/
theorem singleAll_paintsInOrder {c : Config} (h : commandBytesDistinct c = true) {k : PointKind} (hk : k ≠ .read)
    (pts : List (Int × Int)) {u : Run} (hu : u.rc.ready = true) :
    ∃ dummy : Nat → Byte, (singleAll c k pts u).trace = u.trace ++
      paintEvents c (decide (k = .set)) dummy 0 u.rc.dram pts :=
  ⟨fun j => Config.freeByte (j + u.rc.draws) 0, by
    rw [singleAll_trace h hk pts hu, ← paintEvents_shift c _ (fun j => Config.freeByte j 0), Nat.zero_add]⟩

end Sys2Proof.Machine
end

