-- ==== Sys2Proof/Machine/Assembler.lean ====
section
/-! DEFINITION. The assembler of R101 to R105: symbolic operands, pseudo-instructions, data directives, the text of a
line, and the host's script that a program stands for. The machine does not read any of it. -/

namespace Sys2Proof.Machine

/-- A host action that waits for BUSY = 0 first (R247). -/
def afterBusy (a : HostAct) : HostEvent := { early := false, noted := false, act := a }

/-- The host register writes of an assembled command, as script entries (R103). -/
def commandScript (a : AsmCmd) : List HostEvent :=
  (assemble a).map (fun r => afterBusy (.write r.off r.val))

/-- Symbolic point ops (R102). The formulas take any `c`, above 11 too: DESIGN CHOICE, notes/assumptions/17.md. -/
def symSet : Int := 0x0001
def symClear : Int := 0x0000
def symRead : Int := 0xFFFF
def symDraw (c : Nat) : Int := 0x0110 + c
def symErase (c : Nat) : Int := 0x0100 + c

/-- `PEN(size, d, f, o)` (R102). The formula takes arguments beyond their fields too: DESIGN CHOICE,
notes/assumptions/17.md. -/
def symPen (size d f o : Nat) : Int := (size ||| d <<< 4 ||| f <<< 5 ||| o <<< 6 : Nat)

/-- Pseudo-instructions (R104). -/
inductive Pseudo where
  | pset (x y : Int)
  | pclr (x y : Int)
  | pget (x y : Int)
  | frect (x y w h : Int) (s d : Nat)
  | fcircle (cx cy r : Int) (s d : Nat)
  /-- A host action, not a command: the host reads STATUS until BUSY = 0. -/
  | wait
deriving DecidableEq, Repr

/-- The one command a pseudo-instruction expands to (R104). -/
def expandPseudo : Pseudo → Option AsmCmd
  | .pset x y => some ⟨.point, [x, y, symSet]⟩
  | .pclr x y => some ⟨.point, [x, y, symClear]⟩
  | .pget x y => some ⟨.point, [x, y, symRead]⟩
  | .frect x y w h s d => some ⟨.rect, [x, y, w, h, symPen s d 1 0]⟩
  | .fcircle cx cy r s d => some ⟨.circle, [cx, cy, r, symPen s d 1 0]⟩
  | .wait => none

/-- The script of a pseudo-instruction: its command's writes, or the STATUS read that ends a WAIT (R104). -/
def pseudoScript (p : Pseudo) : List HostEvent :=
  match expandPseudo p with
  | some a => commandScript a
  | none => [afterBusy (.read 8)]

/-- The image bytes a data directive places; words are little-endian
(R105, R54). -/
def directiveBytes : Directive → List Byte
  | .org _ => []
  | .byte bs => bs
  | .word ws => ws.flatMap (fun w => [loByte w, hiByte w])

/-- Consecutive image bytes as host writes. -/
def placeBytes (a : Nat) : List Byte → List HostEvent
  | [] => []
  | b :: bs => afterBusy (.image a b) :: placeBytes (a + 1) bs

/-- The host image writes of data directives, from address `a` on (R105). -/
def directiveScript (a : Nat) : List Directive → List HostEvent
  | [] => []
  | .org b :: ds => directiveScript b ds
  | .byte bs :: ds => placeBytes a bs ++ directiveScript (a + bs.length) ds
  | .word ws :: ds =>
    placeBytes a (directiveBytes (.word ws)) ++ directiveScript (a + (directiveBytes (.word ws)).length) ds

/-- A line of source text (R101). -/
inductive SourceLine where
  | empty
  | command (a : AsmCmd)
  | pseudo (p : Pseudo)
  | directive (d : Directive)
  /-- An assembler error: unknown mnemonic, malformed operand, wrong count or a value outside its range. -/
  | error
deriving DecidableEq, Repr

def isBlankChar (c : Char) : Bool := c == ' ' || c == '\t' || c == '\n' || c == '\r'

def trimText (l : List Char) : List Char :=
  ((l.dropWhile isBlankChar).reverse.dropWhile isBlankChar).reverse

/-- Splits at the commas outside parentheses; `depth` counts open parentheses, `cur` is the current piece reversed. -/
def splitCommas : Nat → List Char → List Char → List (List Char)
  | _, cur, [] => [trimText cur.reverse]
  | depth, cur, c :: cs =>
    if c == ',' && depth == 0 then trimText cur.reverse :: splitCommas 0 [] cs
    else if c == '(' then splitCommas (depth + 1) (c :: cur) cs
    else if c == ')' then splitCommas (depth - 1) (c :: cur) cs
    else splitCommas depth (c :: cur) cs

/-- The operands of an operand text; an empty text has none. -/
def splitOperands (l : List Char) : List (List Char) :=
  if (trimText l).isEmpty then [] else splitCommas 0 [] l

def digitValue (base : Nat) (c : Char) : Option Nat :=
  let n := c.toNat
  let v := if 48 ≤ n && n ≤ 57 then n - 48 else if 65 ≤ n && n ≤ 70 then n - 55
    else if 97 ≤ n && n ≤ 102 then n - 87 else base
  if v < base then some v else none

/-- The number of a digit string, `acc` in front of it. -/
def digitsValue (base : Nat) : Nat → List Char → Option Nat
  | acc, [] => some acc
  | acc, c :: cs =>
    match digitValue base c with
    | some v => digitsValue base (base * acc + v) cs
    | none => none

/-- A nonempty digit string. -/
def parseDigits (base : Nat) (l : List Char) : Option Nat :=
  if l.isEmpty then none else digitsValue base 0 l

/-- A number: decimal with an optional `-`, or hex `0x...` (R101). -/
def parseNumber : List Char → Option Int
  | '-' :: ds => (parseDigits 10 ds).map (fun n => -(n : Int))
  | '0' :: 'x' :: ds => (parseDigits 16 ds).map (fun n => (n : Int))
  | ds => (parseDigits 10 ds).map (fun n => (n : Int))

def parseNatural (l : List Char) : Option Nat :=
  match parseNumber l with
  | some v => if 0 ≤ v then some v.toNat else none
  | none => none

/-- All pieces parsed, or none. -/
def parseAll {α : Type} (f : List Char → Option α) : List (List Char) → Option (List α)
  | [] => some []
  | l :: ls =>
    match f l, parseAll f ls with
    | some v, some vs => some (v :: vs)
    | _, _ => none

/-- The arguments of `NAME(...)`. -/
def callArgs (name : List Char) (l : List Char) : Option (List Nat) :=
  if l.take (name.length + 1) == name ++ ['('] && l.getLast? == some ')' then
    parseAll parseNatural (splitOperands ((l.drop (name.length + 1)).dropLast))
  else none

/-- The symbolic operand of a position, if the text is one (R102). An argument beyond its field (`c` or `size` above 11,
`d`, `f` or `o` above 1) is no error of its own: DESIGN CHOICE, notes/assumptions/17.md. -/
def parseSymbol : OperandKind → List Char → Option Int
  | .op, l =>
    if l == "SET".toList then some symSet
    else if l == "CLEAR".toList then some symClear
    else if l == "READ".toList then some symRead
    else match callArgs "DRAW".toList l with
      | some [c] => some (symDraw c)
      | _ =>
        match callArgs "ERASE".toList l with
        | some [c] => some (symErase c)
        | _ => none
  | .pen, l =>
    match callArgs "PEN".toList l with
    | some [size, d, f, o] => some (symPen size d f o)
    | _ => none
  | .mode, l =>
    if l == "BLANK".toList then some 0
    else if l == "DRAW".toList then some 1
    else if l == "FILL".toList then some 2
    else none
  | .s16, _ => none
  | .u16, _ => none
  | .u8lo, _ => none

def parseOperand (k : OperandKind) (l : List Char) : Option Int :=
  match parseSymbol k l with
  | some v => some v
  | none => parseNumber l

/-- The operands of a command, each by the kind of its position. -/
def parseOperands : List OperandKind → List (List Char) → Option (List Int)
  | [], [] => some []
  | k :: ks, l :: ls =>
    match parseOperand k l, parseOperands ks ls with
    | some v, some vs => some (v :: vs)
    | _, _ => none
  | [], _ :: _ => none
  | _ :: _, [] => none

/-- The mnemonics of R81. -/
def instrName : Instr → List Char
  | .nop => "NOP".toList
  | .setaddr => "SETADDR".toList
  | .point => "POINT".toList
  | .readword => "READWORD".toList
  | .writeword => "WRITEWORD".toList
  | .blank => "BLANK".toList
  | .circle => "CIRCLE".toList
  | .rect => "RECT".toList
  | .triangle => "TRIANGLE".toList
  | .star => "STAR".toList
  | .bitimage => "BITIMAGE".toList
  | .wordimage => "WORDIMAGE".toList
  | .fillregion => "FILLREGION".toList
  | .clear => "CLEAR".toList
  | .fillscreen => "FILLSCREEN".toList

/-- A command line: accepted only if it is well formed (R101). -/
def parseCommand (name : List Char) (ops : List (List Char)) : SourceLine :=
  match Instr.all.find? (fun i => instrName i == name) with
  | none => .error
  | some i =>
    match parseOperands i.operands ops with
    | none => .error
    | some vs => if (AsmCmd.mk i vs).wellFormed then .command ⟨i, vs⟩ else .error

/-- A pseudo-instruction line: its expansion must be well formed (R104, R101). -/
def checkedPseudo (p : Pseudo) : SourceLine :=
  match expandPseudo p with
  | none => .pseudo p
  | some a => if a.wellFormed then .pseudo p else .error

/-- A data directive's values, each in range of its width. -/
def parseValues (bits : Nat) (ops : List (List Char)) : Option (List Nat) :=
  match parseAll parseNatural ops with
  | some ns => if ns.all (fun n => n < 2 ^ bits) then some ns else none
  | none => none

/-- One line, from its first word and its operand texts. -/
def parseWords (name : List Char) (ops : List (List Char)) : SourceLine :=
  if name == "PSET".toList then
    match parseAll parseNumber ops with
    | some [x, y] => checkedPseudo (.pset x y)
    | _ => .error
  else if name == "PCLR".toList then
    match parseAll parseNumber ops with
    | some [x, y] => checkedPseudo (.pclr x y)
    | _ => .error
  else if name == "PGET".toList then
    match parseAll parseNumber ops with
    | some [x, y] => checkedPseudo (.pget x y)
    | _ => .error
  else if name == "FRECT".toList then
    match parseAll parseNumber ops with
    | some [x, y, w, h, s, d] =>
      if 0 ≤ s && 0 ≤ d then checkedPseudo (.frect x y w h s.toNat d.toNat) else .error
    | _ => .error
  else if name == "FCIRCLE".toList then
    match parseAll parseNumber ops with
    | some [cx, cy, r, s, d] =>
      if 0 ≤ s && 0 ≤ d then checkedPseudo (.fcircle cx cy r s.toNat d.toNat) else .error
    | _ => .error
  else if name == "WAIT".toList then (if ops.isEmpty then .pseudo .wait else .error)
  else if name == ".org".toList then
    match parseAll parseNatural ops with
    | some [a] => .directive (.org a)
    | _ => .error
  else if name == ".byte".toList then
    match parseValues 8 ops with
    | some ns => .directive (.byte (ns.map (BitVec.ofNat 8)))
    | none => .error
  else if name == ".word".toList then
    match parseValues 16 ops with
    | some ns => .directive (.word (ns.map (BitVec.ofNat 16)))
    | none => .error
  else parseCommand name ops

/-- One line of source text; a comment starts with `;` (R101). DESIGN CHOICE: notes/assumptions/17.md. -/
def parseLine (text : String) : SourceLine :=
  let l := trimText (text.toList.takeWhile (fun c => c != ';'))
  if l.isEmpty then .empty
  else parseWords (l.takeWhile (fun c => !isBlankChar c)) (splitOperands (l.dropWhile (fun c => !isBlankChar c)))

end Sys2Proof.Machine
end

