-- ==== Sys2Proof/Tests/Slice0.lean ====
section
/-! SUPPORT. Tests: ill-formed terms, decoding of words written out from spec/30_encoding.md, one-step tests with the
values of spec/95_test_vectors.md and of the rules' own examples, and a witness for every statement's hypotheses. -/

namespace Sys2Proof.Tests

open Sys2Proof Sys2Proof.Machine

/-! ### Well-formedness: each check refuses an ill-formed term -/

theorem test_wf_reserved_high : cmdWordWellFormed 0x0102 = false := by decide
theorem test_wf_reserved_opcode : cmdWordWellFormed 0x000F = false := by decide
theorem test_wf_last_opcode : cmdWordWellFormed 0x000E = true := by decide
theorem test_wf_too_few : (AsmCmd.mk .setaddr [1]).wellFormed = false := by decide
theorem test_wf_too_many : (AsmCmd.mk .nop [1]).wellFormed = false := by decide
theorem test_wf_s16_high : (AsmCmd.mk .readword [32768, 0]).wellFormed = false := by decide
theorem test_wf_s16_low : (AsmCmd.mk .readword [-32769, 0]).wellFormed = false := by decide
theorem test_wf_u8lo : (AsmCmd.mk .setaddr [256, 0]).wellFormed = false := by decide
theorem test_wf_u16 : (AsmCmd.mk .fillscreen [65536]).wellFormed = false := by decide
theorem test_wf_op : (AsmCmd.mk .point [0, 0, -1]).wellFormed = false := by decide
theorem test_wf_pen : (AsmCmd.mk .circle [0, 0, 0, 65536]).wellFormed = false := by decide
theorem test_wf_mode : (AsmCmd.mk .bitimage [0, 0, 0, -1]).wellFormed = false := by decide
theorem test_wf_config_bytes : configWf { defaultConfig with cmdRamwr := 0x75 } = false := by decide
theorem test_wf_config_masks : configWf { defaultConfig with mask1 := 0x0010 } = false := by decide
theorem test_wf_config_window : configWf { defaultConfig with colEnd := 0x34 } = false := by decide

/-! ### Decoding: CMD words written out from R80 and R81 (RSV byte, then OPC byte) -/

theorem test_decode_addressing : decode 0b0000000000000000 = .command .nop ∧
    decode 0b0000000000000001 = .command .setaddr := by decide
theorem test_decode_pixel : decode 0b0000000000000010 = .command .point ∧
    decode 0b0000000000000011 = .command .readword ∧ decode 0b0000000000000100 = .command .writeword ∧
    decode 0b0000000000000101 = .command .blank := by decide
theorem test_decode_shapes : decode 0b0000000000000110 = .command .circle ∧
    decode 0b0000000000000111 = .command .rect ∧ decode 0b0000000000001000 = .command .triangle ∧
    decode 0b0000000000001001 = .command .star := by decide
theorem test_decode_blitter : decode 0b0000000000001010 = .command .bitimage ∧
    decode 0b0000000000001011 = .command .wordimage ∧ decode 0b0000000000001100 = .command .fillregion ∧
    decode 0b0000000000001101 = .command .clear ∧ decode 0b0000000000001110 = .command .fillscreen := by decide
theorem test_decode_reserved : decode 0x000F = .reservedOpcode ∧ decode 0x00FF = .reservedOpcode ∧
    decode 0x0100 = .reservedHigh ∧ decode 0x8002 = .reservedHigh := by decide
theorem test_decode_table_word : decodeTableWord 16 0x0007 = some .rect ∧ decodeTableWord 16 0x0107 = none ∧
    decodeTableWord 8 0x0007 = some .rect := by decide

/-! ### The assembler -/

/-- R103's example. -/
theorem test_asm_point : assemble ⟨.point, [10, 20, symSet]⟩ =
    [⟨1, 0x000A⟩, ⟨2, 0x0014⟩, ⟨3, 0x0001⟩, ⟨0, 0x0002⟩] := by decide
theorem test_asm_negative : assemble ⟨.readword, [-1, 160]⟩ = [⟨1, 0xFFFF⟩, ⟨2, 0x00A0⟩, ⟨0, 0x0003⟩] := by decide
theorem test_asm_symbols : symDraw 11 = 0x011B ∧ symErase 3 = 0x0103 ∧ symPen 3 1 0 1 = 0x0053 := by decide
theorem test_asm_line : parseLine "  RECT 0, -3, 3, 0x10, PEN(2, 1, 1, 0) ; a box" =
    .command ⟨.rect, [0, -3, 3, 16, 0x32]⟩ := by decide
theorem test_asm_pseudo : parseLine "PGET 159, 0" = .pseudo (.pget 159 0) ∧
    expandPseudo (.fcircle 10 10 3 2 1) = some ⟨.circle, [10, 10, 3, 0x32]⟩ := by decide
theorem test_asm_errors : parseLine "SETADDR 256, 0" = .error ∧ parseLine "LINE 0, 0" = .error ∧
    parseLine "CLEAR 1" = .error := by decide
theorem test_asm_directive : parseLine ".word 0x03FF, 1" = .directive (.word [0x03FF, 1]) ∧
    directiveBytes (.word [0x03FF]) = [0xFF, 0x03] := by decide

/-! ### One-step tests. The display is dark (every word 0x0000) unless a word is given -/

/-- A state whose command has been accepted, with the operands in A0 to A4. -/
def accepted (a0 a1 a2 a3 a4 : Word) : State :=
  { State.reset with status := 0x0001, a0 := a0, a1 := a1, a2 := a2, a3 := a3, a4 := a4, result := 0x1234 }

/-- That state with one display word. -/
def withWord (l k : Byte) (w : Word) (s : State) : State :=
  { s with rc := { s.rc with dram := s.rc.dram.writeWord l k w } }

/-- That state with image bytes from an address on. -/
def withImage (a : Nat) : List Byte → State → State
  | [], s => s
  | b :: bs, s => withImage (a + 1) bs { s with img := s.img.write (a % imgSize s.cfg) b }

/-- What the command leaves, if it answers a next state. -/
def runs (i : Instr) (s : State) : Option State :=
  match exec i s with
  | .next t => some t
  | .fault _ => none
  | .refused _ => none

/-- RESULT, STATUS and the bus transactions of the command (a read's byte left out). -/
def outcome (i : Instr) (s : State) : Option (Word × Word × List BusOp) :=
  (runs i s).map (fun t => (t.result, t.status, t.trace.map BusEvent.op))

/-- A display word after the command. -/
def wordAfter (i : Instr) (s : State) (l k : Byte) : Option Word :=
  (runs i s).map (fun t => t.rc.dram.readWord l k)

/-- R200. -/
theorem test_nop : outcome .nop (accepted 1 2 3 4 5) = some (0x1234, 0x0000, []) := by decide

/-- 95_test_vectors.md 2.1: SETADDR 0x1FF, 0x1A0. -/
theorem test_setaddr : outcome .setaddr (accepted 0x01FF 0x01A0 0 0 0) = some (0x1234, 0,
    [.cmd 0x75, .data 0xA0, .data 0x9F, .cmd 0x15, .data 0x55, .data 0x35]) := by decide
theorem test_setaddr_pointer : (runs .setaddr (accepted 159 0 0 0 0)).map (fun t => (t.rc.line, t.rc.col, t.rc.ce)) =
    some (0, 53, 0x35) := by decide

/-- R128's example: POINT 0, 0, SET with DRAM[0][53] = 0xFFDF. -/
theorem test_point_set : outcome .point (withWord 0 53 0xFFDF (accepted 0 0 1 0 0)) = some (0x1234, 0,
    [.cmd 0x75, .data 0x00, .data 0x9F, .cmd 0x15, .data 0x35, .data 0x35, .cmd 0xE0, .read, .read, .read,
     .data 0xFF, .data 0xC0, .cmd 0xEE]) := by decide
theorem test_point_set_word : wordAfter .point (withWord 0 0 0xFFDF (accepted 157 0 1 0 0)) 0 0 = some 0x07DF := by
  decide

/-- 95_test_vectors.md 2.2: READWORD 159, 5 with DRAM[5][0] = 0x1234, its events and its two data reads. -/
theorem test_readword : (runs .readword (withWord 5 0 0x1234 (accepted 159 5 0 0 0))).map
    (fun t => (t.result, t.status, t.trace.drop 8)) =
      some (0x1234, 0, [.read 0x12, .read 0x34, .cmd 0xEE]) := by decide
theorem test_readword_out : outcome .readword (accepted 160 0 0 0 0) = some (0xFFFF, 0x0002, []) := by decide

/-- R134's example: WRITEWORD 159, 5, 0x1234. -/
theorem test_writeword : outcome .writeword (accepted 159 5 0x1234 0 0) = some (0x1234, 0,
    [.cmd 0x75, .data 0x05, .data 0x9F, .cmd 0x15, .data 0x00, .data 0x35, .cmd 0x5C, .data 0x12, .data 0x34]) := by
  decide
theorem test_writeword_word : wordAfter .writeword (accepted 159 5 0xABCD 0 0) 5 0 = some 0xABCD := by decide

/-- 95_test_vectors.md 2.2: BLANK 158, 0, 4, 2 from dark: 52 events, RANGE; fields 0 and 1 of word column 0 off. -/
theorem test_blank : (runs .blank (accepted 158 0 4 2 0)).map
    (fun t => (t.trace.length, t.status, t.rc.dram.readWord 0 0, t.rc.dram.readWord 1 0)) =
      some (52, 0x0002, 0x07DF, 0x07DF) := by decide +kernel
theorem test_blank_empty : outcome .blank (accepted 10 10 5 0xFFFF 0) = some (0x1234, 0, []) := by decide

/-- 95_test_vectors.md 2.3: CIRCLE 0, 0, 2, 0x0010: 6 of 16 plots in range; the iteration points of R155. -/
theorem test_circle : (runs .circle (accepted 0 0 2 0x0010 0)).map (fun t => (t.trace.length, t.status)) =
    some (78, 0x0002) := by decide +kernel
theorem test_circle_points : circlePoints 10 10 1 false =
    [(10, 11), (10, 11), (10, 9), (10, 9), (11, 10), (9, 10), (11, 10), (9, 10)] := by decide

/-- 95_test_vectors.md 2.3: RECT 158, 158, 4, 4: 3 points in range; RECT 5, 5, 4, 2: 8 plots. -/
theorem test_rect : (runs .rect (accepted 158 158 4 4 0x0010)).map (fun t => (t.trace.length, t.status)) =
    some (39, 0x0002) := by decide +kernel
theorem test_rect_points : rectPoints 5 5 4 2 false =
    [(5, 5), (6, 5), (7, 5), (8, 5), (5, 6), (6, 6), (7, 6), (8, 6)] := by decide

/-- 95_test_vectors.md 2.3: the triangle b = 1, h = 4, and an invalid pen. -/
theorem test_triangle_points : trianglePoints 10 10 1 4 false false =
    [(10, 10), (10, 11), (10, 12), (9, 13), (10, 13), (11, 13)] := by decide
theorem test_triangle_pen : outcome .triangle (accepted 10 10 1 4 0x001C) = some (0x1234, 0x0004, []) := by decide

/-- 95_test_vectors.md 2.3: the star b = 2, h = 1 plots its row twice; the star b = 3, h = 4 makes 24 plots. -/
theorem test_star_row : starPoints 20 20 2 1 false =
    [(18, 20), (19, 20), (20, 20), (21, 20), (22, 20), (18, 20), (19, 20), (20, 20), (21, 20), (22, 20)] := by decide
theorem test_star_plots : (starPoints 20 20 3 4 false).length = 24 := by decide

/-- S5 in small: the 1x2 all-ones column at (0, 0), DRAW. -/
theorem test_bitimage : outcome .bitimage (withImage 0xFFFE [0x01, 0x02, 0x80, 0x80] (accepted 0xFFFE 0 0 1 0)) =
    some (0x1234, 0,
      [.cmd 0x75, .data 0x00, .data 0x9F, .cmd 0x15, .data 0x35, .data 0x35, .cmd 0x5C, .data 0xFF, .data 0xC0,
       .cmd 0x75, .data 0x01, .data 0x9F, .cmd 0x15, .data 0x35, .data 0x35, .cmd 0x5C, .data 0xFF, .data 0xC0]) := by
  decide +kernel
theorem test_bitimage_mode : outcome .bitimage (accepted 0 0 0 3 0) = some (0x1234, 0x0004, []) := by decide

/-- S6: the off run 0x03FF fills word columns 49 to 52 of a 12x1 image at (1, 0). -/
theorem test_wordimage : outcome .wordimage
    (withImage 0x0200 [0x0C, 0x00, 0x01, 0x00, 0xFF, 0x03, 0xEF, 0xBE] (accepted 0x0200 1 0 1 0)) =
    some (0x1234, 0,
      [.cmd 0x75, .data 0x00, .data 0x9F, .cmd 0x15, .data 0x31, .data 0x35, .cmd 0x5C, .data 0xFF, .data 0xDF,
       .data 0xFF, .data 0xDF, .data 0xFF, .data 0xDF, .data 0xFF, .data 0xDF]) := by decide +kernel
/-- R194: a reserved control word after one pixel word: one word streamed, then BADIMG. -/
theorem test_wordimage_badimg : (runs .wordimage
    (withImage 0x0200 [0x06, 0x00, 0x01, 0x00, 0x00, 0x00, 0x21, 0x00] (accepted 0x0200 154 0 1 0))).map
      (fun t => (t.status, t.trace.length, t.rc.dram.readWord 0 0, t.rc.dram.readWord 0 1)) =
        some (0x0008, 9, 0xFFFF, 0x0000) := by decide +kernel

/-- R197: FILLREGION FILL writes whole words; DRAW is refused. -/
theorem test_fillregion : outcome .fillregion (accepted 157 7 3 1 2) = some (0x1234, 0,
    [.cmd 0x75, .data 0x07, .data 0x9F, .cmd 0x15, .data 0x00, .data 0x35, .cmd 0x5C, .data 0x00, .data 0x00]) := by
  decide
theorem test_fillregion_draw : outcome .fillregion (accepted 157 7 3 1 1) = some (0x1234, 0x0004, []) := by decide

/-- R198, R199: the words CLEAR and FILLSCREEN stream, on two words of one line of their loop. -/
theorem test_fill_row : (blitRows defaultConfig 0 0 2 (pureSource (fun _ _ => wordOff)) [3] ()
    (accepted 0 0 0 0 0).run).2.trace =
    [.cmd 0x75, .data 0x03, .data 0x9F, .cmd 0x15, .data 0x00, .data 0x35, .cmd 0x5C, .data 0xFF, .data 0xDF,
     .data 0xFF, .data 0xDF] := by decide

/-! ### The host port -/

/-- One host action on a state. -/
def acts (a : HostAct) (s : State) : Option State :=
  match hostAct a s with
  | .next t => some t
  | .fault _ => none
  | .refused _ => none

theorem test_host_busyerr : (acts (.write 3 7) (accepted 1 2 3 4 5)).map (fun t => (t.a2, t.status)) =
    some (3, 0x0011) := by decide
theorem test_host_accept : (acts (.write 0 0x0005) { State.reset with status := 0x001E }).map
    (fun t => (t.cmd, t.status)) = some (0x0005, 0x0001) := by decide
/-- A STATUS read that lands while `cmd` runs: what the host reads, and the STATUS that stays. -/
def busyRead (noted : Bool) (cmd : Word) (s : State) : Option (Option Word × Word) :=
  match step { s with cmd := cmd, host := [⟨true, noted, .read 8⟩] } with
  | .next t => some (t.hostData, t.status)
  | .fault _ => none
  | .refused _ => none

/-- R222, R247: POINT off the surface notes RANGE; a STATUS read in the command shows it, or not yet, and it stays. -/
theorem test_host_status_noted :
    busyRead true 0x0002 (accepted 160 0 1 0 0) = some (some 0x0003, 0x0003) ∧
    busyRead false 0x0002 (accepted 160 0 1 0 0) = some (some 0x0001, 0x0001) ∧
    busyRead true 0x0002 (accepted 159 0 1 0 0) = some (some 0x0001, 0x0001) := by decide
/-- R15, R222: READWORD off the surface fails with RANGE, so no read sees RANGE while BUSY = 1. -/
theorem test_host_status_failing :
    busyRead true 0x0003 (accepted 160 0 0 0 0) = some (some 0x0001, 0x0001) := by decide
theorem test_host_bus_busy : acts (.bus .read) (accepted 0 0 0 0 0) = none := by decide
theorem test_reset_mid_word : (acts (.reset 8) { accepted 159 5 0x1234 0 0 with cmd := 0x0004 }).map
    (fun t => (t.rc.whi, t.rc.wphase, t.status, t.a0)) = some (0x12, true, 0, 0) := by decide
theorem test_race_sees_old_or_new : { accepted 0 0 0 0 0 with racing := [(7, 9)] }.imgByte 0 7 = 0 ∨
    { accepted 0 0 0 0 0 with racing := [(7, 9)] }.imgByte 0 7 = 9 := by
  have h : ∀ n : Nat, ([9] : List Byte).getD (n % 2) 0 = 0 ∨ ([9] : List Byte).getD (n % 2) 0 = 9 := by
    intro n
    have h2 : n % 2 = 0 ∨ n % 2 = 1 := by omega
    rcases h2 with e | e <;> simp [e]
  exact h _

/-! ### Witnesses: states and operands that meet every hypothesis of a statement -/

theorem witness_DecodeIsTotal : ((0x0100 : Word).extractLsb' 8 8 ≠ 0) ∧
    ((0x000F : Word).extractLsb' 8 8 = 0 ∧ 0x0E < ((0x000F : Word).extractLsb' 0 8).toNat) ∧
    ((0x000E : Word).extractLsb' 8 8 = 0 ∧ ((0x000E : Word).extractLsb' 0 8).toNat ≤ 0x0E) ∧
    decode 0x000E = .command .fillscreen := by decide
theorem witness_OpcodeTableAgreesWithDecoder : ∃ r ∈ opcodeTable, ∃ q ∈ opcodeTable,
    r.hits 0x000E = true ∧ q.hits 0x000E = true := by decide
theorem witness_AssembleThenDisassemble :
    (AsmCmd.mk .writeword [-32768, 32767, 65535]).wellFormed = true := by decide
theorem witness_PenDecode : penValid 0x007B = true := by decide
theorem witness_DivideByThreeIsExact : (255 : Nat) ≤ 255 := by decide
theorem witness_StepRunsTheDecodedCommand :
    ((accepted 1 2 3 4 5).busy = true ∧ (accepted 1 2 3 4 5).hostFirst = false ∧
      decode (accepted 1 2 3 4 5).cmd = .command .nop) ∧
    (∃ (e : HostEvent) (s : State), s.host = [e] ∧ s.busy = true ∧ (s.busy = true → e.early = true)) ∧
    (∃ (e : HostEvent) (s : State), s.host = [e] ∧ s.busy = false ∧ (s.busy = true → e.early = true)) ∧
    State.reset.busy = false ∧ State.reset.host = [] := by
  refine ⟨by decide, ⟨⟨true, true, .read 8⟩, { accepted 0 0 0 0 0 with host := [⟨true, true, .read 8⟩] }, by decide⟩,
    ⟨⟨false, false, .read 8⟩, { State.reset with host := [⟨false, false, .read 8⟩] }, by decide⟩, by decide⟩
theorem witness_ReservedCommandFails : { accepted 0 0 0 0 0 with cmd := 0x000F }.busy = true ∧
    { accepted 0 0 0 0 0 with cmd := 0x000F }.hostFirst = false ∧
    0x0E < { accepted 0 0 0 0 0 with cmd := 0x000F }.cmd.toNat := by decide
theorem witness_AcceptanceStartsACommand : State.reset.busy = false := by decide
theorem witness_BusyWritesOnlySetBusyerr : ((accepted 0 0 0 0 0).busy = true ∧ (6 : BitVec 4).toNat ≤ 6) ∧
    (∃ t, exec .nop (accepted 0 0 0 0 0) = .next t) ∧
    (State.reset.busy = false ∧ ∃ t, hostAct (.write 0 0x0000) State.reset = .next t) :=
  ⟨by decide, ⟨_, rfl⟩, by decide, ⟨_, rfl⟩⟩
theorem witness_OperandRegistersHoldWhatTheHostWrites : State.reset.busy = false ∧ 1 ≤ (1 : BitVec 4).toNat ∧
    (6 : BitVec 4).toNat ≤ 6 ∧ (0 : BitVec 4) ≠ 1 := by decide
/-- A POINT off the surface, with a read of STATUS landing in it. -/
def noting : State := { accepted 160 0 1 0 0 with cmd := 0x0002, host := [⟨true, true, .read 8⟩] }
/-- A READWORD off the surface, with a read of STATUS landing in it. -/
def failing : State := { accepted 160 0 0 0 0 with cmd := 0x0003, host := [⟨true, true, .read 8⟩] }
theorem witness_ReadOnlyAndReservedOffsets : (7 ≤ (7 : BitVec 4).toNat ∧ 7 ≤ (15 : BitVec 4).toNat ∧
    9 ≤ (9 : BitVec 4).toNat) ∧
    (noting.busy = true ∧ noting.host = ⟨true, true, .read 8⟩ :: [] ∧ noting.willNote) ∧
    (failing.busy = true ∧ failing.host = ⟨true, true, .read 8⟩ :: [] ∧ ¬ (true = true ∧ failing.willNote)) := by
  refine ⟨by decide, ⟨by decide, rfl, .point, _, by decide, rfl, rfl, by decide⟩, by decide, rfl, ?_⟩
  rintro ⟨-, i, t, hi, hd, -⟩
  have e : decode failing.cmd = .command .readword := by decide
  rw [e] at hd
  cases hd
  exact absurd hi (by decide)
/-- A transaction by another agent between commands, and one while a command runs. -/
theorem witness_EveryStepContinues : State.reset.busy = false ∧ (accepted 0 0 0 0 0).busy = true := by decide
theorem witness_ResetCutsACommandAtAPrefix : State.reset.busy = false ∧ (accepted 0 0 0 0 0).busy = true ∧
    ∃ c, runCommand { accepted 0 0 0 0 0 with trace := [] } = .next c ∧ ([] : List BusEvent) <+: c.trace :=
  ⟨by decide, by decide, _, rfl, List.nil_prefix⟩
theorem witness_StepKeepsInvariant :
    ∃ t, (accepted 159 5 0x1234 0 0).inv = true ∧ step (accepted 159 5 0x1234 0 0) = .next t :=
  ⟨_, by decide, rfl⟩
theorem witness_CanonicalMemoriesAreEqualWhenTheyReadAlike : Memory.wf 65536 [(3, 1), (7, 9)] = true ∧
    ∀ a, Memory.read [(3, 1), (7, 9)] a = Memory.read [(3, 1), (7, 9)] a := ⟨by decide, fun _ => rfl⟩
theorem witness_ImageReadsSeeTheOldOrANewByte : (accepted 0 0 0 0 0).busy = true ∧ State.reset.busy = false ∧ State.reset.racing = [] ∧
    0 % 2 ^ State.reset.cfg.imgAddrBits ≠ 65535 % 2 ^ State.reset.cfg.imgAddrBits := by decide
theorem witness_AddressCommandsSetTheWindow : commandBytesDistinct defaultConfig = true ∧
    Controller.boot.wphase = false ∧ Controller.boot.mode ≠ .rmw := by decide
theorem witness_DataBytesStoreWords : (Controller.boot.wphase = false ∧ Controller.boot.mode ≠ .rmw) ∧
    ({ Controller.boot with mode := .write }.pcmd = .none ∧ { Controller.boot with mode := .write }.mode ≠ .idle ∧
      { Controller.boot with mode := .write }.wphase = false) ∧
    ¬ ((255 : Byte) = Controller.boot.line ∧ (255 : Byte) = Controller.boot.col) := by decide
/-- The three clauses at their boundaries: the last column of the window; the wrap to the window's last line; the wrap
past it, and past line 255. -/
theorem witness_PointerAdvance :
    { Controller.boot with col := 52, ce := 53 }.col.toNat + 1 ≤ { Controller.boot with col := 52, ce := 53 }.ce.toNat ∧
    ((53 : Byte).toNat < (53 : Byte).toNat + 1 ∧ ((158 : Byte) + 1).toNat ≤ (159 : Byte).toNat) ∧
    ((53 : Byte).toNat < (53 : Byte).toNat + 1 ∧ (159 : Byte).toNat < ((159 : Byte) + 1).toNat) ∧
    ((255 : Byte).toNat < (255 : Byte).toNat + 1 ∧ ((255 : Byte) + 1).toNat ≤ (159 : Byte).toNat) := by decide
theorem witness_RmwBracket : commandBytesDistinct defaultConfig = true ∧
    (Controller.boot.wphase = false ∧ Controller.boot.mode ≠ .rmw) ∧
    ({ Controller.boot with mode := .rmw, dummy := true }.mode = .rmw ∧
      { Controller.boot with mode := .rmw, dummy := true }.dummy = true) ∧
    ({ Controller.boot with mode := .rmw }.dummy = false ∧ { Controller.boot with mode := .rmw }.rphase = false) ∧
    ({ Controller.boot with mode := .rmw, rphase := true }.mode = .rmw ∧
      { Controller.boot with mode := .rmw, rphase := true }.dummy = false ∧
      { Controller.boot with mode := .rmw, rphase := true }.rphase = true) := by decide
theorem witness_UnspecifiedSequencesAreFree : Controller.boot.specified defaultConfig .read = false ∧
    Controller.boot.specified defaultConfig (.data 0) = false ∧
    Controller.boot.specified defaultConfig (.cmd 0x00) = false ∧
    { Controller.boot with wphase := true }.specified defaultConfig (.cmd 0x75) = false ∧
    { Controller.boot with mode := .rmw }.specified defaultConfig (.cmd 0x75) = false := by decide
theorem witness_ResultIsWrittenByReadsAlone :
    (∃ t, exec .point (accepted 159 159 0xFFFF 0 0) = .next t) ∧
    (onScreen (accepted 159 159 0xFFFF 0 0).a0.toInt (accepted 159 159 0xFFFF 0 0).a1.toInt ∧
      (accepted 159 159 0xFFFF 0 0).a2 = 0xFFFF ∧ (accepted 159 159 0xFFFF 0 0).displayReady = true) ∧
    ¬ onScreen (accepted 160 0 0xFFFF 0 0).a0.toInt (accepted 160 0 0xFFFF 0 0).a1.toInt ∧
    ¬ (Instr.point = .readword) ∧ ¬ (Instr.point = .point ∧ (accepted 0 0 1 0 0).a2 = 0xFFFF) :=
  ⟨⟨_, rfl⟩, by decide⟩
theorem witness_BusReadsReturnTheControllersBytes : ∃ t, exec .readword (accepted 159 5 0 0 0) = .next t := ⟨_, rfl⟩
theorem witness_CommandsStaySpecified : (accepted 159 5 0 0 0).displayReady = true ∧
    ∃ t, exec .readword (accepted 159 5 0 0 0) = .next t := ⟨by decide, _, rfl⟩
theorem witness_WordsOffTheSurfaceStay : (accepted 0 159 7 0 0).displayReady = true ∧
    (∃ t, exec .writeword (accepted 0 159 7 0 0) = .next t) ∧ 160 ≤ (160 : Byte).toNat ∧ 54 ≤ (54 : Byte).toNat :=
  ⟨by decide, ⟨_, rfl⟩, by decide⟩
theorem witness_ControllerPointerDoesNotMatter : (accepted 0 0 0 0 0).displayReady = true ∧
    { Controller.boot with line := 7, col := 9, mode := .write }.ready = true ∧
    { Controller.boot with line := 7, col := 9, mode := .write, draws := 5 }.dram = (accepted 0 0 0 0 0).rc.dram := by
  decide
theorem witness_UnreadOperandsDoNotMatter : (0 < Instr.setaddr.operands.length ∧ 1 < Instr.setaddr.operands.length) ∧
    ¬ 2 < Instr.setaddr.operands.length ∧ 4 < Instr.rect.operands.length ∧
    ∃ t, exec .setaddr (accepted 1 2 3 4 5) = .next t := ⟨by decide, by decide, by decide, _, rfl⟩
theorem witness_NopDoesNothing : State.reset.status &&& statusReserved = 0 := by decide
theorem witness_SetaddrSetsThePointer : (accepted 255 255 0 0 0).displayReady = true := by decide
theorem witness_PointSetsOrClearsOnePixel :
    ((accepted 0 0 0 0 0).displayReady = true ∧ (accepted 0 0 0 0 0).a2 = 0x0000 ∧
      onScreen (accepted 0 0 0 0 0).a0.toInt (accepted 0 0 0 0 0).a1.toInt) ∧
    ((accepted 159 159 1 0 0).displayReady = true ∧ (accepted 159 159 1 0 0).a2 = 0x0001 ∧
      onScreen (accepted 159 159 1 0 0).a0.toInt (accepted 159 159 1 0 0).a1.toInt) := by decide
theorem witness_PointReadsOnePixel : (accepted 159 0 0xFFFF 0 0).displayReady = true ∧
    (accepted 159 0 0xFFFF 0 0).a2 = 0xFFFF ∧
    onScreen (accepted 159 0 0xFFFF 0 0).a0.toInt (accepted 159 0 0xFFFF 0 0).a1.toInt := by decide
theorem witness_PointOffTheSurface :
    ((accepted 0xFFFF 0 0 0 0).a2 = 0x0000 ∧
      ¬ onScreen (accepted 0xFFFF 0 0 0 0).a0.toInt (accepted 0xFFFF 0 0 0 0).a1.toInt) ∧
    ((accepted 160 0 1 0 0).a2 = 0x0001 ∧
      ¬ onScreen (accepted 160 0 1 0 0).a0.toInt (accepted 160 0 1 0 0).a1.toInt) ∧
    ((accepted 0 160 0xFFFF 0 0).a2 = 0xFFFF ∧
      ¬ onScreen (accepted 0 160 0xFFFF 0 0).a0.toInt (accepted 0 160 0xFFFF 0 0).a1.toInt) := by decide
theorem witness_PointRefusesReservedOps : (accepted 5 5 0x011C 0 0).a2 ≠ 0x0000 ∧
    (accepted 5 5 0x011C 0 0).a2 ≠ 0x0001 ∧ (accepted 5 5 0x011C 0 0).a2 ≠ 0xFFFF ∧
    ∀ n : Nat, n ≤ 11 → (accepted 5 5 0x011C 0 0).a2.toNat ≠ 0x0100 + n ∧
      (accepted 5 5 0x011C 0 0).a2.toNat ≠ 0x0110 + n := by
  refine ⟨by decide, by decide, by decide, fun n h => ?_⟩
  have e : (accepted 5 5 0x011C 0 0).a2.toNat = 0x011C := by decide
  rw [e]
  omega
theorem witness_PointDrawsADot : (accepted 0 0 0x011B 0 0).displayReady = true ∧ 11 ≤ 11 ∧
    (accepted 0 0 0x011B 0 0).a2.toNat = 0x0100 + (if true then 0x10 else 0) + 11 ∧
    (accepted 0 0 0x0100 0 0).a2.toNat = 0x0100 + (if false then 0x10 else 0) + 0 := by decide
theorem witness_SetOrClearThenReadBack : (accepted 37 101 0 0 0).displayReady = true ∧
    ((0x0001 : Word) = 0x0000 ∨ (0x0001 : Word) = 0x0001) ∧
    onScreen (accepted 37 101 0 0 0).a0.toInt (accepted 37 101 0 0 0).a1.toInt := by decide
theorem witness_ReadwordReadsTheWord : (accepted 0 159 0 0 0).displayReady = true ∧
    onScreen (accepted 0 159 0 0 0).a0.toInt (accepted 0 159 0 0 0).a1.toInt := by decide
theorem witness_WritewordReplacesTheWord : (accepted 159 0 0xFFFF 0 0).displayReady = true ∧
    onScreen (accepted 159 0 0xFFFF 0 0).a0.toInt (accepted 159 0 0xFFFF 0 0).a1.toInt := by decide
theorem witness_WordAccessOffTheSurface :
    ¬ onScreen (accepted 0 160 0 0 0).a0.toInt (accepted 0 160 0 0 0).a1.toInt := by decide
theorem witness_WriteThenReadBack : (accepted 80 80 0x0020 0 0).displayReady = true ∧
    onScreen (accepted 80 80 0x0020 0 0).a0.toInt (accepted 80 80 0x0020 0 0).a1.toInt ∧
    causesClear (accepted 80 80 0x0020 0 0).status = true := by decide
theorem witness_BlankClearsItsRectangle : (accepted 158 0 4 2 0).displayReady = true ∧
    (158 : Int) = (accepted 158 0 4 2 0).a0.toInt ∧ (0 : Int) = (accepted 158 0 4 2 0).a1.toInt ∧
    (4 : Int) = (accepted 158 0 4 2 0).a2.toInt ∧ (2 : Int) = (accepted 158 0 4 2 0).a3.toInt := by decide
theorem witness_ShapesPaintTheirPoints :
    (Instr.circle ∈ shapeCommands ∧ (accepted 10 10 3 0x007B 0).displayReady = true ∧
      penValid (shapePen .circle (accepted 10 10 3 0x007B 0)) = true) ∧
    (Instr.rect ∈ shapeCommands ∧ penValid (shapePen .rect (accepted 0 0 3 3 0x0030)) = true) ∧
    (Instr.triangle ∈ shapeCommands ∧ penValid (shapePen .triangle (accepted 9 9 2 3 0x0050)) = true) ∧
    (Instr.star ∈ shapeCommands ∧ penValid (shapePen .star (accepted 9 9 3 4 0x0000)) = true) := by decide
theorem witness_ShapesRefuseInvalidPens : Instr.star ∈ shapeCommands ∧
    ¬ ((shapePen .star (accepted 0 0 0 0 0x0080)).toNat < 128 ∧
      (shapePen .star (accepted 0 0 0 0 0x0080)).toNat % 16 ≤ 11) ∧
    ¬ ((shapePen .circle (accepted 0 0 0 0x001C 0)).toNat < 128 ∧
      (shapePen .circle (accepted 0 0 0 0x001C 0)).toNat % 16 ≤ 11) := by decide
theorem witness_FilledCircleCoversItsRows : (0 : Int) ≤ 0 ∧ -(3 : Int) ≤ -3 ∧ (3 : Int) ≤ 3 ∧
    (10, 7) ∈ circlePoints 10 10 3 true := by decide
theorem witness_StarPoints : (17, 19) ∈ starPoints 20 20 3 4 false := by decide
theorem witness_BlitsRefuseReservedOperands :
    (Instr.bitimage ∈ blitCommands ∧ 2 < (blitMode .bitimage (accepted 0 0 0 3 0)).toNat) ∧
    (Instr.fillregion ∈ blitCommands ∧ blitMode .fillregion (accepted 0 0 1 1 1) = 1) ∧
    (Instr.wordimage ∈ blitCommands ∧ (accepted 0x0201 0 0 1 0).a0.toNat % 2 = 1) := by decide
/-- A host write that lands while the command runs, next to an image but not in it. -/
def racingAt (a : Nat) (s : State) : State := { s with racing := [(a, 0xFF)] }

/-- An empty area and one that leaves the surface by one column. -/
theorem witness_BlitsCheckTheirArea :
    (Instr.bitimage ∈ blitCommands ∧ (racingAt 2 (accepted 0 0 0 1 0)).quiet 0 (headerBytes .bitimage) ∧
      blitAccepts .bitimage (racingAt 2 (accepted 0 0 0 1 0)) = true ∧
      ¬ areaOnSurface (blitX .bitimage (racingAt 2 (accepted 0 0 0 1 0)))
        (blitY .bitimage (racingAt 2 (accepted 0 0 0 1 0))) (blitWidth .bitimage (racingAt 2 (accepted 0 0 0 1 0)))
        (blitHeight .bitimage (racingAt 2 (accepted 0 0 0 1 0)))) ∧
    ((accepted 158 0 3 1 2).quiet 158 (headerBytes .fillregion) ∧ blitAccepts .fillregion (accepted 158 0 3 1 2) = true ∧
      ¬ areaOnSurface (blitX .fillregion (accepted 158 0 3 1 2)) (blitY .fillregion (accepted 158 0 3 1 2))
        (blitWidth .fillregion (accepted 158 0 3 1 2)) (blitHeight .fillregion (accepted 158 0 3 1 2))) := by decide

/-- A 3x1 word-plane image and a 1x1 bit-plane image at 0x0200, each with a host write racing just behind it. -/
def imageState (m : Word) : State :=
  racingAt 0x0206 (withImage 0x0200 [0x03, 0x00, 0x01, 0x00, 0xFF, 0x00] (accepted 0x0200 157 0 m 0))
def columnState (m : Word) : State :=
  racingAt 0x0203 (withImage 0x0200 [0x01, 0x01, 0x80] (accepted 0x0200 159 159 m 0))

theorem witness_ConstantBlits :
    (Instr.fillregion ∈ blitCommands ∧ (accepted 0 0 160 160 2).displayReady = true ∧
      (accepted 0 0 160 160 2).quiet 0 (headerBytes .fillregion) ∧ blitMode .fillregion (accepted 0 0 160 160 2) = 2 ∧
      areaOnSurface (blitX .fillregion (accepted 0 0 160 160 2)) (blitY .fillregion (accepted 0 0 160 160 2))
        (blitWidth .fillregion (accepted 0 0 160 160 2)) (blitHeight .fillregion (accepted 0 0 160 160 2))) ∧
    ((imageState 0).quiet 0x0200 (headerBytes .wordimage) ∧
      blitMode .wordimage (imageState 0) = 0 ∧ (imageState 0).a0.toNat % 2 = 0 ∧
      areaOnSurface (blitX .wordimage (imageState 0)) (blitY .wordimage (imageState 0))
        (blitWidth .wordimage (imageState 0)) (blitHeight .wordimage (imageState 0))) ∧
    ((columnState 0).quiet 0x0200 (headerBytes .bitimage) ∧ blitMode .bitimage (columnState 0) = 0 ∧
      areaOnSurface (blitX .bitimage (columnState 0)) (blitY .bitimage (columnState 0))
        (blitWidth .bitimage (columnState 0)) (blitHeight .bitimage (columnState 0))) := by decide
theorem witness_BitimageDrawsTheImage : (columnState 1).displayReady = true ∧
    (columnState 1).quiet 0x0200
      (2 + (1 + 7) / 8 * ((columnState 1).imageByte ((columnState 1).a0.toNat + 1)).toNat) ∧
    (columnState 1).a3 = 1 ∧ 1 = ((columnState 1).imageByte (columnState 1).a0.toNat).toNat ∧
    areaOnSurface (columnState 1).a1.toInt (columnState 1).a2.toInt 1
      ((columnState 1).imageByte ((columnState 1).a0.toNat + 1)).toNat := by decide
theorem witness_WordimageDrawsThePayload : (imageState 1).displayReady = true ∧
    (imageState 1).quiet (imageState 1).a0.toNat (4 + 2 * planeReads (imageState 1).cfg
      (fun j => (imageState 1).imageWord ((imageState 1).a0.toNat + 4 + 2 * j)) (1 * 1) (1 * 1) 0) ∧
    (imageState 1).a3 = 1 ∧ (imageState 1).a0.toNat % 2 = 0 ∧
    3 = ((imageState 1).imageWord (imageState 1).a0.toNat).toNat ∧
    1 = ((imageState 1).imageWord ((imageState 1).a0.toNat + 2)).toNat ∧
    areaOnSurface (imageState 1).a1.toInt (imageState 1).a2.toInt 3 1 ∧ 1 = (3 + 2) / 3 ∧
    [0xFFDF] = (planeWords (imageState 1).cfg
      (fun j => (imageState 1).imageWord ((imageState 1).a0.toNat + 4 + 2 * j)) (1 * 1) 0).take (1 * 1) := by decide
theorem witness_ScreenFills : (accepted 0x0842 0 0 0 0).displayReady = true ∧
    (Instr.clear = .clear ∧ (0xFFDF : Word) = 0xFFDF) ∧
    (Instr.fillscreen = .fillscreen ∧ (0x0842 : Word) = (accepted 0x0842 0 0 0 0).a0) := by decide

end Sys2Proof.Tests
end

section
/-! What every command leaves of the state: the frame, STATUS and RESULT, and that BUSYERR does not disturb it (R24,
R27, R28). The key is one lemma that says how a command ends, whatever STATUS it finds. -/

namespace Sys2Proof.Machine

/-! ### How a command ends -/

/-- The commands that write RESULT: READWORD, and POINT with op READ (R24). -/
def writesResult (i : Instr) (s : State) : Prop := i = .readword ∨ (i = .point ∧ s.a2 = 0xFFFF)

/-- `F` ends a command started in `s` the same way whatever STATUS it finds: RESULT is `v`, and one run ends by
`finish`, or by `fail` with one cause. -/
def EndsAlike (s : State) (v : Word) (F : State → State) : Prop :=
  ∃ u, (∀ w, F { s with status := w } = (({ s with status := w } : State).setResult v).finish u) ∨
    ∃ f, ∀ w, F { s with status := w } = (({ s with status := w } : State).setResult v).fail f u

section
variable (s : State) (v : Word) (f : StatusField) (u : Run)

theorem EndsAlike.finish : EndsAlike s s.result fun t => t.finish u := ⟨u, .inl fun _ => rfl⟩

theorem EndsAlike.fail : EndsAlike s s.result fun t => t.fail f u := ⟨u, .inr ⟨f, fun _ => rfl⟩⟩

theorem EndsAlike.finishWith : EndsAlike s v fun t => (t.setResult v).finish u := ⟨u, .inl fun _ => rfl⟩

theorem EndsAlike.failWith : EndsAlike s v fun t => (t.setResult v).fail f u := ⟨u, .inr ⟨f, fun _ => rfl⟩⟩

end

/-- `EndsAlike` speaks of the states that differ from `s` in STATUS alone. -/
theorem EndsAlike.congr {s : State} {v : Word} {F G : State → State} (h : EndsAlike s v F)
    (e : ∀ w, G { s with status := w } = F { s with status := w }) : EndsAlike s v G := by
  obtain ⟨u, h | ⟨f, h⟩⟩ := h
  · exact ⟨u, .inl fun w => (e w).trans (h w)⟩
  · exact ⟨u, .inr ⟨f, fun w => (e w).trans (h w)⟩⟩

/-! ### No command reads STATUS -/

theorem run_withStatus (s : State) (w : Word) : ({ s with status := w } : State).run = s.run := rfl

theorem imgByte_withStatus (s : State) (w : Word) (n a : Nat) :
    ({ s with status := w } : State).imgByte n a = s.imgByte n a := rfl

theorem imgWord_withStatus (s : State) (w : Word) (n a : Nat) :
    ({ s with status := w } : State).imgWord n a = s.imgWord n a := rfl

theorem bitWord_withStatus (s : State) (w : Word) (p : Nat) (width : Int) :
    bitWord { s with status := w } p width = bitWord s p width := rfl

/-! ### One lemma per shared operation, then one case per command -/

theorem decodeOp_read_iff (a : Word) : decodeOp a = .single .read ↔ a = 0xFFFF := by
  constructor
  · intro h
    rw [decodeOp] at h
    split at h
    · cases h
    · split at h
      · cases h
      · split at h
        · assumption
        · split at h <;> cases h
  · rintro rfl
    decide

theorem blitChecked_endsAlike {s : State} {F : State → State} (x y w h : Int) (hF : EndsAlike s s.result F) :
    EndsAlike s s.result fun t => blitChecked t x y w h (F t) := by
  cases hc : blitCheck x y w h with
  | empty => exact (EndsAlike.finish s s.run).congr fun w => by simp only [blitChecked, hc, run_withStatus]
  | offSurface => exact (EndsAlike.fail s .range s.run).congr fun w => by simp only [blitChecked, hc, run_withStatus]
  | onSurface => exact hF.congr fun w => by simp only [blitChecked, hc]

theorem drawShape_endsAlike (s : State) (pen : Word) (pts : List (Int × Int)) :
    EndsAlike s s.result fun t => drawShape t pen pts := by
  cases hp : penValid pen with
  | true =>
    refine (EndsAlike.finish s (plotAll s.cfg (decodeOp (penOp pen)) pts s.run)).congr fun w => ?_
    rw [drawShape, if_pos hp]
    rfl
  | false =>
    refine (EndsAlike.fail s .illegal s.run).congr fun w => ?_
    rw [drawShape, if_neg (by simp [hp])]
    rfl

theorem drawWordPlane_endsAlike (s : State) (p : Nat) (x y w h : Int) :
    EndsAlike s s.result fun t => drawWordPlane t p x y w h := by
  have e : ∀ w', drawWordPlane { s with status := w' } p x y w h =
      match blitRows s.cfg (blitColumn x w) y (blitWords w) (fun _ _ d => nextWord s d) (List.range h.toNat)
        (Decoder.start s p) s.run with
      | (some _, u) => ({ s with status := w' } : State).finish u
      | (none, u) => ({ s with status := w' } : State).fail .badimg u := fun _ => rfl
  rcases hb : blitRows s.cfg (blitColumn x w) y (blitWords w) (fun _ _ d => nextWord s d) (List.range h.toNat)
    (Decoder.start s p) s.run with ⟨d | d, u⟩
  · refine (EndsAlike.fail s .badimg u).congr fun w' => ?_
    rw [e, hb]
  · refine (EndsAlike.finish s u).congr fun w' => ?_
    rw [e, hb]

/-- A blit of one constant or packed word source, after its area check. -/
theorem blitPure_endsAlike (s : State) (x y w h : Int) (f : Nat → Nat → Word) :
    EndsAlike s s.result fun t => blitChecked t x y w h (t.finish (blitPure s.cfg x y w h f s.run)) :=
  blitChecked_endsAlike x y w h (.finish s (blitPure s.cfg x y w h f s.run))

/-- Every command ends the same way whatever STATUS it finds, and writes RESULT only if it is one of the two that do
(R24, R27). -/
theorem exec_endsAlike (i : Instr) (s : State) : ∃ v F, (¬ writesResult i s → v = s.result) ∧ EndsAlike s v F ∧
    ∀ w, exec i { s with status := w } = .next (F { s with status := w }) := by
  cases i with
  | nop => exact ⟨s.result, _, fun _ => rfl, .finish s s.run, fun _ => rfl⟩
  | setaddr =>
    exact ⟨s.result, _, fun _ => rfl,
      .finish s (setAddress s.cfg (u8lo s.a0).toNat (u8lo s.a1).toNat s.run), fun _ => rfl⟩
  | point =>
    cases hd : decodeOp s.a2 with
    | reserved =>
      refine ⟨s.result, _, fun _ => rfl, .fail s .illegal s.run, fun w => ?_⟩
      simp only [exec, execPoint, hd]
      rfl
    | composite d code =>
      refine ⟨s.result, _, fun _ => rfl,
        .finish s (plot s.cfg (sext16 s.a0) (sext16 s.a1) (.composite d code) s.run), fun w => ?_⟩
      simp only [exec, execPoint, hd]
      rfl
    | single k =>
      refine ⟨if k = .read then readResult (singleValue s.cfg (sext16 s.a0) (sext16 s.a1) s.run) else s.result, _,
        fun hn => if_neg ?_, .finishWith s _ (plot s.cfg (sext16 s.a0) (sext16 s.a1) (.single k) s.run), fun w => ?_⟩
      · rintro rfl
        exact hn (.inr ⟨rfl, (decodeOp_read_iff _).mp hd⟩)
      · cases k <;> simp only [exec, execPoint, hd] <;> rfl
  | readword =>
    cases hr : inRange (sext16 s.a0) (sext16 s.a1) with
    | true =>
      refine ⟨rmwWord (rmwOpen s.cfg (sext16 s.a0) (sext16 s.a1) s.run), _, fun hn => absurd (.inl rfl) hn,
        .finishWith s _ (busCmd s.cfg s.cfg.cmdRmwout (rmwReads (rmwOpen s.cfg (sext16 s.a0) (sext16 s.a1) s.run))),
        fun w => ?_⟩
      simp only [exec, execReadword, hr, if_true]
      rfl
    | false =>
      refine ⟨resultSentinel, _, fun hn => absurd (.inl rfl) hn, .failWith s _ .range s.run, fun w => ?_⟩
      simp only [exec, execReadword, hr, Bool.false_eq_true, if_false]
      rfl
  | writeword =>
    cases hr : inRange (sext16 s.a0) (sext16 s.a1) with
    | true =>
      refine ⟨s.result, _, fun _ => rfl, .finish s (busDataWord s.a2
        (busCmd s.cfg s.cfg.cmdRamwr (setAddress s.cfg (159 - sext16 s.a0) (sext16 s.a1) s.run))), fun w => ?_⟩
      simp only [exec, execWriteword, hr, if_true]
      rfl
    | false =>
      refine ⟨s.result, _, fun _ => rfl, .fail s .range s.run, fun w => ?_⟩
      simp only [exec, execWriteword, hr, Bool.false_eq_true, if_false]
      rfl
  | blank =>
    exact ⟨s.result, _, fun _ => rfl, .finish s (singleAll s.cfg .clear
      (areaPoints (sext16 s.a0) (sext16 s.a1) (sext16 s.a2) (sext16 s.a3)) s.run), fun _ => rfl⟩
  | circle =>
    exact ⟨_, _, fun _ => rfl, drawShape_endsAlike s s.a3
      (circlePoints (sext16 s.a0) (sext16 s.a1) (sext16 s.a2) (penFill s.a3)), fun _ => rfl⟩
  | rect =>
    exact ⟨_, _, fun _ => rfl, drawShape_endsAlike s s.a4
      (rectPoints (sext16 s.a0) (sext16 s.a1) (sext16 s.a2) (sext16 s.a3) (penFill s.a4)), fun _ => rfl⟩
  | triangle =>
    exact ⟨_, _, fun _ => rfl, drawShape_endsAlike s s.a4 (trianglePoints (sext16 s.a0) (sext16 s.a1) (sext16 s.a2)
      (sext16 s.a3) (penFill s.a4) (penOrient s.a4)), fun _ => rfl⟩
  | star =>
    exact ⟨_, _, fun _ => rfl, drawShape_endsAlike s s.a4
      (starPoints (sext16 s.a0) (sext16 s.a1) (sext16 s.a2) (sext16 s.a3) (penFill s.a4)), fun _ => rfl⟩
  | bitimage =>
    cases hm : decodeMode s.a3 with
    | none =>
      refine ⟨_, _, fun _ => rfl, .fail s .illegal s.run, fun w => ?_⟩
      simp only [exec, execBitimage, run_withStatus, hm]
    | some mode =>
      cases mode <;> simp only [exec, execBitimage, run_withStatus, imgByte_withStatus, bitWord_withStatus, hm] <;>
        exact ⟨_, _, fun _ => rfl, blitPure_endsAlike .., fun _ => rfl⟩
  | wordimage =>
    cases hm : decodeMode s.a3 with
    | none =>
      refine ⟨_, _, fun _ => rfl, .fail s .illegal s.run, fun w => ?_⟩
      simp only [exec, execWordimage, run_withStatus, hm]
    | some mode =>
      cases ho : s.a0.getLsbD 0 with
      | true =>
        refine ⟨_, _, fun _ => rfl, .fail s .illegal s.run, fun w => ?_⟩
        simp only [exec, execWordimage, run_withStatus, hm, ho, if_true]
      | false =>
        simp only [exec, execWordimage, run_withStatus, imgWord_withStatus, hm, ho, Bool.false_eq_true, if_false]
        cases mode with
        | blank => exact ⟨_, _, fun _ => rfl, blitPure_endsAlike .., fun _ => rfl⟩
        | fill => exact ⟨_, _, fun _ => rfl, blitPure_endsAlike .., fun _ => rfl⟩
        | draw =>
          exact ⟨_, _, fun _ => rfl, blitChecked_endsAlike _ _ _ _ (drawWordPlane_endsAlike s ..), fun _ => rfl⟩
  | fillregion =>
    have hfail : EndsAlike s s.result fun t => t.fail .illegal s.run := .fail s .illegal s.run
    cases hm : decodeMode s.a4 with
    | none => exact ⟨_, _, fun _ => rfl, hfail, fun w => by simp only [exec, execFillregion, run_withStatus, hm]⟩
    | some mode =>
      simp only [exec, execFillregion, run_withStatus, hm]
      cases mode with
      | draw => exact ⟨_, _, fun _ => rfl, hfail, fun _ => rfl⟩
      | blank => exact ⟨_, _, fun _ => rfl, blitPure_endsAlike .., fun _ => rfl⟩
      | fill => exact ⟨_, _, fun _ => rfl, blitPure_endsAlike .., fun _ => rfl⟩
  | clear =>
    refine ⟨s.result, _, fun _ => rfl, .finish s (fillAll s.cfg wordOff s.run), fun w => ?_⟩
    simp only [exec, execClear, run_withStatus]
  | fillscreen =>
    refine ⟨s.result, _, fun _ => rfl, .finish s (fillAll s.cfg s.a0 s.run), fun w => ?_⟩
    simp only [exec, execFillscreen, run_withStatus]

/-- The same of a command that answers `t`: its run, RESULT and cause are those it has beside any other STATUS. -/
theorem exec_ends {i : Instr} {s t : State} (h : exec i s = .next t) :
    ∃ v u, (¬ writesResult i s → v = s.result) ∧
      ((t = (s.setResult v).finish u ∧
          ∀ w, exec i { s with status := w } = .next ((({ s with status := w } : State).setResult v).finish u)) ∨
        ∃ f, t = (s.setResult v).fail f u ∧
          ∀ w, exec i { s with status := w } = .next ((({ s with status := w } : State).setResult v).fail f u)) := by
  obtain ⟨v, F, hv, ⟨u, hF | ⟨f, hF⟩⟩, he⟩ := exec_endsAlike i s
  · have hall := fun w => (he w).trans (congrArg _ (hF w))
    cases h.symm.trans (hall s.status)
    exact ⟨v, u, hv, .inl ⟨rfl, hall⟩⟩
  · have hall := fun w => (he w).trans (congrArg _ (hF w))
    cases h.symm.trans (hall s.status)
    exact ⟨v, u, hv, .inr ⟨f, rfl, hall⟩⟩

/-! ### BUSYERR and the running command -/

theorem statusSet_comm (f g : StatusField) (w : Word) : statusSet f (statusSet g w) = statusSet g (statusSet f w) := by
  rw [statusSet, statusSet, statusSet, statusSet, BitVec.or_assoc, BitVec.or_comm (statusMask g), ← BitVec.or_assoc]

/-- Completion clears BUSY alone, so it leaves BUSYERR where it is (R27). -/
theorem statusComplete_busyerr (w : Word) :
    statusComplete (statusSet .busyerr w) = statusSet .busyerr (statusComplete w) :=
  status_ext (fun f => by cases f <;> simp) (by simp)

/-- A command that ends by `finish` does so beside BUSYERR. -/
theorem finish_busyError (s : State) (u : Run) : s.busyError.finish u = (s.finish u).busyError := by
  have e : (s.busyError.finish u).status = (s.finish u).busyError.status := by
    simp only [finish_status, busyError_status, ← statusComplete_busyerr]
    split
    · rw [statusSet_comm]
    · rfl
  exact congrArg (fun w => ({ s.finish u with status := w } : State)) e

/-- A command that ends by `fail` does so beside BUSYERR. -/
theorem fail_busyError (s : State) (f : StatusField) (u : Run) : s.busyError.fail f u = (s.fail f u).busyError := by
  have e : (s.busyError.fail f u).status = (s.fail f u).busyError.status := by
    simp only [fail_status, busyError_status, ← statusComplete_busyerr, statusSet_comm .busyerr f]
    split
    · rw [statusSet_comm .range]
    · rfl
  exact congrArg (fun w => ({ s.fail f u with status := w } : State)) e

/-- A host write that lands in a running command sets BUSYERR and does not disturb it (R28). -/
theorem exec_busyError {i : Instr} {s t : State} (h : exec i s = .next t) :
    exec i s.busyError = .next t.busyError := by
  obtain ⟨v, u, -, ⟨rfl, he⟩ | ⟨f, rfl, he⟩⟩ := exec_ends h
  · exact (he _).trans (congrArg _ (finish_busyError (s.setResult v) u))
  · exact (he _).trans (congrArg _ (fail_busyError (s.setResult v) f u))

/-! ### The frame of a command -/

/-- A completed command leaves the block idle, with no race pending (R27, R75). -/
theorem Completed.idle {s t : State} (h : Completed s t) : t.busy = false ∧ t.racing = [] := by
  obtain ⟨v, u, hc⟩ := h
  obtain ⟨-, -, -, -, hra, -, -, w, ht, -⟩ := hc.fields
  exact ⟨by simp [State.busy, ht], hra⟩

/-- Settles O27: a completed command's fields, whichever way it ended. -/
theorem everyCommandCompletes : Obligations.EveryCommandCompletes := by
  intro i s
  obtain ⟨t, ht, hdone⟩ := exec_completes i s
  have hidle := hdone.idle
  obtain ⟨v, u, hc⟩ := hdone
  obtain ⟨hrc, htr, -, himg, -, hraces, hside, w, hst, hw⟩ := hc.fields
  obtain ⟨⟨evs, htrace, hreplay, -⟩, -⟩ := hc.emits
  refine ⟨t, evs, ht, ⟨hside, himg, hidle.2, hraces⟩, hidle.1, ?_, htr.trans htrace, hrc.trans hreplay⟩
  rcases hw with hw | ⟨-, f, hf, hw⟩
  · cases hr : u.range with
    | true => exact ⟨some .range, by simp, by rw [hst, hw, hr]; rfl⟩
    | false => exact ⟨none, by simp, by rw [hst, hw, hr]; rfl⟩
  · exact ⟨some f, by rcases hf with rfl | rfl | rfl <;> simp, by rw [hst, hw]; rfl⟩

/-! ### RESULT -/

/-- A command that does not read leaves RESULT (R24). -/
theorem exec_keeps_result {i : Instr} {s t : State} (hn : ¬ writesResult i s) (h : exec i s = .next t) :
    t.result = s.result := by
  obtain ⟨v, u, hv, ⟨rfl, -⟩ | ⟨f, rfl, -⟩⟩ := exec_ends h
  · exact hv hn
  · exact hv hn

/-- POINT READ writes what the single-point read returns (R128). -/
theorem pointRead_result {s t : State} (ha : s.a2 = 0xFFFF) (h : exec .point s = .next t) :
    t.result = readResult (singleValue s.cfg s.a0.toInt s.a1.toInt s.run) := by
  have hd : decodeOp s.a2 = .single .read := (decodeOp_read_iff _).mpr ha
  simp only [exec, execPoint, hd] at h
  cases h
  rfl

/-- READWORD on the surface writes the display word of the addressed pixel (R131). -/
theorem readword_result {s t : State} (hs : onScreen s.a0.toInt s.a1.toInt) (hready : s.displayReady = true)
    (h : exec .readword s = .next t) : t.result = s.wordOf s.a0.toInt s.a1.toInt := by
  simp only [State.displayReady, Bool.and_eq_true] at hready
  obtain ⟨-, hw, hm⟩ := ready_iff.mp hready.2
  have hr : inRange (sext16 s.a0) (sext16 s.a1) = true := inRange_iff.mpr hs
  have hopen : (rmwOpen s.cfg (sext16 s.a0) (sext16 s.a1) s.run).rc =
      rmwOpened s.cfg (sext16 s.a0) (sext16 s.a1) s.rc := rmwOpen_rc (configWf_distinct hready.1) _ _ hw hm
  simp only [exec, execReadword, hr, if_true] at h
  cases h
  calc rmwWord (rmwOpen s.cfg (sext16 s.a0) (sext16 s.a1) s.run)
      = pixelWord s.a0.toInt s.a1.toInt s.rc.dram := rmwWord_open _ _ hopen
    _ = s.wordOf s.a0.toInt s.a1.toInt := pixelWord_eq hs _

/-- READWORD off the surface writes the sentinel (R24, R131). -/
theorem readword_off_result {s t : State} (hs : ¬ onScreen s.a0.toInt s.a1.toInt) (h : exec .readword s = .next t) :
    t.result = 0xFFFF := by
  have hr : inRange (sext16 s.a0) (sext16 s.a1) = false := Bool.eq_false_iff.mpr fun e => hs (inRange_iff.mp e)
  simp only [exec, execReadword, hr, Bool.false_eq_true, if_false] at h
  cases h
  rfl

/-- Settles O28: the commands that do not read, then POINT READ and READWORD on and off the surface. -/
theorem resultIsWrittenByReadsAlone : Obligations.ResultIsWrittenByReadsAlone := by
  intro i s t h
  refine ⟨fun hi hp => exec_keeps_result (fun hw => hw.elim hi hp) h, ?_, ?_, ?_⟩
  · rintro rfl ha hs
    rw [pointRead_result ha h, singleValue, if_pos (inRange_iff.mpr hs)]
    cases rmwWord (rmwOpen s.cfg s.a0.toInt s.a1.toInt s.run) &&& fieldMask s.cfg (fieldIndex s.a0.toInt) == 0 with
    | true => exact .inr rfl
    | false => exact .inl rfl
  · rintro rfl hs hready
    exact readword_result hs hready h
  · rintro (rfl | ⟨rfl, ha⟩) hs
    · exact readword_off_result hs h
    · rw [pointRead_result ha h, singleValue, if_neg fun e => hs (inRange_iff.mp e)]
      rfl

end Sys2Proof.Machine
end

section
/-! The host port (R20 to R29), the step (R27, R30) and the reset (R41, R42). -/

namespace Sys2Proof.Machine

/-! ### The step -/

theorem step_of_running {s : State} (hb : s.busy = true) (hf : s.hostFirst = false) : step s = runCommand s := by
  simp [step, hb, hf]

/-- Where the host's next action comes first, or the block is idle, the step is the host's. -/
theorem step_of_hostStep {s : State} (h : s.busy = true → s.hostFirst = true) : step s = hostStep s := by
  rw [step, if_neg]
  simpa using h

theorem step_of_action {s : State} {e : HostEvent} {es : List HostEvent} (hh : s.host = e :: es)
    (he : s.busy = true → e.early = true) :
    step s = hostAct e.act (State.noteSoFar e.noted { s with host := es }) := by
  rw [step_of_hostStep fun hb => by simpa [State.hostFirst, hh] using he hb, hostStep, hh]

theorem runCommand_of_decode {s : State} {i : Instr} (hd : decode s.cmd = .command i) : runCommand s = exec i s := by
  rw [runCommand, State.fetch, hd]

theorem decode_encode (i : Instr) : decode (encode i) = .command i := by
  cases i <;> decide

theorem withFetchWord_busy (s : State) (n w : Nat) : (s.withFetchWord n w).busy = true :=
  statusGet_accept .busy s.status

theorem withFetchWord_hostFirst (s : State) (n w : Nat) : (s.withFetchWord n w).hostFirst = false := by
  rw [State.withFetchWord, State.hostFirst]
  cases s.host <;> rfl

theorem withFetchWord_encode (s : State) (n : Nat) (i : Instr) :
    (s.withFetchWord n (encode i).toNat).cmd = encode i := BitVec.ofNat_toNat ..

/-- Settles O9: the two ways a step can go, and that `withFetchWord` chooses the first. -/
theorem stepRunsTheDecodedCommand : Obligations.StepRunsTheDecodedCommand := by
  refine ⟨fun s i hb hf hd => ?_, fun s i => ?_, fun s e es hh he => step_of_action hh he, fun s hb hh => ?_⟩
  · rw [step_of_running hb hf, runCommand_of_decode hd]
  · rw [step_of_running (withFetchWord_busy ..) (withFetchWord_hostFirst ..), runCommand_of_decode]
    rw [withFetchWord_encode, decode_encode]
  · rw [step_of_hostStep (by simp [hb]), hostStep, hh]

/-! ### Register writes -/

theorem hostWrite_idle {s : State} (hb : s.busy = false) (off : BitVec 4) (v : Word) :
    s.hostWrite off v = s.idleWrite off v := by
  simp [State.hostWrite, hb]

theorem hostWrite_busy {s : State} (hb : s.busy = true) (off : BitVec 4) (v : Word) :
    s.hostWrite off v = s.busyWrite off := by
  simp [State.hostWrite, hb]

/-- A write of CMD while idle is accepted (R21). -/
theorem hostAct_write_cmd {s : State} (hb : s.busy = false) (v : Word) :
    hostAct (.write 0 v) s = .next (s.accept v) := by
  rw [hostAct, hostWrite_idle hb]
  rfl

/-- Settles O11: acceptance, field by field of STATUS. -/
theorem acceptanceStartsACommand : Obligations.AcceptanceStartsACommand := fun s v hb =>
  ⟨s.accept v, hostAct_write_cmd hb v, rfl, rfl, statusGet_accept .busy _, statusGet_accept .range _,
    statusGet_accept .illegal _, statusGet_accept .badimg _, statusGet_accept .busyerr _, statusAccept_reserved _⟩

/-- The operand registers (R20, R22). -/
def operandRegs : List HostReg := [.a0, .a1, .a2, .a3, .a4, .a5]

/-! The register map of R20, as far as the proofs below need it. -/

theorem hostReg_operand_iff (off : BitVec 4) : hostReg off ∈ operandRegs ↔ 1 ≤ off.toNat ∧ off.toNat ≤ 6 := by
  revert off
  decide

theorem hostReg_cmd_iff (off : BitVec 4) : hostReg off = .cmd ↔ off.toNat = 0 := by
  revert off
  decide

theorem hostReg_operand_inj {o off : BitVec 4} (h : hostReg off ∈ operandRegs) (e : hostReg o = hostReg off) :
    o = off := by
  revert o off
  decide

theorem hostReg_reserved {off : BitVec 4} (h : 9 ≤ off.toNat) : hostReg off = .reserved := by
  revert off
  decide

/-- RESULT, STATUS and the reserved offsets take no write (R29). -/
theorem hostReg_readOnly {off : BitVec 4} (h : 7 ≤ off.toNat) : hostReg off ∈ [.result, .status, .reserved] := by
  revert off
  decide

/-- A busy write of CMD or an operand register sets BUSYERR (R28). -/
theorem busyWrite_of_le {s : State} {off : BitVec 4} (h : off.toNat ≤ 6) : s.busyWrite off = s.busyError := by
  have hreg : hostReg off = .cmd ∨ hostReg off ∈ operandRegs := by
    rw [hostReg_cmd_iff, hostReg_operand_iff]
    omega
  rw [State.busyWrite]
  cases hr : hostReg off <;> simp [hr, operandRegs] at hreg ⊢

section
variable {s : State} {off : BitVec 4} {v : Word} (h : hostReg off ∈ operandRegs)
include h

theorem hostRead_idleWrite_same : (s.idleWrite off v).hostRead off = v := by
  rw [State.hostRead, State.idleWrite]
  cases hr : hostReg off <;> simp [hr, operandRegs] at h ⊢

theorem hostRead_idleWrite_other {o : BitVec 4} (ho : o ≠ off) : (s.idleWrite off v).hostRead o = s.hostRead o := by
  have hne : hostReg o ≠ hostReg off := fun e => ho (hostReg_operand_inj h e)
  rw [State.hostRead, State.hostRead, State.idleWrite]
  cases hr : hostReg off <;> simp [hr, operandRegs] at h <;> split <;> simp_all

theorem idleWrite_operand_frame : s.idleWrite off v =
    { s with a0 := (s.idleWrite off v).a0, a1 := (s.idleWrite off v).a1, a2 := (s.idleWrite off v).a2,
             a3 := (s.idleWrite off v).a3, a4 := (s.idleWrite off v).a4, a5 := (s.idleWrite off v).a5 } := by
  rw [State.idleWrite]
  cases hr : hostReg off <;> simp [hr, operandRegs] at h ⊢

end

/-- Settles O12: the write, the command that goes on, and the next acceptance. -/
theorem busyWritesOnlySetBusyerr : Obligations.BusyWritesOnlySetBusyerr := by
  refine ⟨fun s off v hb ho => ?_, fun i s t h => exec_busyError h, fun s t v hb h => ?_⟩
  · rw [hostAct, hostWrite_busy hb, busyWrite_of_le ho]
    rfl
  · cases h.symm.trans (hostAct_write_cmd hb v)
    exact statusGet_accept .busyerr _

/-- Settles O13: the register written, the others, and the rest of the state. -/
theorem operandRegistersHoldWhatTheHostWrites : Obligations.OperandRegistersHoldWhatTheHostWrites := by
  intro s off v hb h1 h6
  have hreg : hostReg off ∈ operandRegs := (hostReg_operand_iff off).mpr ⟨h1, h6⟩
  exact ⟨s.idleWrite off v, by rw [hostAct, hostWrite_idle hb], hostRead_idleWrite_same hreg,
    fun o ho => hostRead_idleWrite_other hreg ho, idleWrite_operand_frame hreg⟩

/-! ### Read-only offsets and reads -/

/-- Writes at the read-only and reserved offsets are ignored, busy or idle (R29). -/
theorem hostWrite_readOnly {off : BitVec 4} (h : 7 ≤ off.toNat) (s : State) (v : Word) : s.hostWrite off v = s := by
  have hreg := hostReg_readOnly h
  cases hb : s.busy with
  | true =>
    rw [hostWrite_busy hb, State.busyWrite]
    cases hr : hostReg off <;> simp [hr] at hreg ⊢
  | false =>
    rw [hostWrite_idle hb, State.idleWrite]
    cases hr : hostReg off <;> simp [hr] at hreg ⊢

/-- The machine's test for a RANGE the running command notes is what the claims mean by it (R222, R247). -/
theorem notesRange_iff_willNote (s : State) : s.notesRange = true ↔ s.willNote := by
  have hwith : ∀ i, s.notesWith i = true ↔ i ∈ notingCommands ∧ ∃ t,
      exec i { s with status := statusAccept s.status } = .next t ∧ statusGet .range t.status = true := by
    intro i
    obtain ⟨t, ht, -⟩ := exec_completes i { s with status := statusAccept s.status }
    simp [State.notesWith, ht, notesKind_iff]
  rw [State.notesRange, State.willNote, State.fetch]
  cases hd : decode s.cmd with
  | command i =>
    constructor
    · intro h
      obtain ⟨hi, t, ht, hr⟩ := (hwith i).mp h
      exact ⟨i, t, hi, rfl, ht, hr⟩
    · rintro ⟨j, t, hj, e, ht, hr⟩
      cases e
      exact (hwith _).mpr ⟨hj, t, ht, hr⟩
  | reservedHigh => simp
  | reservedOpcode => simp

/-- What the running command will note does not depend on the host's script. -/
theorem willNote_host (s : State) (es : List HostEvent) : ({ s with host := es } : State).willNote ↔ s.willNote := by
  rw [← notesRange_iff_willNote, ← notesRange_iff_willNote]
  exact iff_of_eq (congrArg (· = true) (notesRange_touched s s.status s.racing s.hostData es))

/-- An action of the script finds RANGE noted exactly if it is marked so and the running command will note it. -/
theorem noteSoFar_of_noted {s : State} {noted : Bool} (hb : s.busy = true) (h : noted = true ∧ s.willNote) :
    s.noteSoFar noted = { s with status := statusSet .range s.status } := by
  rw [State.noteSoFar, if_pos]
  simp [h.1, hb, (notesRange_iff_willNote s).mpr h.2]

theorem noteSoFar_of_not_noted {s : State} {noted : Bool} (h : ¬ (noted = true ∧ s.willNote)) :
    s.noteSoFar noted = s := by
  rw [State.noteSoFar, if_neg]
  rw [← notesRange_iff_willNote] at h
  simp only [Bool.and_eq_true]
  exact fun e => h ⟨e.1.1, e.2⟩

/-- Settles O14: ignored writes, what a read gives, idle or in a running command, and that the command goes on as it
would have. -/
theorem readOnlyAndReservedOffsets : Obligations.ReadOnlyAndReservedOffsets := by
  refine ⟨fun s off => ⟨fun v h => ?_, fun h => ?_, rfl⟩, fun s noted off es hb hh => ?_, runCommand_noteSoFar⟩
  · rw [hostAct, hostWrite_readOnly h]
  · rw [State.hostRead, hostReg_reserved h]
  · have hstep := step_of_action hh fun _ => rfl
    rw [← willNote_host s es]
    constructor
    · intro hn hw
      rw [hstep, noteSoFar_of_noted (s := { s with host := es }) hb ⟨hn, hw⟩]
      rfl
    · intro hn
      rw [hstep, noteSoFar_of_not_noted (s := { s with host := es }) hn]
      rfl

/-! ### Reset -/

/-- A reset while idle keeps the controller (R42). -/
theorem hostAct_reset_idle {s : State} (hb : s.busy = false) (n : Nat) :
    hostAct (.reset n) s = .next (s.lgbReset s.rc []) := by
  simp [hostAct, hb]

/-- A reset in a running command keeps the first `n` events of the trace the command would have emitted (R42). -/
theorem hostAct_reset_busy {s c : State} (hb : s.busy = true) (hc : runCommand { s with trace := [] } = .next c)
    (n : Nat) : hostAct (.reset n) s = .next (s.lgbReset (s.rc.replay s.cfg (c.trace.take n)) (c.trace.take n)) := by
  rw [hostAct, if_pos hb, State.resetRunning, hc]

/-- What a reset answers: a reset state, the controller where some bus events of the running command left it, none of
them while idle (R42). -/
theorem hostAct_reset (s : State) (n : Nat) :
    ∃ evs, hostAct (.reset n) s = .next (s.lgbReset (s.rc.replay s.cfg evs) evs) := by
  cases hb : s.busy with
  | true =>
    obtain ⟨c, hc, -⟩ := runCommand_completes { s with trace := [] }
    exact ⟨_, hostAct_reset_busy hb hc n⟩
  | false => exact ⟨[], hostAct_reset_idle hb n⟩

theorem lgbReset_busy (s : State) (rc : Controller) (evs : List BusEvent) : (s.lgbReset rc evs).busy = false := by
  rw [State.busy, lgbReset_status]
  decide

/-- Settles O15: every answer of a reset is an `lgbReset`. -/
theorem resetValues : Obligations.ResetValues := by
  refine ⟨fun s n => ?_, rfl, rfl, rfl, rfl, rfl, rfl, rfl, rfl, rfl, rfl⟩
  obtain ⟨evs, h⟩ := hostAct_reset s n
  exact ⟨_, h, rfl, rfl, rfl, rfl, rfl, rfl, rfl, rfl, rfl, lgbReset_busy .., rfl⟩

/-- Settles O16: the first `n` events are what a reset after `n` events leaves, and each beginning of the trace is its
first `n` events for its own length. -/
theorem resetCutsACommandAtAPrefix : Obligations.ResetCutsACommandAtAPrefix := by
  refine ⟨fun s n hb => ⟨_, hostAct_reset_idle hb n, rfl, rfl⟩, fun s hb => ?_⟩
  obtain ⟨c, hc, -⟩ := runCommand_completes { s with trace := [] }
  refine ⟨c, hc, fun n => ⟨_, hostAct_reset_busy hb hc n, rfl, rfl, rfl⟩, ?_⟩
  rintro p ⟨q, hq⟩
  have htake : c.trace.take p.length = p := by rw [← hq, List.take_left]
  refine ⟨p.length, _, hostAct_reset_busy hb hc p.length, ?_⟩
  rw [htake]
  exact ⟨rfl, rfl⟩

end Sys2Proof.Machine
end

section
/-! The invariant of every state a run can reach: what keeps it, action by action, and that every step does (R25, R45,
R75, R228, R247). -/

namespace Sys2Proof.Machine

/-- The invariant in the terms of its rules: memories (R53, R58), STATUS (R25, R228), races (R75), and what a running
command's trace (R45) and RANGE (R247) look like. -/
theorem inv_iff {s : State} : s.inv = true ↔
    s.memoriesWf = true ∧ statusWf s.status = true ∧ (∀ c ∈ s.racing, c.1 < imgSize s.cfg) ∧
      (s.busy = true → s.trace = [] ∧ (statusGet .range s.status = true → s.notesRange = true)) ∧
      (s.busy = false → s.racing = []) := by
  cases hb : s.busy <;> cases hr : statusGet .range s.status <;>
    simp [State.inv, State.commandWf, hb, hr, and_assoc]

/-- An idle state needs no more than legal memories, a legal STATUS and no race. -/
theorem inv_of_idle {s : State} (hb : s.busy = false) (hm : s.memoriesWf = true) (hst : statusWf s.status = true)
    (hr : s.racing = []) : s.inv = true :=
  inv_iff.mpr ⟨hm, hst, by simp [hr], by simp [hb], fun _ => hr⟩

/-- A running command stays sound through a host action that leaves STATUS legal and busy, adds no RANGE but a noted
one, and races inside image memory alone. -/
theorem inv_touched {s : State} (hs : s.inv = true) (hb : s.busy = true) {w : Word} {ra : List Host.Cell}
    (hd : Option Word) (ho : List HostEvent) (hw : statusWf w = true) (hwb : statusGet .busy w = true)
    (hwr : statusGet .range w = true → s.notesRange = true) (hra : ∀ c ∈ ra, c.1 < imgSize s.cfg) :
    (s.touched w ra hd ho).inv = true := by
  obtain ⟨hm, -, -, hrun, -⟩ := inv_iff.mp hs
  refine inv_iff.mpr ⟨hm, hw, hra, fun _ => ⟨(hrun hb).1, ?_⟩, fun hi => ?_⟩
  · rw [notesRange_touched]
    exact hwr
  · exact absurd hwb (by simpa [State.busy, State.touched] using hi)

/-- The host's script and its last read are no part of the invariant. -/
theorem inv_hostSide {s : State} (hs : s.inv = true) (hd : Option Word) (es : List HostEvent) :
    ({ s with hostData := hd, host := es } : State).inv = true := by
  obtain ⟨hm, hst, hra, hrun, hidle⟩ := inv_iff.mp hs
  have hn : ({ s with hostData := hd, host := es } : State).notesRange = s.notesRange :=
    notesRange_touched s s.status s.racing hd es
  exact inv_iff.mpr ⟨hm, hst, hra, by rw [hn]; exact hrun, hidle⟩

/-- Noting the running command's RANGE early keeps the invariant (R247). -/
theorem inv_noteSoFar {s : State} (hs : s.inv = true) (noted : Bool) : (s.noteSoFar noted).inv = true := by
  rcases noteSoFar_cases s noted with e | ⟨hb, hn, e⟩
  · rw [e]
    exact hs
  · rw [e]
    obtain ⟨-, hst, hra, -, -⟩ := inv_iff.mp hs
    exact inv_touched hs hb s.hostData s.host (statusWf_noted hst hb) (by simpa [State.busy] using hb)
      (fun _ => hn) hra

/-- A running command that notes RANGE ends by `finish` (R15, R222). -/
theorem notesRange_finishes {s : State} (h : s.notesRange = true) :
    ∃ v u, runCommand s = .next ((s.setResult v).finish u) := by
  rw [State.notesRange] at h
  split at h
  · rename_i i hd
    obtain ⟨v, u, -, hu⟩ := notesWith_finishes h
    refine ⟨v, u, ?_⟩
    rw [runCommand, hd]
    exact hu s.status s.racing s.hostData s.host
  all_goals simp at h

/-- A command ends with a legal STATUS: one that fails has no RANGE noted beside its cause (R15, R228). -/
theorem runCommand_statusWf {s t : State} (hs : s.inv = true) (hb : s.busy = true) (h : runCommand s = .next t) :
    statusWf t.status = true := by
  obtain ⟨-, hst, -, hrun, -⟩ := inv_iff.mp hs
  simp only [statusWf, show statusGet .busy s.status = true from hb, if_true, Bool.and_eq_true, beq_iff_eq] at hst
  obtain ⟨hres, hfail⟩ := hst
  cases hr : statusGet .range s.status with
  | true =>
    obtain ⟨v, u, hfin⟩ := notesRange_finishes ((hrun hb).2 hr)
    cases h.symm.trans hfin
    exact statusWf_finish hres hfail u.range
  | false =>
    obtain ⟨v, u, hc⟩ := runCommand_next h
    obtain ⟨-, -, -, -, -, -, -, w, ht, hw | ⟨-, f, -, hw⟩⟩ := hc.fields
    · rw [ht, hw]
      exact statusWf_finish hres hfail u.range
    · rw [ht, hw]
      exact statusWf_fail hres hfail hr f

/-- Running the accepted command keeps the invariant. -/
theorem runCommand_keeps_inv {s t : State} (hs : s.inv = true) (hb : s.busy = true) (h : runCommand s = .next t) :
    t.inv = true := by
  have hc := runCommand_next h
  exact inv_of_idle hc.idle.1 (hc.memoriesWf (inv_iff.mp hs).1) (runCommand_statusWf hs hb h) hc.idle.2

/-- A host register write keeps the invariant (R21, R22, R28, R29). -/
theorem hostWrite_keeps_inv {s : State} (hs : s.inv = true) (off : BitVec 4) (v : Word) :
    (s.hostWrite off v).inv = true := by
  obtain ⟨hm, hst, hra, hrun, hidle⟩ := inv_iff.mp hs
  rcases hostWrite_cases s off v with ⟨hb, e | e⟩ | ⟨hb, e | ⟨a0, a1, a2, a3, a4, a5, e⟩⟩
  · rw [e]
    have hbusy : statusGet .busy (statusSet .busyerr s.status) = true := by simpa [State.busy] using hb
    exact inv_touched hs hb s.hostData s.host (statusWf_busyerr hst) hbusy (by simpa using (hrun hb).2) hra
  · rw [e]
    exact hs
  · rw [e]
    exact inv_iff.mpr ⟨hm, statusWf_accept hst, hra, by simp, fun _ => hidle hb⟩
  · rw [e]
    exact inv_of_idle hb hm hst (hidle hb)

/-- A host write of an image byte keeps the invariant (R39, R75). -/
theorem hostImage_keeps_inv {s : State} (hs : s.inv = true) (a : Nat) (b : Byte) : (s.hostImage a b).inv = true := by
  obtain ⟨hm, hst, hra, hrun, hidle⟩ := inv_iff.mp hs
  have ha : a % imgSize s.cfg < imgSize s.cfg := Nat.mod_lt _ (imgSize_pos _)
  rw [State.hostImage]
  cases hb : s.busy with
  | true =>
    refine inv_touched hs hb s.hostData s.host hst hb (hrun hb).2 fun c hc => ?_
    rcases List.mem_append.mp hc with hc | hc
    · exact hra c hc
    · rw [List.mem_singleton.mp hc]
      exact ha
  | false =>
    simp only [State.memoriesWf, Bool.and_eq_true] at hm
    refine inv_of_idle hb ?_ hst (hidle hb)
    simp only [State.memoriesWf, Bool.and_eq_true]
    exact ⟨hm.1, wf_write b hm.2 ha⟩

/-- Another agent's bus transaction between commands keeps the invariant (R246). -/
theorem bus_keeps_inv {s : State} (hs : s.inv = true) (hb : s.busy = false) (op : BusOp) :
    ({ s with rc := s.rc.apply s.cfg op } : State).inv = true := by
  obtain ⟨hm, hst, -, -, hidle⟩ := inv_iff.mp hs
  simp only [State.memoriesWf, Bool.and_eq_true] at hm
  refine inv_of_idle hb ?_ hst (hidle hb)
  simp only [State.memoriesWf, Bool.and_eq_true]
  exact ⟨wf_apply s.cfg op hm.1, hm.2⟩

/-- After an LGB reset the invariant holds if it did before, wherever a bus trace left the controller (R41, R42). -/
theorem lgbReset_keeps_inv {s : State} (hs : s.inv = true) (evs trace : List BusEvent) :
    (s.lgbReset (s.rc.replay s.cfg evs) trace).inv = true := by
  have hm := (inv_iff.mp hs).1
  simp only [State.memoriesWf, Bool.and_eq_true] at hm
  refine inv_of_idle (lgbReset_busy s _ _) ?_ (by simp; decide) rfl
  simp only [State.memoriesWf, Bool.and_eq_true]
  exact ⟨wf_replay s.cfg evs hm.1, wf_writeAll (imgSize_pos _) _ hm.2⟩

/-- Every host action keeps the invariant. -/
theorem hostAct_keeps_inv {s t : State} (hs : s.inv = true) (a : HostAct) (h : hostAct a s = .next t) :
    t.inv = true := by
  cases a with
  | write off v =>
    cases h
    exact hostWrite_keeps_inv hs off v
  | read off =>
    cases h
    exact inv_hostSide hs _ s.host
  | image a b =>
    cases h
    exact hostImage_keeps_inv hs a b
  | bus op =>
    cases hb : s.busy with
    | true => simp [hostAct, hb] at h
    | false =>
      simp only [hostAct, hb, Bool.false_eq_true, if_false] at h
      cases h
      exact bus_keeps_inv hs hb op
  | reset n =>
    obtain ⟨evs, hr⟩ := hostAct_reset s n
    cases h.symm.trans hr
    exact lgbReset_keeps_inv hs evs evs

/-- Settles O19: the accepted command, the idle block and each host action keep the invariant. -/
theorem stepKeepsInvariant : Obligations.StepKeepsInvariant := by
  intro s t hs h
  rcases step_cases h with ⟨hb, -, hr, -⟩ | ⟨-, -, rfl⟩ | ⟨e, es, -, -, ha⟩
  · exact runCommand_keeps_inv hs hb hr
  · exact hs
  · exact hostAct_keeps_inv (inv_noteSoFar (inv_hostSide hs s.hostData es) e.noted) e.act ha

/-- Settles O18: empty memories are canonical, and STATUS = 0 is idle with no cause. -/
theorem invariantAtReset : Obligations.InvariantAtReset :=
  inv_of_idle (by decide) (by decide) (by decide) rfl

end Sys2Proof.Machine
end

section
/-! What every command keeps of the display: it emits only transactions the controller model specifies, it ends between
whole commands, and it changes no word off the surface (R51, R59, R68, R183, R242). One relation between runs says this;
there is one lemma per operation, then one case per command. -/

namespace Sys2Proof.Machine

/-! ### The area and the rows of a blit -/

/-- The area check passes exactly the areas that fit the surface (R183). -/
theorem blitCheck_onSurface_iff {x y w h : Int} : blitCheck x y w h = .onSurface ↔ areaOnSurface x y w h := by
  have hsize : screenSize = 160 := rfl
  rw [blitCheck]
  by_cases hempty : w ≤ 0 ∨ h ≤ 0
  · rw [if_pos hempty]
    simp
    omega
  · rw [if_neg hempty]
    split <;> simp <;> omega

/-- An area on the surface lies in word columns 0 to 53 (R8, R183). -/
theorem blitColumn_fits {x y w h : Int} (ha : areaOnSurface x y w h) :
    (columnByte (blitColumn x w)).toNat + blitWords w ≤ 54 := by
  obtain ⟨hw, -, hx, -, hxw, -⟩ := ha
  rw [blitColumn, columnByte_toNat (by omega) (by omega), blitWords]
  omega

/-- A source supplies at most one word for each one asked for. -/
theorem sourceWords_length_le {σ : Type} (next : Nat → σ → Option (Word × σ)) (ks : List Nat) (d : σ) :
    (sourceWords next ks d).1.length ≤ ks.length := by
  induction ks generalizing d with
  | nil => exact Nat.le_refl 0
  | cons k ks ih =>
    rw [sourceWords]
    cases next k d with
    | none => exact Nat.zero_le _
    | some q => exact Nat.succ_le_succ (ih q.2)

/-- The rows a source supplies are rows asked for, none longer than a row of the blit. -/
theorem of_mem_sourceRows {σ : Type} {next : Nat → Nat → σ → Option (Word × σ)} {nw : Nat} {rs : List Nat} {d : σ}
    {row : Nat × List Word} (h : row ∈ (sourceRows next nw rs d).1) : row.1 ∈ rs ∧ row.2.length ≤ nw := by
  induction rs generalizing d with
  | nil => simp [sourceRows] at h
  | cons r rs ih =>
    have hlen := sourceWords_length_le (next r) (List.range nw) d
    rw [List.length_range] at hlen
    rw [sourceRows] at h
    split at h
    · rename_i ws e
      rw [e] at hlen
      rw [List.mem_singleton.mp h]
      exact ⟨List.mem_cons_self, hlen⟩
    · rename_i ws d' e
      rw [e] at hlen
      rcases List.mem_cons.mp h with rfl | h
      · exact ⟨List.mem_cons_self, hlen⟩
      · exact ⟨List.mem_cons_of_mem r (ih h).1, (ih h).2⟩

/-! ### Operations -/

/-- `m'` holds what `m` held on lines 160 to 255 and in word columns 54 to 255 (R51). -/
def KeepsOffSurface (m m' : Memory) : Prop :=
  ∀ l k : Byte, 160 ≤ l.toNat ∨ 54 ≤ k.toNat → m'.readWord l k = m.readWord l k

/-- A single-point access changes no word off the surface, on or off which its point may be. -/
theorem single_keepsOffSurface {c : Config} (h : commandBytesDistinct c = true) {u : Run} (hu : u.rc.ready = true)
    (x y : Int) (k : PointKind) : KeepsOffSurface u.rc.dram (single c x y k u).rc.dram := by
  intro l col hlk
  by_cases hk : k = .read
  · obtain ⟨-, hw, hm⟩ := ready_iff.mp hu
    subst hk
    cases hr : inRange x y with
    | true => rw [single_read_rc h hr hw hm]; rfl
    | false => rw [single_out hr]; rfl
  · have hdram : (single c x y k u).rc.dram = (onSurface [(x, y)]).foldl (paint c k) u.rc.dram :=
      (singleAll_spec h hk [(x, y)] hu).1
    rw [hdram, paintAll_off c k _ _ hlk]

/-- A row that fits the surface changes no word off it. -/
theorem sendRow_keepsOffSurface {c : Config} (h : configWf c = true) {u : Run} (hu : u.rc.ready = true) {xa y : Int}
    {row : Nat × List Word} (hy : (byteOfInt (y + row.1)).toNat < 160)
    (hx : (columnByte xa).toNat + row.2.length ≤ 54) :
    KeepsOffSurface u.rc.dram (sendRow c xa y u row).rc.dram := by
  intro l k hlk
  have hend := configWf_colEnd h
  obtain ⟨hdram, -⟩ := sendRow_spec (configWf_distinct h) xa y hu row.1 row.2 (by omega)
  rw [hdram, readWord_writeRow _ _ _ _ (by omega), if_neg]
  rintro ⟨rfl, -, hk⟩
  omega

/-- `v` comes from `u` by transactions the controller model specifies, is between whole commands, and holds every word
off the surface that `u` held. -/
structure Draws (c : Config) (u v : Run) : Prop where
  specified : Specified c u v
  ready : v.rc.ready = true
  offSurface : KeepsOffSurface u.rc.dram v.rc.dram

namespace Draws
variable {c : Config} {u v w : Run}

theorem refl (hu : u.rc.ready = true) : Draws c u u := ⟨.refl u, hu, fun _ _ _ => rfl⟩

theorem trans (h : Draws c u v) (h' : Draws c v w) : Draws c u w :=
  ⟨h.specified.trans h'.specified, h'.ready,
    fun l k hlk => (h'.offSurface l k hlk).trans (h.offSurface l k hlk)⟩

theorem foldl {α : Type} (f : Run → α → Run) (l : List α)
    (hf : ∀ a ∈ l, ∀ u : Run, u.rc.ready = true → Draws c u (f u a)) (hu : u.rc.ready = true) :
    Draws c u (l.foldl f u) := by
  induction l generalizing u with
  | nil => exact refl hu
  | cons a l ih =>
    have ha := hf a List.mem_cons_self u hu
    exact ha.trans (ih (fun b hb => hf b (List.mem_cons_of_mem a hb)) ha.ready)

section Pixel
variable (h : commandBytesDistinct c = true)
include h

theorem setAddress (hu : u.rc.ready = true) (xa y : Int) : Draws c u (setAddress c xa y u) := by
  obtain ⟨-, hw, hm⟩ := ready_iff.mp hu
  have ha := setAddress_rc h xa y hw hm
  refine ⟨.setAddress h hu xa y, ?_, fun _ _ _ => ?_⟩
  · rw [ha]
    simp [addressed, Controller.ready, hw]
  · rw [ha]
    rfl

theorem single (hu : u.rc.ready = true) (x y : Int) (k : PointKind) : Draws c u (single c x y k u) :=
  ⟨.single h hu x y k, single_ready h hu x y k, single_keepsOffSurface h hu x y k⟩

theorem singleAll (hu : u.rc.ready = true) (k : PointKind) (pts : List (Int × Int)) :
    Draws c u (singleAll c k pts u) :=
  foldl _ pts (fun p _ _ hu => single h hu p.1 p.2 k) hu

theorem plot (hu : u.rc.ready = true) (x y : Int) (op : PointOp) : Draws c u (plot c x y op u) := by
  cases op with
  | single k => exact single h hu x y k
  | composite d code => exact foldl _ _ (fun o _ _ hu => single h hu (x + o.1) (y + o.2) _) hu
  | reserved => exact refl hu

theorem plotAll (hu : u.rc.ready = true) (op : PointOp) (pts : List (Int × Int)) : Draws c u (plotAll c op pts u) :=
  foldl _ pts (fun p _ _ hu => plot h hu p.1 p.2 op) hu

end Pixel

section Blitter
variable (h : configWf c = true)
include h

theorem sendRow (hu : u.rc.ready = true) {xa y : Int} {row : Nat × List Word}
    (hy : (byteOfInt (y + row.1)).toNat < 160) (hx : (columnByte xa).toNat + row.2.length ≤ 54) :
    Draws c u (sendRow c xa y u row) :=
  ⟨.sendRow (configWf_distinct h) hu xa y row, sendRow_ready (configWf_distinct h) hu xa y row,
    sendRow_keepsOffSurface h hu hy hx⟩

theorem blitRows (hu : u.rc.ready = true) {σ : Type} (next : Nat → Nat → σ → Option (Word × σ)) (d : σ) {xa y : Int}
    {nw n : Nat} (hy : 0 ≤ y ∧ y + n ≤ 160) (hx : (columnByte xa).toNat + nw ≤ 54) :
    Draws c u (blitRows c xa y nw next (List.range n) d u).2 := by
  rw [blitRows_eq]
  refine foldl _ _ (fun row hrow u hu => ?_) hu
  obtain ⟨hr, hlen⟩ := of_mem_sourceRows hrow
  have hrn := List.mem_range.mp hr
  refine sendRow h hu ?_ (by omega)
  rw [byteOfInt_toNat (by omega) (by omega)]
  omega

/-- A blit of an area on the surface (R181, R183). -/
theorem blitArea (hu : u.rc.ready = true) {σ : Type} (next : Nat → Nat → σ → Option (Word × σ)) (d : σ)
    {x y w ht : Int} (ha : areaOnSurface x y w ht) :
    Draws c u (Machine.blitRows c (blitColumn x w) y (blitWords w) next (List.range ht.toNat) d u).2 :=
  blitRows h hu next d (by omega) (blitColumn_fits ha)

theorem fillAll (hu : u.rc.ready = true) (v : Word) : Draws c u (fillAll c v u) :=
  blitRows h hu _ () (n := screenSize.toNat) (by decide) (by decide)

end Blitter

end Draws

/-! ### Commands -/

/-- `t` is where a command started in `s` ends that drew as `Draws` says. -/
def Drew (s t : State) : Prop := ∃ u, Draws s.cfg s.run u ∧ t.cfg = s.cfg ∧ t.rc = u.rc ∧ t.trace = u.trace

section Commands
variable {s : State} {u : Run}

theorem Drew.finish (h : Draws s.cfg s.run u) : Drew s (s.finish u) := ⟨u, h, rfl, rfl, rfl⟩

theorem Drew.finishWith (v : Word) (h : Draws s.cfg s.run u) : Drew s ((s.setResult v).finish u) :=
  ⟨u, h, rfl, rfl, rfl⟩

theorem Drew.fail (f : StatusField) (h : Draws s.cfg s.run u) : Drew s (s.fail f u) := ⟨u, h, rfl, rfl, rfl⟩

theorem displayReady_iff : s.displayReady = true ↔ configWf s.cfg = true ∧ s.rc.ready = true := by
  simp [State.displayReady]

section
variable (hs : s.displayReady = true)
include hs

/-- A command that emits nothing draws nothing. -/
theorem drew_run : Draws s.cfg s.run s.run := .refl (displayReady_iff.mp hs).2

theorem drew_blitChecked {x y w h : Int} {body : State} (hb : areaOnSurface x y w h → Drew s body) :
    Drew s (blitChecked s x y w h body) := by
  rw [blitChecked]
  split
  · exact .finish (drew_run hs)
  · exact .fail _ (drew_run hs)
  · rename_i hc
    exact hb (blitCheck_onSurface_iff.mp hc)

theorem drew_blitPure (x y w h : Int) (f : Nat → Nat → Word) :
    Drew s (blitChecked s x y w h (s.finish (blitPure s.cfg x y w h f s.run))) :=
  drew_blitChecked hs fun ha =>
    .finish (.blitArea (displayReady_iff.mp hs).1 (displayReady_iff.mp hs).2 (pureSource f) () ha)

theorem drew_wordPlane (p : Nat) {x y w h : Int} (ha : areaOnSurface x y w h) :
    Drew s (drawWordPlane s p x y w h) := by
  have hb : Draws s.cfg s.run _ := .blitArea (displayReady_iff.mp hs).1 (displayReady_iff.mp hs).2
    (fun _ _ d => nextWord s d) (Decoder.start s p) ha
  rw [drawWordPlane]
  split
  · rename_i e
    rw [e] at hb
    exact .finish hb
  · rename_i e
    rw [e] at hb
    exact .fail _ hb

theorem drew_shape (pen : Word) (pts : List (Int × Int)) : Drew s (drawShape s pen pts) := by
  rw [drawShape]
  split
  · exact .finish (.plotAll (configWf_distinct (displayReady_iff.mp hs).1) (displayReady_iff.mp hs).2 _ _)
  · exact .fail _ (drew_run hs)

/-- Every command draws by specified transactions, on the surface alone, and ends between whole commands. -/
theorem exec_drew (i : Instr) : ∃ t, exec i s = .next t ∧ Drew s t := by
  obtain ⟨hwf, hready⟩ := displayReady_iff.mp hs
  have hd := configWf_distinct hwf
  have h0 := drew_run hs
  cases i with
  | nop => exact ⟨_, rfl, .finish h0⟩
  | setaddr => exact ⟨_, rfl, .finish (.setAddress hd hready _ _)⟩
  | point =>
    refine ⟨_, rfl, ?_⟩
    split
    · exact .fail _ h0
    · exact .finishWith _ (.plot hd hready _ _ _)
    · exact .finish (.plot hd hready _ _ _)
    · exact .finish (.plot hd hready _ _ _)
    · exact .finish (.plot hd hready _ _ _)
  | readword =>
    refine ⟨_, rfl, ?_⟩
    split
    · rename_i hr
      have hread := Draws.single hd (u := s.run) hready (sext16 s.a0) (sext16 s.a1) .read
      rw [single, if_pos hr] at hread
      exact .finishWith _ hread
    · exact ⟨s.run, h0, rfl, rfl, rfl⟩
  | writeword =>
    refine ⟨_, rfl, ?_⟩
    split
    · rename_i hr
      obtain ⟨hx0, hx, hy0, hy⟩ := inRange_iff.mp hr
      have hrow : Draws s.cfg s.run (sendRow s.cfg (159 - sext16 s.a0) (sext16 s.a1) s.run (0, [s.a2])) := by
        refine .sendRow hwf hready ?_ ?_
        · rw [byteOfInt_toNat (by omega) (by omega)]
          omega
        · rw [columnByte_toNat (by omega) (by omega), List.length_singleton]
          omega
      rw [sendRow, Int.natCast_zero, Int.add_zero] at hrow
      exact .finish hrow
    · exact .fail _ h0
  | blank => exact ⟨_, rfl, .finish (.singleAll hd hready _ _)⟩
  | circle => exact ⟨_, rfl, drew_shape hs ..⟩
  | rect => exact ⟨_, rfl, drew_shape hs ..⟩
  | triangle => exact ⟨_, rfl, drew_shape hs ..⟩
  | star => exact ⟨_, rfl, drew_shape hs ..⟩
  | bitimage =>
    refine ⟨_, rfl, ?_⟩
    dsimp only
    split
    · exact .fail _ h0
    · exact drew_blitPure hs ..
    · exact drew_blitPure hs ..
    · exact drew_blitPure hs ..
  | wordimage =>
    refine ⟨_, rfl, ?_⟩
    dsimp only
    split
    · exact .fail _ h0
    · split
      · exact .fail _ h0
      · split
        · exact drew_blitPure hs ..
        · exact drew_blitPure hs ..
        · exact drew_blitChecked hs (drew_wordPlane hs _)
  | fillregion =>
    refine ⟨_, rfl, ?_⟩
    dsimp only
    split
    · exact .fail _ h0
    · exact .fail _ h0
    · exact drew_blitPure hs ..
    · exact drew_blitPure hs ..
  | clear => exact ⟨_, rfl, .finish (.fillAll hwf hready _)⟩
  | fillscreen => exact ⟨_, rfl, .finish (.fillAll hwf hready _)⟩

theorem exec_next_drew {i : Instr} {t : State} (h : exec i s = .next t) : Drew s t := by
  obtain ⟨t', ht, hdrew⟩ := exec_drew hs i
  cases h.symm.trans ht
  exact hdrew

end

end Commands

/-- Settles O30: what the command drew with was specified, and it ends ready. -/
theorem commandsStaySpecified : Obligations.CommandsStaySpecified := by
  intro i s t hs h
  obtain ⟨u, hu, hcfg, hrc, htrace⟩ := exec_next_drew hs h
  obtain ⟨evs, hevs, -, hspec⟩ := hu.specified
  refine ⟨?_, evs, htrace.trans hevs, hspec⟩
  rw [displayReady_iff, hcfg, hrc]
  exact ⟨(displayReady_iff.mp hs).1, hu.ready⟩

/-- Settles O31: what the command drew kept every word off the surface. -/
theorem wordsOffTheSurfaceStay : Obligations.WordsOffTheSurfaceStay := by
  intro i s t hs h l k hlk
  obtain ⟨u, hu, -, hrc, -⟩ := exec_next_drew hs h
  rw [hrc]
  exact hu.offSurface l k hlk

end Sys2Proof.Machine
end

section
/-! Memories: a canonical memory is what it reads as (R53, R58), and what a command's image read sees (R75, R78). -/

namespace Sys2Proof.Machine

/-! ### Canonical memories -/

theorem read_cons_self (c : Host.Cell) (m : Memory) : Memory.read (c :: m) c.1 = c.2 := if_pos rfl

theorem read_cons_other (c : Host.Cell) (m : Memory) {a : Nat} (h : a ≠ c.1) :
    Memory.read (c :: m) a = m.read a := if_neg h

/-- An address that is not listed reads as such. -/
theorem read_of_absent {m : Memory} {a : Nat} (h : ∀ c ∈ m, c.1 ≠ a) : m.read a = unlistedByte := by
  induction m with
  | nil => rfl
  | cons c m ih =>
    rw [read_cons_other c m (h c List.mem_cons_self).symm]
    exact ih fun d hd => h d (List.mem_cons_of_mem c hd)

/-- The first address of a canonical memory is its least one that reads as a listed byte. -/
theorem head_le_of_read {size : Nat} {c : Host.Cell} {m : Memory} (hm : Memory.wf size (c :: m) = true) {a : Nat}
    (ha : Memory.read (c :: m) a ≠ unlistedByte) : c.1 ≤ a := by
  obtain ⟨-, -, hlt, -⟩ := wf_cons.mp hm
  by_contra hca
  refine ha (read_of_absent fun d hd => ?_)
  rcases List.mem_cons.mp hd with rfl | hd
  · omega
  · have := hlt d hd
    omega

/-- The first byte of a canonical memory does not read as an unlisted one. -/
theorem read_head_ne {size : Nat} {c : Host.Cell} {m : Memory} (hm : Memory.wf size (c :: m) = true) :
    Memory.read (c :: m) c.1 ≠ unlistedByte := by
  rw [read_cons_self]
  exact (wf_cons.mp hm).2.1

/-- Behind its first entry a canonical memory reads as unlisted at the first address. -/
theorem read_tail_head {size : Nat} {c : Host.Cell} {m : Memory} (hm : Memory.wf size (c :: m) = true) :
    m.read c.1 = unlistedByte :=
  read_of_absent fun d hd => ((wf_cons.mp hm).2.2.1 d hd).ne'

/-- Settles O20, by induction on one memory: the least listed address and its byte agree, then the rest does. -/
theorem canonicalMemoriesAreEqualWhenTheyReadAlike :
    Obligations.CanonicalMemoriesAreEqualWhenTheyReadAlike := by
  intro size m
  induction m with
  | nil =>
    intro m' _ hm' h
    cases m' with
    | nil => rfl
    | cons c' m' => exact absurd (h c'.1).symm (read_head_ne hm')
  | cons c m ih =>
    intro m' hm hm' h
    cases m' with
    | nil => exact absurd (h c.1) (read_head_ne hm)
    | cons c' m' =>
      have haddr : c.1 = c'.1 := Nat.le_antisymm
        (head_le_of_read hm (by rw [h]; exact read_head_ne hm'))
        (head_le_of_read hm' (by rw [← h]; exact read_head_ne hm))
      have hc : c = c' := by
        refine Prod.ext haddr ?_
        rw [← read_cons_self c m, h, haddr, read_cons_self]
      subst hc
      have htail : ∀ a, Memory.read m a = Memory.read m' a := by
        intro a
        by_cases ha : a = c.1
        · rw [ha, read_tail_head hm, read_tail_head hm']
        · rw [← read_cons_other c m ha, h, read_cons_other c m' ha]
      rw [ih m' (wf_cons.mp hm).2.2.2 (wf_cons.mp hm').2.2.2 htail]

/-! ### Image reads -/

theorem mem_racingAt {s : State} {a : Nat} {b : Byte} : b ∈ s.racingAt a ↔ (a, b) ∈ s.racing := by
  simp [State.racingAt]

/-- Where no host write races with a command, a read sees image memory (R53, R75). -/
theorem imgByte_of_no_race {s : State} (h : s.racing = []) (n a : Nat) :
    s.imgByte n a = s.img.read (a % imgSize s.cfg) := by
  simp [State.imgByte, State.racingAt, h]

/-- A read sees the byte at acceptance, or one the host has written there since (R75, R245). -/
theorem imgByte_cases (s : State) (n a : Nat) :
    s.imgByte n a = s.img.read (a % imgSize s.cfg) ∨ (a % imgSize s.cfg, s.imgByte n a) ∈ s.racing := by
  rw [← mem_racingAt, State.imgByte]
  split
  · exact .inl rfl
  · rename_i v vs e
    rw [e]
    by_cases hk : Config.raceChoice s.races n % (vs.length + 2) < (v :: vs).length
    · rw [List.getD_eq_getElem _ _ hk]
      exact .inr (List.getElem_mem hk)
    · exact .inl (List.getD_eq_default _ _ (Nat.le_of_not_lt hk))

theorem hostAct_image_busy {s : State} (hb : s.busy = true) (a : Nat) (b : Byte) :
    hostAct (.image a b) s = .next { s with racing := s.racing ++ [(a % imgSize s.cfg, b)] } := by
  rw [hostAct, State.hostImage, if_pos hb]

theorem hostAct_image_idle {s : State} (hb : s.busy = false) (a : Nat) (b : Byte) :
    hostAct (.image a b) s = .next { s with img := s.img.write (a % imgSize s.cfg) b } := by
  rw [hostAct, State.hostImage, if_neg (by simp [hb])]

/-- Settles O21: the reads, the write that races with them, and the write before the next command's acceptance. -/
theorem imageReadsSeeTheOldOrANewByte : Obligations.ImageReadsSeeTheOldOrANewByte := by
  refine ⟨imgByte_cases, fun s a b hb => hostAct_image_busy hb a b, fun s a b v n hb hr => ?_⟩
  have hread := imgByte_of_no_race (s := State.accept { s with img := s.img.write (a % imgSize s.cfg) b } v) hr n
  refine ⟨_, _, hostAct_image_idle hb a b,
    hostAct_write_cmd (s := { s with img := s.img.write (a % imgSize s.cfg) b }) hb v, ?_, fun a' ha' => ?_⟩
  · exact (hread a).trans (read_write_same ..)
  · rw [hread, imgByte_of_no_race hr]
    exact read_write_other s.img b ha'

end Sys2Proof.Machine
end

section
/-! The reference controller's rules one by one (R60 to R67), and what it leaves free (R59, R68). -/

namespace Sys2Proof.Machine

/-! ### Commands, data bytes and reads -/

/-- Settles O22: each address command, then its two parameters (R60, R61). -/
theorem addressCommandsSetTheWindow : Obligations.AddressCommandsSetTheWindow := by
  intro c rc a b h hw hm
  have hl : rc.apply c (.cmd c.cmdLaset) = _ := command_laset hw hm
  have hc : rc.apply c (.cmd c.cmdCaset) = _ := command_caset h hw hm
  refine ⟨⟨hl, ?_, ?_⟩, hc, ?_, ?_⟩ <;> simp only [replay_cons, BusEvent.op, hl, hc] <;> rfl

/-- A data byte goes to the display memory when no parameter is pending and a write or RMW mode is on (R63). -/
theorem data_eq_store {rc : Controller} (hp : rc.pcmd = .none) (hm : rc.mode ≠ .idle) (b : Byte) :
    rc.data b = rc.store b := by
  rw [Controller.data, hp]
  cases hmode : rc.mode with
  | idle => exact absurd hmode hm
  | write => rfl
  | rmw => rfl

/-- The first byte of a word is held (R63). -/
theorem store_first {rc : Controller} (hw : rc.wphase = false) (b : Byte) :
    rc.store b = { rc with whi := b, wphase := true } := by
  simp [Controller.store, hw]

/-- The second byte stores the word with the byte held before it, and the pointer advances (R63). -/
theorem store_second {rc : Controller} (hw : rc.wphase = true) (b : Byte) :
    rc.store b = ({ rc with dram := rc.dram.writeWord rc.line rc.col (joinBytes rc.whi b), wphase := false } :
      Controller).advance := by
  simp [Controller.store, hw]

/-- Settles O23: the write command, and the word that two bytes store. -/
theorem dataBytesStoreWords : Obligations.DataBytesStoreWords := by
  intro c rc a b h
  refine ⟨fun hw hm => command_ramwr h hw hm, fun hp hm hw => ?_⟩
  have h1 : rc.apply c (.data a) = { rc with whi := a, wphase := true } :=
    (data_eq_store hp hm a).trans (store_first hw a)
  have h2 : rc.replay c [.data a, .data b] = ({ rc with
      whi := a, dram := rc.dram.writeWord rc.line rc.col (joinBytes a b) } : Controller).advance := by
    calc rc.replay c [.data a, .data b]
        = ({ rc with whi := a, wphase := true } : Controller).data b := by
          rw [replay_cons]
          exact congrArg (Controller.data b) h1
      _ = ({ rc with whi := a, wphase := true } : Controller).store b :=
          data_eq_store (rc := { rc with whi := a, wphase := true }) hp hm b
      _ = _ := by rw [store_second rfl, ← hw]
  exact ⟨h1, _, h2, readWord_writeWord_same .., fun l k hlk => readWord_writeWord_other _ _ hlk⟩

/-- Settles O24, clause by clause of R64. -/
theorem pointerAdvance : Obligations.PointerAdvance := by
  intro rc
  refine ⟨fun hc => ?_, fun hc hl => ?_, fun hc hl => ?_⟩
  · rw [Controller.advance, if_neg (Nat.not_lt.mpr hc)]
  · rw [Controller.advance, if_pos hc, Controller.nextLine, if_neg (Nat.not_lt.mpr hl)]
  · rw [Controller.advance, if_pos hc, Controller.nextLine, if_pos hl]

section Reads
variable {rc : Controller} (hm : rc.mode = .rmw)
include hm

theorem afterRead_dummy (hd : rc.dummy = true) : rc.afterRead = { rc with dummy := false, draws := rc.draws + 1 } := by
  simp [Controller.afterRead, hm, hd]

theorem read_high (hd : rc.dummy = false) (hr : rc.rphase = false) :
    rc.readValue = hiByte (rc.dram.readWord rc.line rc.col) ∧ rc.afterRead = { rc with rphase := true } := by
  simp [Controller.readValue, Controller.afterRead, hm, hd, hr]

theorem read_low (hd : rc.dummy = false) (hr : rc.rphase = true) :
    rc.readValue = loByte (rc.dram.readWord rc.line rc.col) ∧ rc.afterRead = { rc with rphase := false } := by
  simp [Controller.readValue, Controller.afterRead, hm, hd, hr]

end Reads

/-- Settles O25: entering, the three kinds of read, and leaving (R65, R66, R67). -/
theorem rmwBracket : Obligations.RmwBracket := fun _ _ h =>
  ⟨command_rmwin h, afterRead_dummy, read_high, read_low, command_rmwout h⟩

/-! ### Unspecified sequences -/

/-- A command byte is specified between words, outside RMW mode unless it leaves it, and for the five bytes of R59. -/
theorem specified_cmd_iff {c : Config} {rc : Controller} {b : Byte} : rc.specified c (.cmd b) = true ↔
    ¬ rc.wphase = true ∧ ¬ (rc.mode = .rmw ∧ b ≠ c.cmdRmwout) ∧
      (b = c.cmdLaset ∨ b = c.cmdCaset ∨ b = c.cmdRamwr ∨ b = c.cmdRmwin ∨ b = c.cmdRmwout) := by
  simp [Controller.specified, and_assoc, or_assoc, imp_iff_not_or]

theorem command_unspecified {c : Config} {rc : Controller} {b : Byte} (h : rc.specified c (.cmd b) = false) :
    rc.command c b = rc.unspecified := by
  rw [← Bool.not_eq_true, specified_cmd_iff] at h
  rw [Controller.command]
  by_cases hw : rc.wphase = true
  · rw [if_pos hw]
  by_cases hm : rc.mode = .rmw ∧ b ≠ c.cmdRmwout
  · rw [if_neg hw, if_pos hm]
  have hb := fun hb => h ⟨hw, hm, hb⟩
  simp only [not_or, imp_false] at hb
  obtain ⟨h1, h2, h3, h4, h5⟩ := hb
  rw [if_neg hw, if_neg hm, if_neg h1, if_neg h2, if_neg h3, if_neg h4, if_neg h5]

theorem data_unspecified {c : Config} {rc : Controller} {b : Byte} (h : rc.specified c (.data b) = false) :
    rc.data b = rc.unspecified := by
  simp only [Controller.specified, Bool.or_eq_false_iff, bne_eq_false_iff_eq] at h
  simp [Controller.data, h]

theorem read_unspecified {c : Config} {rc : Controller} (h : rc.specified c .read = false) :
    rc.readValue = Config.freeByte rc.draws 0 ∧ rc.afterRead = rc.unspecified := by
  have hm : rc.mode ≠ .rmw := by simpa [Controller.specified] using h
  rw [Controller.readValue, Controller.afterRead]
  cases hmode : rc.mode with
  | idle => exact ⟨rfl, rfl⟩
  | write => exact ⟨rfl, rfl⟩
  | rmw => exact absurd hmode hm

/-- A transaction that is not specified leaves the controller free (R59, R68). -/
theorem apply_unspecified {c : Config} {rc : Controller} {op : BusOp} (h : rc.specified c op = false) :
    rc.apply c op = rc.unspecified := by
  cases op with
  | cmd b => exact command_unspecified h
  | data b => exact data_unspecified h
  | read => exact (read_unspecified h).2

theorem freeMode_eq (n : Nat) : freeMode n =
    if Config.freeBit n 0 then (if Config.freeBit n 1 then .rmw else .write) else .idle := by
  rw [freeMode]
  cases Config.freeBit n 0 <;> cases Config.freeBit n 1 <;> rfl

theorem freeParam_eq (n : Nat) : freeParam n =
    if Config.freeBit n 2 then (if Config.freeBit n 3 then .caset else .laset) else .none := by
  rw [freeParam]
  cases Config.freeBit n 2 <;> cases Config.freeBit n 3 <;> rfl

/-- Settles O26: the transaction leaves a free controller, written out field by field. -/
theorem unspecifiedSequencesAreFree : Obligations.UnspecifiedSequencesAreFree := by
  intro c rc op h
  refine ⟨?_, ?_⟩
  · rintro rfl
    exact (read_unspecified h).1
  · rw [apply_unspecified h, ← freeMode_eq, ← freeParam_eq]
    rfl

end Sys2Proof.Machine
end

section
/-! Reads on the bus: those of every command (R46, R66), and what POINT READ makes of them (R121 to R128). -/

namespace Sys2Proof.Machine

/-- Settles O29: a command's events are those of its run, whose reads are the controller's. -/
theorem busReadsReturnTheControllersBytes : Obligations.BusReadsReturnTheControllersBytes := by
  intro i s t h
  obtain ⟨t', ht, v, u, hc⟩ := exec_completes i s
  cases h.symm.trans ht
  obtain ⟨⟨evs, htrace, -, hhonest⟩, -⟩ := hc.emits
  obtain ⟨-, ht, -⟩ := hc.fields
  exact ⟨evs, ht.trans htrace, hhonest⟩

/-- POINT READ, on or off the surface (R128). -/
theorem exec_pointRead {s : State} (ha : s.a2 = 0xFFFF) : exec .point s = .next
    ((s.setResult (readResult (singleValue s.cfg s.a0.toInt s.a1.toInt s.run))).finish
      (single s.cfg s.a0.toInt s.a1.toInt .read s.run)) := by
  have hd : decodeOp s.a2 = .single .read := (decodeOp_read_iff _).mpr ha
  simp only [exec, execPoint, hd]
  rfl

/-- A command that ends by `finish` leaves the frame (R22, R39, R75). -/
theorem finish_frame (s : State) (v : Word) (u : Run) : s.frame ((s.setResult v).finish u) :=
  ⟨⟨rfl, rfl, rfl, rfl, rfl, rfl, rfl, rfl, rfl, rfl⟩, rfl, rfl, rfl⟩

/-- What a READ of a pixel answers is 1 exactly for one that is on (R125, R128). -/
theorem readResult_some (b : Bool) : readResult (some b) = if b then 1 else 0 := by
  cases b <;> rfl

/-- A READ cycle leaves the pointer and the window at the pixel's word (R114, R133). -/
theorem rmwClosed_pointsTo (c : Config) {x y : Int} (hs : onScreen x y) (rc : Controller) :
    pointsTo c (rmwClosed c x y rc) (lineByte y) (wordByte x) := by
  rw [← columnByte_wordByte hs.1 hs.2.1]
  exact ⟨rfl, rfl, rfl, rfl, rfl, rfl⟩

/-- The eleven events of a READ cycle, in the terms of the claims (R122). -/
theorem single_read_events {c : Config} {u : Run} (h : commandBytesDistinct c = true) {x y : Int}
    (hs : onScreen x y) (hu : u.rc.ready = true) : (single c x y .read u).trace = u.trace ++
      (rmwEvents c x y (Config.freeByte u.rc.draws 0) (u.rc.dram.readWord (lineByte y) (wordByte x)) ++
        [.cmd c.cmdRmwout]) := by
  obtain ⟨-, hw, hm⟩ := ready_iff.mp hu
  rw [single_read_trace h (inRange_iff.mpr hs) hw hm, pixelWord_eq hs, columnByte_wordByte hs.1 hs.2.1]
  rfl

/-- Settles O37: the READ cycle's value, controller and events. -/
theorem pointReadsOnePixel : Obligations.PointReadsOnePixel := by
  intro s hready ha hs
  obtain ⟨hwf, hrc⟩ := displayReady_iff.mp hready
  have hd := configWf_distinct hwf
  have hr := inRange_iff.mpr hs
  obtain ⟨-, hw, hm⟩ := ready_iff.mp hrc
  have hclosed : (single s.cfg s.a0.toInt s.a1.toInt .read s.run).rc = _ := single_read_rc hd hr hw hm
  have hvalue : readResult (singleValue s.cfg s.a0.toInt s.a1.toInt s.run) =
      if s.wordOf s.a0.toInt s.a1.toInt &&& columnMask s.cfg s.a0.toInt = 0 then 1 else 0 := by
    have hword : pixelWord s.a0.toInt s.a1.toInt s.run.rc.dram = s.wordOf s.a0.toInt s.a1.toInt := pixelWord_eq hs _
    rw [singleValue_in (u := s.run) hd hr hw hm, readResult_some, hword, columnMask_eq _ hs.2.1]
    simp
  refine ⟨_, Config.freeByte s.rc.draws 0, exec_pointRead ha, finish_frame .., hvalue, ?_, ?_, ?_,
    single_read_events hd hs hrc, ?_⟩
  · rw [pixel_eq s hs, beq_iff_eq, finish_result, setResult_result, hvalue]
    simp
  · rw [finish_status, single_range, hr]
    rfl
  · rw [finish_rc, hclosed]
    rfl
  · rw [finish_rc, hclosed]
    exact rmwClosed_pointsTo s.cfg hs s.rc

end Sys2Proof.Machine
end
section
/-! The encoding of commands: the decoder of CMD words, the opcode table (R81, R82, R106, R109), and the assembled form
(R101, R103). -/

namespace Sys2Proof.Machine

/-! ### CMD words -/

/-- Settles O1: each word is its command's encoding. -/
theorem commandWordsDecode : Obligations.CommandWordsDecode :=
  ⟨decode_encode .nop, decode_encode .setaddr, decode_encode .point, decode_encode .readword, decode_encode .writeword,
    decode_encode .blank, decode_encode .circle, decode_encode .rect, decode_encode .triangle, decode_encode .star,
    decode_encode .bitimage, decode_encode .wordimage, decode_encode .fillregion, decode_encode .clear,
    decode_encode .fillscreen⟩

theorem encode_injective {i j : Instr} (h : encode i = encode j) : i = j := by
  have e := decode_encode i
  rw [h, decode_encode] at e
  cases e
  rfl

/-- Every opcode up to 0x0E is a command's. -/
theorem opcodeInstr_of_le {n : Nat} (h : n ≤ 0x0E) : ∃ i, opcodeInstr n = some i ∧ (encode i).toNat = n := by
  interval_cases n <;> exact ⟨_, rfl, rfl⟩

/-- No opcode above 0x0E is a command's. -/
theorem opcodeInstr_of_gt {n : Nat} (h : 0x0E < n) : opcodeInstr n = none := by
  obtain ⟨m, rfl⟩ := Nat.exists_eq_add_of_le' h
  rfl

/-- A word is its low byte and 256 times its high byte. -/
theorem toNat_eq_high_low (w : Word) : w.toNat = 256 * (w.extractLsb' 8 8).toNat + (w.extractLsb' 0 8).toNat := by
  have := w.isLt
  simp only [BitVec.extractLsb'_toNat]
  omega

theorem decode_of_high {w : Word} (h : w.extractLsb' 8 8 ≠ 0) : decode w = .reservedHigh := if_pos h

theorem decode_of_opcode {w : Word} (h : w.extractLsb' 8 8 = 0) (ho : 0x0E < (w.extractLsb' 0 8).toNat) :
    decode w = .reservedOpcode := by
  rw [decode, if_neg (not_not.mpr h), opcodeInstr_of_gt ho]

theorem decode_of_command {w : Word} (h : w.extractLsb' 8 8 = 0) (ho : (w.extractLsb' 0 8).toNat ≤ 0x0E) :
    ∃ i, decode w = .command i ∧ encode i = w := by
  obtain ⟨i, hi, hn⟩ := opcodeInstr_of_le ho
  refine ⟨i, by rw [decode, if_neg (not_not.mpr h), hi], BitVec.eq_of_toNat_eq ?_⟩
  rw [hn, toNat_eq_high_low w, h]
  simp

/-- The three outcomes of the decoder, in the order of R106. -/
theorem decode_cases (w : Word) :
    (w.extractLsb' 8 8 ≠ 0 ∧ decode w = .reservedHigh) ∨
    (w.extractLsb' 8 8 = 0 ∧ 0x0E < (w.extractLsb' 0 8).toNat ∧ decode w = .reservedOpcode) ∨
    (w.extractLsb' 8 8 = 0 ∧ (w.extractLsb' 0 8).toNat ≤ 0x0E ∧ ∃ i, decode w = .command i ∧ encode i = w) := by
  by_cases h : w.extractLsb' 8 8 = 0
  · rcases Nat.lt_or_ge 0x0E (w.extractLsb' 0 8).toNat with ho | ho
    · exact .inr (.inl ⟨h, ho, decode_of_opcode h ho⟩)
    · exact .inr (.inr ⟨h, ho, decode_of_command h ho⟩)
  · exact .inl ⟨h, decode_of_high h⟩

/-- A word decodes to the command that encodes to it, and to no other (R106). -/
theorem decode_eq_command_iff {w : Word} {i : Instr} : decode w = .command i ↔ encode i = w := by
  constructor
  · intro h
    rcases decode_cases w with ⟨-, e⟩ | ⟨-, -, e⟩ | ⟨-, -, j, e, hj⟩
    · cases h.symm.trans e
    · cases h.symm.trans e
    · cases h.symm.trans e
      exact hj
  · rintro rfl
    exact decode_encode i

theorem cmdWordWellFormed_iff (w : Word) : cmdWordWellFormed w = true ↔ ∃ i, decode w = .command i := by
  simp only [cmdWordWellFormed, Bool.and_eq_true, beq_iff_eq, decide_eq_true_eq]
  constructor
  · rintro ⟨h, ho⟩
    obtain ⟨i, hi, -⟩ := decode_of_command h ho
    exact ⟨i, hi⟩
  · rintro ⟨i, hi⟩
    rcases decode_cases w with ⟨-, e⟩ | ⟨-, -, e⟩ | ⟨h, ho, -⟩
    · cases hi.symm.trans e
    · cases hi.symm.trans e
    · exact ⟨h, ho⟩

/-- Settles O2, case by case of R106. -/
theorem decodeIsTotal : Obligations.DecodeIsTotal := fun w =>
  ⟨decode_of_high, decode_of_opcode, decode_of_command, cmdWordWellFormed_iff w, fun _ => decode_eq_command_iff.mp⟩

/-! ### The opcode table -/

theorem mem_instrAll (i : Instr) : i ∈ Instr.all := by
  cases i <;> decide

/-- The table has one row for each command, and no other. -/
theorem mem_opcodeTable {r : OpcodeRow} : r ∈ opcodeTable ↔ r = ⟨r.instr, encode r.instr, 0xFFFF⟩ := by
  constructor
  · intro h
    obtain ⟨i, -, rfl⟩ := List.mem_map.mp h
    rfl
  · intro h
    rw [h]
    exact List.mem_map.mpr ⟨r.instr, mem_instrAll _, rfl⟩

/-- A row of the table matches its command's word alone: the mask keeps every bit (R109). -/
theorem hits_iff {r : OpcodeRow} (hr : r ∈ opcodeTable) (w : Word) : r.hits w = true ↔ encode r.instr = w := by
  have hmask : w &&& 0xFFFF = w := BitVec.and_allOnes
  rw [mem_opcodeTable.mp hr, OpcodeRow.hits, beq_iff_eq, hmask]
  exact eq_comm

/-- Settles O3: matching a row and decoding to its command both mean being its command's word. -/
theorem opcodeTableAgreesWithDecoder : Obligations.OpcodeTableAgreesWithDecoder := by
  refine ⟨fun w i => ?_, fun w r hr q hq hrw hqw => ?_⟩
  · rw [decode_eq_command_iff]
    constructor
    · intro h
      have hr : (⟨i, encode i, 0xFFFF⟩ : OpcodeRow) ∈ opcodeTable := mem_opcodeTable.mpr rfl
      exact ⟨_, hr, rfl, (hits_iff hr w).mpr h⟩
    · rintro ⟨r, hr, rfl, hw⟩
      exact (hits_iff hr w).mp hw
  · have hi : r.instr = q.instr := encode_injective (((hits_iff hr w).mp hrw).trans ((hits_iff hq w).mp hqw).symm)
    rw [mem_opcodeTable.mp hr, mem_opcodeTable.mp hq, hi]

/-! ### The assembled form -/

/-- An operand in the range of its kind is what its register's contents stand for (R83, R103). -/
theorem decodeOperand_encodeOperand {k : OperandKind} {v : Int} (h : k.admits v = true) :
    decodeOperand k (encodeOperand v) = v := by
  cases k <;> simp only [OperandKind.admits, Bool.and_eq_true, decide_eq_true_eq] at h
  case s16 =>
    rw [decodeOperand, encodeOperand, BitVec.toInt_ofInt]
    exact Int.bmod_eq_of_le (by omega) (by omega)
  case u8lo =>
    simp only [decodeOperand, encodeOperand, BitVec.extractLsb'_toNat, BitVec.toNat_ofInt]
    omega
  all_goals
    simp only [decodeOperand, encodeOperand, BitVec.toNat_ofInt]
    omega

/-- The operand writes read back, from any offset on. -/
theorem readOperands_operandWrites (ks : List OperandKind) (vs : List Int) (off : Nat)
    (h : operandsAdmit ks vs = true) : readOperands off ks (operandWrites off vs) = some vs := by
  induction ks generalizing vs off with
  | nil =>
    cases vs with
    | nil => rfl
    | cons v vs => simp [operandsAdmit] at h
  | cons k ks ih =>
    cases vs with
    | nil => simp [operandsAdmit] at h
    | cons v vs =>
      obtain ⟨hv, hvs⟩ := Bool.and_eq_true_iff.mp h
      rw [operandWrites, readOperands, if_pos rfl, ih vs (off + 1) hvs, decodeOperand_encodeOperand hv]

/-- Settles O4: the last write is the command's word, the writes before it its operands. -/
theorem assembleThenDisassemble : Obligations.AssembleThenDisassemble := by
  intro a h
  have hlast : (assemble a).getLast? = some ⟨0, encode a.instr⟩ := List.getLast?_concat ..
  have hargs : (assemble a).dropLast = operandWrites 1 a.args := List.dropLast_concat ..
  rw [disassemble, hlast, hargs]
  simp only [if_true, decode_encode, readOperands_operandWrites _ _ 1 h]

end Sys2Proof.Machine
end

section
/-! The decodes of the point op (R86, R87) and the pen word (R88, R89), and what is refused with ILLEGAL: a reserved
command and a reserved op (R82, R128, R223). -/

namespace Sys2Proof.Machine

/-! ### Point ops -/

/-- The values of A2 that are DRAW(c) or ERASE(c) (R87). -/
abbrev isComposite (a : Word) : Prop :=
  a.extractLsb' 9 7 = 0 ∧ a.getLsbD 8 = true ∧ a.extractLsb' 5 3 = 0 ∧ (a.extractLsb' 0 4).toNat ≤ 11

/-- The same of the op as a number. -/
theorem isComposite_iff {a : Word} : isComposite a ↔
    a.toNat / 512 = 0 ∧ a.toNat / 256 % 2 = 1 ∧ a.toNat / 32 % 8 = 0 ∧ a.toNat % 16 ≤ 11 := by
  have := a.isLt
  simp only [isComposite, ← BitVec.toNat_inj, BitVec.extractLsb'_toNat, BitVec.getLsbD,
    Nat.testBit_eq_decide_div_mod_eq, Nat.shiftRight_eq_div_pow, decide_eq_true_eq, BitVec.ofNat_eq_ofNat,
    BitVec.toNat_ofNat]
  omega

/-- A composite op is none of the three single-point ops. -/
theorem isComposite_ne_single {a : Word} (h : isComposite a) : a ≠ 0x0000 ∧ a ≠ 0x0001 ∧ a ≠ 0xFFFF := by
  refine ⟨?_, ?_, ?_⟩ <;> rintro rfl <;> revert h <;> decide

theorem decodeOp_of_composite {a : Word} (h : isComposite a) :
    decodeOp a = .composite (a.getLsbD 4) (a.extractLsb' 0 4).toNat := by
  obtain ⟨h0, h1, hF⟩ := isComposite_ne_single h
  rw [decodeOp, if_neg h0, if_neg h1, if_neg hF, if_pos h]

theorem decodeOp_of_reserved {a : Word} (h0 : a ≠ 0x0000) (h1 : a ≠ 0x0001) (hF : a ≠ 0xFFFF)
    (h : ¬ isComposite a) : decodeOp a = .reserved := by
  rw [decodeOp, if_neg h0, if_neg h1, if_neg hF, if_neg h]

/-- The five outcomes of the point op decode, in the order of R87. -/
theorem decodeOp_cases (a : Word) :
    (a = 0x0000 ∧ decodeOp a = .single .clear) ∨ (a = 0x0001 ∧ decodeOp a = .single .set) ∨
    (a = 0xFFFF ∧ decodeOp a = .single .read) ∨
    (isComposite a ∧ decodeOp a = .composite (a.getLsbD 4) (a.extractLsb' 0 4).toNat) ∨
    ((a ≠ 0x0000 ∧ a ≠ 0x0001 ∧ a ≠ 0xFFFF ∧ ¬ isComposite a) ∧ decodeOp a = .reserved) := by
  by_cases h0 : a = 0x0000
  · exact .inl ⟨h0, by rw [h0]; decide⟩
  by_cases h1 : a = 0x0001
  · exact .inr (.inl ⟨h1, by rw [h1]; decide⟩)
  by_cases hF : a = 0xFFFF
  · exact .inr (.inr (.inl ⟨hF, (decodeOp_read_iff a).mpr hF⟩))
  by_cases hc : isComposite a
  · exact .inr (.inr (.inr (.inl ⟨hc, decodeOp_of_composite hc⟩)))
  · exact .inr (.inr (.inr (.inr ⟨⟨h0, h1, hF, hc⟩, decodeOp_of_reserved h0 h1 hF hc⟩)))

/-- What A2 was, read back from the outcome. -/
theorem of_decodeOp (a : Word) :
    (decodeOp a = .single .clear → a = 0x0000) ∧ (decodeOp a = .single .set → a = 0x0001) ∧
    (decodeOp a = .single .read → a = 0xFFFF) ∧
    (∀ d c, decodeOp a = .composite d c → isComposite a ∧ d = a.getLsbD 4 ∧ c = (a.extractLsb' 0 4).toNat) ∧
    (decodeOp a = .reserved → a ≠ 0x0000 ∧ a ≠ 0x0001 ∧ a ≠ 0xFFFF ∧ ¬ isComposite a) := by
  rcases decodeOp_cases a with ⟨h, e⟩ | ⟨h, e⟩ | ⟨h, e⟩ | ⟨h, e⟩ | ⟨h, e⟩ <;> rw [e]
  · exact ⟨fun _ => h, nofun, nofun, nofun, nofun⟩
  · exact ⟨nofun, fun _ => h, nofun, nofun, nofun⟩
  · exact ⟨nofun, nofun, fun _ => h, nofun, nofun⟩
  · refine ⟨nofun, nofun, nofun, ?_, nofun⟩
    rintro _ _ ⟨⟩
    exact ⟨h, rfl, rfl⟩
  · exact ⟨nofun, nofun, nofun, nofun, fun _ => h⟩

/-- Settles O5: each outcome has its own values of A2. -/
theorem pointOpDecode : Obligations.PointOpDecode := by
  intro a
  obtain ⟨hclear, hset, hread, hcomp, hres⟩ := of_decodeOp a
  refine ⟨⟨hclear, by rintro rfl; decide⟩, ⟨hset, by rintro rfl; decide⟩, ⟨hread, (decodeOp_read_iff a).mpr⟩,
    fun d c => ⟨fun e => ?_, ?_⟩, ⟨hres, fun ⟨h0, h1, hF, hc⟩ => decodeOp_of_reserved h0 h1 hF hc⟩⟩
  · obtain ⟨⟨h9, h8, h5, h4⟩, hd, hc⟩ := hcomp d c e
    exact ⟨h9, h8, h5, h4, hd, hc⟩
  · rintro ⟨h9, h8, h5, h4, rfl, rfl⟩
    exact decodeOp_of_composite ⟨h9, h8, h5, h4⟩

/-! ### Pens -/

theorem penSize_eq (pen : Word) : penSize pen = pen.toNat % 16 := by
  simp [penSize, BitVec.extractLsb'_toNat]

/-- A pen is valid when its reserved bits are 0 and its SIZE is a code of the pen table (R89). -/
theorem penValid_iff (pen : Word) : penValid pen = true ↔ pen.toNat < 128 ∧ pen.toNat % 16 ≤ 11 := by
  have hhigh : pen.extractLsb' 7 9 = 0 ↔ pen.toNat < 128 := by
    rw [← BitVec.toNat_inj, BitVec.extractLsb'_toNat]
    have := pen.isLt
    simp
    omega
  rw [penValid, Bool.and_eq_true, beq_iff_eq, hhigh, decide_eq_true_eq, penSize_eq]

/-- Settles O6: the valid pens, their point op (R88), and the two bits. -/
theorem penDecode : Obligations.PenDecode := by
  refine fun pen => ⟨penValid_iff pen, fun h => ?_, rfl, rfl⟩
  rw [decodeOp_penOp h, penSize_eq]
  rfl

/-! ### What is refused -/

/-- A command that fails before it emits anything: STATUS and the host's own image writes aside, all stays (R15,
R223). -/
theorem fail_run_refuses (s : State) (f : StatusField) :
    s.frame (s.fail f s.run) ∧ s.silent (s.fail f s.run) ∧ (s.fail f s.run).status = endStatus s (some f) ∧
      (s.fail f s.run).result = s.result :=
  ⟨⟨⟨rfl, rfl, rfl, rfl, rfl, rfl, rfl, rfl, rfl, rfl⟩, rfl, rfl, rfl⟩, ⟨rfl, rfl⟩, rfl, rfl⟩

/-- A CMD word above 0x0E is reserved, and is refused (R82, R106). -/
theorem runCommand_of_reserved {s : State} (h : 0x0E < s.cmd.toNat) : runCommand s = .next (s.fail .illegal s.run) := by
  rw [runCommand, State.fetch]
  rcases decode_cases s.cmd with ⟨-, e⟩ | ⟨-, -, e⟩ | ⟨h8, ho, -⟩
  · rw [e]
    rfl
  · rw [e]
    rfl
  · have hw := toNat_eq_high_low s.cmd
    have h0 : (s.cmd.extractLsb' 8 8).toNat = 0 := by rw [h8]; rfl
    rw [h0, Nat.mul_zero, Nat.zero_add] at hw
    exact absurd (hw ▸ h) (Nat.not_lt.mpr ho)

/-- Settles O10: the reserved word is refused, and image memory plays no part in it. -/
theorem reservedCommandFails : Obligations.ReservedCommandFails := by
  intro s hb hf hc
  obtain ⟨hframe, hsilent, hstatus, hresult⟩ := fail_run_refuses s .illegal
  have hstep := (step_of_running hb hf).trans (runCommand_of_reserved hc)
  refine ⟨_, hstep, hframe, hsilent, hresult, hstatus, fun m => ?_⟩
  exact (step_of_running (s := { s with img := m }) hb hf).trans (runCommand_of_reserved (s := { s with img := m }) hc)

/-- Settles O39: every op outside the list of R86 decodes as reserved. -/
theorem pointRefusesReservedOps : Obligations.PointRefusesReservedOps := by
  intro s h0 h1 hF hc
  have hd : decodeOp s.a2 = .reserved := decodeOp_of_reserved h0 h1 hF fun h => by
    obtain ⟨h9, h8, h5, h4⟩ := isComposite_iff.mp h
    have := hc _ h4
    omega
  exact ⟨s.fail .illegal s.run, by simp only [exec, execPoint, hd], fail_run_refuses s .illegal⟩

end Sys2Proof.Machine
end

section
/-! The operand registers a command does not read (R83, R108): with other values in them it does the same. A command
reads an operand register nowhere but where its meaning names it, so each operation it is built from is the same. -/

namespace Sys2Proof.Machine

/-- The state with other operand registers. -/
def State.withOperands (s : State) (b0 b1 b2 b3 b4 b5 : Word) : State :=
  { s with a0 := b0, a1 := b1, a2 := b2, a3 := b3, a4 := b4, a5 := b5 }

/-- The rows WORDIMAGE DRAW sends, and the decoder after them; none when it met a reserved control word (R190). -/
def wordPlaneRows (s : State) (p : Nat) (x y w h : Int) : Option Decoder × Run :=
  blitRows s.cfg (blitColumn x w) y (blitWords w) (fun _ _ d => nextWord s d) (List.range h.toNat) (Decoder.start s p)
    s.run

theorem drawWordPlane_eq (s : State) (p : Nat) (x y w h : Int) : drawWordPlane s p x y w h =
    if (wordPlaneRows s p x y w h).1.isSome then s.finish (wordPlaneRows s p x y w h).2
    else s.fail .badimg (wordPlaneRows s p x y w h).2 := by
  rw [drawWordPlane, wordPlaneRows]
  split <;> rename_i e <;> rw [e] <;> rfl

section
variable (s : State) (b0 b1 b2 b3 b4 b5 : Word)

theorem finish_withOperands (u : Run) :
    (s.withOperands b0 b1 b2 b3 b4 b5).finish u = (s.finish u).withOperands b0 b1 b2 b3 b4 b5 := rfl

theorem drawShape_withOperands (pen : Word) (pts : List (Int × Int)) :
    drawShape (s.withOperands b0 b1 b2 b3 b4 b5) pen pts =
      (drawShape s pen pts).withOperands b0 b1 b2 b3 b4 b5 := by
  rw [drawShape, drawShape]
  split <;> rfl

theorem blitChecked_withOperands (x y w h : Int) (body : State) :
    blitChecked (s.withOperands b0 b1 b2 b3 b4 b5) x y w h (body.withOperands b0 b1 b2 b3 b4 b5) =
      (blitChecked s x y w h body).withOperands b0 b1 b2 b3 b4 b5 := by
  rw [blitChecked, blitChecked]
  cases blitCheck x y w h <;> rfl

theorem drawWordPlane_withOperands (p : Nat) (x y w h : Int) :
    drawWordPlane (s.withOperands b0 b1 b2 b3 b4 b5) p x y w h =
      (drawWordPlane s p x y w h).withOperands b0 b1 b2 b3 b4 b5 := by
  have e : wordPlaneRows (s.withOperands b0 b1 b2 b3 b4 b5) p x y w h = wordPlaneRows s p x y w h := rfl
  rw [drawWordPlane_eq, drawWordPlane_eq, e]
  split <;> rfl

end

section
variable {s t : State} (b2 b3 b4 b5 : Word)

theorem point_withOperands (h : exec .point s = .next t) :
    exec .point (s.withOperands s.a0 s.a1 s.a2 b3 b4 b5) = .next (t.withOperands s.a0 s.a1 s.a2 b3 b4 b5) := by
  rcases hd : decodeOp s.a2 with ⟨k⟩ | ⟨d, code⟩ | -
  · cases k <;> simp only [exec, execPoint, State.withOperands, hd] at h ⊢ <;> cases h <;> rfl
  · simp only [exec, execPoint, State.withOperands, hd] at h ⊢
    cases h
    rfl
  · simp only [exec, execPoint, State.withOperands, hd] at h ⊢
    cases h
    rfl

theorem readword_withOperands (h : exec .readword s = .next t) :
    exec .readword (s.withOperands s.a0 s.a1 b2 b3 b4 b5) = .next (t.withOperands s.a0 s.a1 b2 b3 b4 b5) := by
  cases hr : inRange (sext16 s.a0) (sext16 s.a1) <;>
    simp only [exec, execReadword, State.withOperands, hr] at h ⊢ <;> cases h <;> rfl

theorem writeword_withOperands (h : exec .writeword s = .next t) :
    exec .writeword (s.withOperands s.a0 s.a1 s.a2 b3 b4 b5) = .next (t.withOperands s.a0 s.a1 s.a2 b3 b4 b5) := by
  cases hr : inRange (sext16 s.a0) (sext16 s.a1) <;>
    simp only [exec, execWriteword, State.withOperands, hr] at h ⊢ <;> cases h <;> rfl

theorem bitimage_withOperands (h : exec .bitimage s = .next t) :
    exec .bitimage (s.withOperands s.a0 s.a1 s.a2 s.a3 b4 b5) = .next (t.withOperands s.a0 s.a1 s.a2 s.a3 b4 b5) := by
  rcases hm : decodeMode s.a3 with - | mode
  · simp only [exec, execBitimage, State.withOperands, hm] at h ⊢
    cases h
    rfl
  · cases mode
    all_goals
      simp only [exec, execBitimage, hm] at h
      cases h
      rw [← blitChecked_withOperands]
      simp only [exec, execBitimage, State.withOperands, hm]
      rfl

theorem wordimage_withOperands (h : exec .wordimage s = .next t) :
    exec .wordimage (s.withOperands s.a0 s.a1 s.a2 s.a3 b4 b5) = .next (t.withOperands s.a0 s.a1 s.a2 s.a3 b4 b5) := by
  rcases hm : decodeMode s.a3 with - | mode
  · simp only [exec, execWordimage, State.withOperands, hm] at h ⊢
    cases h
    rfl
  cases ho : s.a0.getLsbD 0 with
  | true =>
    simp only [exec, execWordimage, State.withOperands, hm, ho] at h ⊢
    cases h
    rfl
  | false =>
    cases mode
    case draw =>
      simp only [exec, execWordimage, hm, ho] at h
      cases h
      rw [if_neg Bool.false_ne_true, ← blitChecked_withOperands, ← drawWordPlane_withOperands]
      simp only [exec, execWordimage, State.withOperands, hm, ho]
      rfl
    all_goals
      simp only [exec, execWordimage, hm, ho] at h
      cases h
      rw [if_neg Bool.false_ne_true, ← blitChecked_withOperands]
      simp only [exec, execWordimage, State.withOperands, hm, ho]
      rfl

theorem fillregion_withOperands (h : exec .fillregion s = .next t) :
    exec .fillregion (s.withOperands s.a0 s.a1 s.a2 s.a3 s.a4 b5) =
      .next (t.withOperands s.a0 s.a1 s.a2 s.a3 s.a4 b5) := by
  rcases hm : decodeMode s.a4 with - | mode
  · simp only [exec, execFillregion, State.withOperands, hm] at h ⊢
    cases h
    rfl
  cases mode
  case draw =>
    simp only [exec, execFillregion, State.withOperands, hm] at h ⊢
    cases h
    rfl
  all_goals
    simp only [exec, execFillregion, hm] at h
    cases h
    rw [← blitChecked_withOperands]
    simp only [exec, execFillregion, State.withOperands, hm]
    rfl

end

/-- A command whose listed operand registers are those of `s` does what it does in `s` (R83, R108). -/
theorem exec_withOperands {i : Instr} {s t : State} {b0 b1 b2 b3 b4 b5 : Word}
    (h0 : 0 < i.operands.length → b0 = s.a0) (h1 : 1 < i.operands.length → b1 = s.a1)
    (h2 : 2 < i.operands.length → b2 = s.a2) (h3 : 3 < i.operands.length → b3 = s.a3)
    (h4 : 4 < i.operands.length → b4 = s.a4) (h : exec i s = .next t) :
    exec i (s.withOperands b0 b1 b2 b3 b4 b5) = .next (t.withOperands b0 b1 b2 b3 b4 b5) := by
  cases i <;> simp [Instr.operands] at h0 h1 h2 h3 h4 <;> subst_vars
  case nop | setaddr | blank =>
    cases h
    rfl
  case clear | fillscreen =>
    cases h
    exact congrArg Host.Outcome.next (finish_withOperands ..)
  case point => exact point_withOperands _ _ _ h
  case readword => exact readword_withOperands _ _ _ _ h
  case writeword => exact writeword_withOperands _ _ _ h
  case circle | rect | triangle | star =>
    cases h
    exact congrArg Host.Outcome.next (drawShape_withOperands ..)
  case bitimage => exact bitimage_withOperands _ _ h
  case wordimage => exact wordimage_withOperands _ _ h
  case fillregion => exact fillregion_withOperands _ h

/-- Settles O33: the changed operand registers are those of `withOperands`. -/
theorem unreadOperandsDoNotMatter : Obligations.UnreadOperandsDoNotMatter :=
  fun _ _ _ _ _ _ _ _ _ => exec_withOperands

end Sys2Proof.Machine
end

section
/-! What a composite POINT and the shapes paint (R126, R128, R150, R151): each is a list of single-point accesses, so
one lemma about such a list says what they do; and each shape's list is the one the claims write out (R157, R162,
R164). -/

namespace Sys2Proof.Machine

/-! ### A list of points painted -/

theorem compositeKind_ne_read (on : Bool) : compositeKind on ≠ .read := by
  cases on <;> decide

theorem compositeKind_set (on : Bool) : decide (compositeKind on = .set) = on := by
  cases on <;> rfl

theorem compositeKind_clear (on : Bool) : decide (compositeKind on = .clear) = !on := by
  cases on <;> rfl

theorem Paints.congr {s t : State} {on : Bool} {P Q : Int → Int → Prop} (h : Paints s t on P)
    (e : ∀ x y, P x y ↔ Q x y) : Paints s t on Q := by
  rw [← show P = Q from funext fun x => funext fun y => propext (e x y)]
  exact h

/-- `t` is where a command ends that painted the points `pts`, in order: what the claims say of POINT DRAW and ERASE
and of the shapes. -/
structure PaintedPoints (s t : State) (on : Bool) (pts : List (Int × Int)) : Prop where
  frame : s.frame t
  result : t.result = s.result
  status : t.status = notedStatus s (pts.any fun p => !inRange p.1 p.2)
  paints : Paints s t on fun x y => (x, y) ∈ pts
  inOrder : s.paintsInOrder t on pts
  events : t.trace.length = s.trace.length + 13 * pts.countP fun p => inRange p.1 p.2

/-- A command that is a list of SET or CLEAR accesses paints its points (R123, R126, R130). -/
theorem paintedPoints_singleAll {s : State} (hs : s.displayReady = true) (on : Bool) (pts : List (Int × Int)) :
    PaintedPoints s (s.finish (singleAll s.cfg (compositeKind on) pts s.run)) on pts := by
  obtain ⟨hwf, hrc⟩ := displayReady_iff.mp hs
  have hd := configWf_distinct hwf
  have hk := compositeKind_ne_read on
  obtain ⟨hdram, -, hlen, hrange⟩ := singleAll_spec hd hk pts (u := s.run) hrc
  refine ⟨finish_frame s s.result _, rfl, ?_, fun l k i hi => ?_, ?_, ?_⟩
  · rw [finish_status, hrange, run_range, Bool.false_or]
    cases pts.any fun p => !inRange p.1 p.2 <;> rfl
  · have hbit := paintAll_bit s.cfg hk pts s.rc.dram l k i hi
    rw [compositeKind_clear] at hbit
    rw [finish_rc, hdram]
    exact ⟨fun ⟨x, y, hp, ht⟩ => hbit.1 ⟨(x, y), hp, ht⟩, fun hn => hbit.2 fun ⟨p, hp, ht⟩ => hn ⟨p.1, p.2, hp, ht⟩⟩
  · have h := singleAll_paintsInOrder hd hk pts (u := s.run) hrc
    rw [compositeKind_set] at h
    exact h
  · rw [finish_trace, hlen, List.countP_eq_length_filter]
    rfl

/-! ### Dots -/

theorem mem_dotPoints {c : Config} {code : Nat} {x y px py : Int} :
    (px, py) ∈ dotPoints c code x y ↔ inDot c code x y px py := by
  simp only [dotPoints, inDot, List.mem_map, Prod.mk.injEq]
  constructor
  · rintro ⟨d, hd, rfl, rfl⟩
    simpa using hd
  · intro h
    exact ⟨_, h, by omega, by omega⟩

theorem any_dotPoints (c : Config) (code : Nat) (x y : Int) :
    ((dotPoints c code x y).any fun p => !inRange p.1 p.2) = dotLeaves c code x y := by
  rw [dotPoints, List.any_map]
  rfl

theorem countP_dotPoints (c : Config) (code : Nat) (x y : Int) :
    ((dotPoints c code x y).countP fun p => inRange p.1 p.2) = dotVisible c code x y := by
  rw [dotPoints, List.countP_map]
  rfl

/-- POINT with a composite op is a list of single-point accesses (R126, R128). -/
theorem exec_point_composite {s : State} {draw : Bool} {code : Nat} (hd : decodeOp s.a2 = .composite draw code) :
    exec .point s = .next (s.finish
      (singleAll s.cfg (compositeKind draw) (dotPoints s.cfg code s.a0.toInt s.a1.toInt) s.run)) := by
  simp only [exec, execPoint, hd, plot, plotOffsets_eq_singleAll, penOffsets_eq_dotOffsets]
  rfl

/-- The op words of DRAW(c) and ERASE(c) (R86). -/
theorem decodeOp_draw_erase {a : Word} {draw : Bool} {code : Nat} (hcode : code ≤ 11)
    (ha : a.toNat = 0x0100 + (if draw then 0x10 else 0) + code) : decodeOp a = .composite draw code := by
  have hc : isComposite a := isComposite_iff.mpr (by split at ha <;> omega)
  have hsize : (a.extractLsb' 0 4).toNat = code := by
    rw [BitVec.extractLsb'_toNat, Nat.shiftRight_zero]
    split at ha <;> omega
  have hdraw : a.getLsbD 4 = draw := by
    rw [BitVec.getLsbD, Nat.testBit_eq_decide_div_mod_eq, ha]
    cases draw <;> simp <;> omega
  rw [decodeOp_of_composite hc, hsize, hdraw]

/-- Settles O40: the points of one dot are painted. -/
theorem pointDrawsADot : Obligations.PointDrawsADot := by
  intro s draw code hs hcode ha
  have hp := paintedPoints_singleAll hs draw (dotPoints s.cfg code s.a0.toInt s.a1.toInt)
  refine ⟨_, exec_point_composite (decodeOp_draw_erase hcode ha), hp.frame, hp.result, ?_,
    hp.paints.congr fun _ _ => mem_dotPoints, hp.inOrder, ?_⟩
  · rw [hp.status, any_dotPoints]
  · rw [hp.events, countP_dotPoints]

/-! ### The points of the shapes, in order -/

theorem rowPoints_eq {a b n : Int} (h : b - a + 1 = n) (row : Int) : rowPoints a b row = pointsFrom a row n := by
  rw [rowPoints, intRange, pointsFrom, List.map_map, h]
  rfl

theorem flatMap_intRange {α : Type} {a b n : Int} (h : b - a + 1 = n) (f : Int → List α) :
    (intRange a b).flatMap f = (List.range n.toNat).flatMap fun (k : Nat) => f (a + k) := by
  rw [intRange, List.flatMap_map, h]

/-- A rectangle's points come in the order of R157. -/
theorem rectPoints_eq_rectOrder (x y w h : Int) (fill : Bool) : rectPoints x y w h fill = rectOrder x y w h fill := by
  rw [rectPoints, rectOrder]
  by_cases hd : w ≤ 1 ∨ h ≤ 0
  · rw [if_pos hd, if_pos hd]
  · have hbottom : (if 2 ≤ h then rowPoints x (x + w - 1) (y + h - 1) else []) =
        if h = 1 then [] else pointsFrom x (y + h - 1) w := by
      rw [rowPoints_eq (n := w) (by omega)]
      by_cases h1 : h = 1
      · rw [if_neg (by omega), if_pos h1]
      · rw [if_pos (by omega), if_neg h1]
    have hinterior : ∀ j, rowPoints (x + 1) (x + w - 2) j = pointsFrom (x + 1) j (w - 2) :=
      fun j => rowPoints_eq (by omega) j
    rw [if_neg hd, if_neg hd, hbottom, rowPoints_eq (n := w) (by omega), flatMap_intRange (n := h - 2) (by omega),
      flatMap_intRange (n := h - 2) (by omega)]
    simp only [hinterior]

/-- A row of a triangle has a half-width (R160). -/
theorem halfWidth_nonneg {b h i : Int} (hb : 0 ≤ b) (hh : 0 < h) (hi : 0 ≤ i) : 0 ≤ halfWidth b h i := by
  rw [halfWidth]
  split
  · exact hb
  · exact Int.ediv_nonneg (Int.mul_nonneg hb hi) (by omega)

/-- A row of a triangle, left to right (R162). -/
theorem triangleRow_eq {b h i : Int} (hw : 0 ≤ halfWidth b h i) (x y : Int) (fill flip : Bool) :
    triangleRow x y b h fill flip i =
      if fill = true ∨ i + 1 = h then
        pointsFrom (x - halfWidth b h i) (if flip then y - i else y + i) (2 * halfWidth b h i + 1)
      else if halfWidth b h i = 0 then [(x, if flip then y - i else y + i)]
      else
        [(x - halfWidth b h i, if flip then y - i else y + i),
          (x + halfWidth b h i, if flip then y - i else y + i)] := by
  have hbase : i = h - 1 ↔ i + 1 = h := by omega
  have hrow := rowPoints_eq (show x + halfWidth b h i - (x - halfWidth b h i) + 1 = 2 * halfWidth b h i + 1 by omega)
  simp only [triangleRow, hbase, hrow]
  by_cases h0 : halfWidth b h i = 0
  · simp [h0]
  · rw [if_pos (show 0 < halfWidth b h i by omega), if_neg h0]

/-- A triangle's points come in the order of R162. -/
theorem trianglePoints_eq_triangleOrder (x y b h : Int) (fill flip : Bool) :
    trianglePoints x y b h fill flip = triangleOrder x y b h fill flip := by
  rw [trianglePoints, triangleOrder]
  by_cases hd : h ≤ 0 ∨ b < 0
  · rw [if_pos hd, if_pos hd]
  · rw [if_neg hd, if_neg hd, flatMap_intRange (n := h) (by omega)]
    refine congrArg (List.flatMap · _) (funext fun i => ?_)
    rw [Int.zero_add, triangleRow_eq (halfWidth_nonneg (by omega) (by omega) (by omega))]
    rfl

/-- A star's points come in the order of R164. -/
theorem starPoints_eq_starOrder (x y b h : Int) (fill : Bool) : starPoints x y b h fill = starOrder x y b h fill := by
  rw [starPoints, starOrder, trianglePoints_eq_triangleOrder, trianglePoints_eq_triangleOrder]
  split
  · rename_i hd
    rw [triangleOrder, triangleOrder, if_pos hd, if_pos hd]
    rfl
  · rfl

/-! ### The shapes -/

/-- A shape command draws its points with its pen (R150, R151). -/
theorem exec_shape {i : Instr} (hi : i ∈ shapeCommands) (s : State) :
    exec i s = .next (drawShape s (shapePen i s) (shapePoints i s)) := by
  simp only [shapeCommands, List.mem_cons, List.not_mem_nil, or_false] at hi
  rcases hi with rfl | rfl | rfl | rfl
  · rfl
  · rw [shapePoints, ← rectPoints_eq_rectOrder]
    rfl
  · rw [shapePoints, ← trianglePoints_eq_triangleOrder]
    rfl
  · rw [shapePoints, ← starPoints_eq_starOrder]
    rfl

/-- Settles O48: a shape looks at its pen first. -/
theorem shapesRefuseInvalidPens : Obligations.ShapesRefuseInvalidPens := by
  intro i s hi hp
  have he := exec_shape hi s
  rw [drawShape, if_neg (mt (penValid_iff _).mp hp)] at he
  exact ⟨_, he, fail_run_refuses s .illegal⟩

/-- A shape with a valid pen is a list of single-point accesses (R150). -/
theorem exec_shape_valid {i : Instr} (hi : i ∈ shapeCommands) {s : State} (hp : penValid (shapePen i s) = true) :
    exec i s = .next (s.finish (singleAll s.cfg (compositeKind (penDraw (shapePen i s)))
      (dotsPoints s.cfg (penSize (shapePen i s)) (shapePoints i s)) s.run)) := by
  rw [exec_shape hi, drawShape, if_pos hp, decodeOp_penOp hp, plotAll_eq_singleAll]

theorem mem_dotsPoints {c : Config} {code : Nat} {pts : List (Int × Int)} {px py : Int} :
    (px, py) ∈ dotsPoints c code pts ↔ ∃ p ∈ pts, inDot c code p.1 p.2 px py := by
  simp only [dotsPoints, List.mem_flatMap, mem_dotPoints]

/-- Settles O47: the points of the dots at the shape's points are painted. -/
theorem shapesPaintTheirPoints : Obligations.ShapesPaintTheirPoints := by
  rintro i s code hi hs hp rfl
  have hp' := paintedPoints_singleAll hs (penDraw (shapePen i s))
    (dotsPoints s.cfg (penSize (shapePen i s)) (shapePoints i s))
  rw [← penSize_eq]
  refine ⟨_, exec_shape_valid hi hp, hp'.frame, hp'.result, ?_, hp'.paints.congr fun _ _ => mem_dotsPoints,
    hp'.inOrder, ?_⟩
  · rw [hp'.status, dotsPoints, List.any_flatMap]
    simp only [any_dotPoints]
  · rw [hp'.events, dotsPoints, List.countP_flatMap]
    simp only [Function.comp_def, countP_dotPoints]

end Sys2Proof.Machine
end

section
/-! What a blit sends and writes, in the terms of the claims (R181, R182), reads of an image that no host write races
with (R75, R92), and BITIMAGE DRAW (R185, R186). -/

namespace Sys2Proof.Machine

/-! ### The events of a blit -/

theorem sendWords_trace (ws : List Word) (u : Run) : (sendWords ws u).trace = u.trace ++ ws.flatMap wordEvents := by
  induction ws generalizing u with
  | nil => simp [sendWords]
  | cons w ws ih =>
    have e : sendWords (w :: ws) u = sendWords ws (busDataWord w u) := rfl
    rw [e, ih, busDataWord_trace, List.flatMap_cons, List.append_assoc]
    rfl

theorem sendRow_trace (c : Config) (xa y : Int) (u : Run) (row : Nat × List Word) : (sendRow c xa y u row).trace =
    u.trace ++ rowEvents c (byteOfInt (y + row.1)) (columnByte xa) row.2 := by
  rw [sendRow, sendWords_trace, busCmd_trace, setAddress_trace]
  simp [rowEvents, addressEvents]

theorem sendRows_trace (c : Config) (xa y : Int) (rows : List (Nat × List Word)) (u : Run) :
    (rows.foldl (sendRow c xa y) u).trace =
      u.trace ++ rows.flatMap fun row => rowEvents c (byteOfInt (y + row.1)) (columnByte xa) row.2 := by
  induction rows generalizing u with
  | nil => simp
  | cons row rows ih => rw [List.foldl_cons, ih, sendRow_trace, List.flatMap_cons, List.append_assoc]

/-! ### A blit on the surface -/

section
variable {x y w h : Int} (ha : areaOnSurface x y w h)
include ha

/-- The first word column of an area on the surface (R181, R182). -/
theorem blitColumn_toNat : (columnByte (blitColumn x w)).toNat = ((160 - x - w) / 3).toNat := by
  rw [blitColumn, columnByte_toNat (by omega) (by omega)]
  congr 2
  omega

theorem blitColumn_byte : columnByte (blitColumn x w) = BitVec.ofInt 8 ((160 - x - w) / 3) := by
  apply BitVec.eq_of_toNat_eq
  rw [blitColumn_toNat ha, BitVec.toNat_ofInt]
  omega

/-- The rows of a blit fit the column window (R183). -/
theorem sourceRows_fit {c : Config} (hwf : configWf c = true) {σ : Type} {next : Nat → Nat → σ → Option (Word × σ)}
    {rs : List Nat} {d : σ} : ∀ row ∈ (sourceRows next (blitWords w) rs d).1,
      (columnByte (blitColumn x w)).toNat + row.2.length ≤ c.colEnd.toNat + 1 := by
  intro row hrow
  have hlen := (of_mem_sourceRows hrow).2
  have hfit := blitColumn_fits ha
  have hend := configWf_colEnd hwf
  omega

end

/-- The rows of words a blit of a `w` by `h` image sends. -/
theorem blitPure_eq (c : Config) (x y w h : Int) (f : Nat → Nat → Word) (u : Run) : blitPure c x y w h f u =
    ((List.range h.toNat).map fun r => (r, (List.range (blitWords w)).map (f r))).foldl
      (sendRow c (blitColumn x w) y) u := by
  rw [blitPure, blitRows_eq, sourceRows_pure]

/-- A blit looks at its words inside the image alone. -/
theorem blitPure_congr (c : Config) (x y w h : Int) {f g : Nat → Nat → Word} (u : Run)
    (hfg : ∀ r k, r < h.toNat → k < blitWords w → f r k = g r k) :
    blitPure c x y w h f u = blitPure c x y w h g u := by
  rw [blitPure_eq, blitPure_eq]
  congr 1
  refine List.map_congr_left fun r hr => congrArg (Prod.mk r) (List.map_congr_left fun k hk => ?_)
  exact hfg r k (List.mem_range.mp hr) (List.mem_range.mp hk)

/-- A blit of given words on the surface replaces exactly the area's words, row by row, and notes no cause (R181, R182,
R183). -/
theorem blits_blitPure {s : State} (hs : s.displayReady = true) {x y w h : Int} (ha : areaOnSurface x y w h)
    (f : Nat → Nat → Word) : Blits s (s.finish (blitPure s.cfg x y w h f s.run)) x y w h f ∧
      (blitPure s.cfg x y w h f s.run).range = false := by
  obtain ⟨hwf, hrc⟩ := displayReady_iff.mp hs
  have hfit := blitColumn_fits ha
  have hcol := blitColumn_toNat ha
  have hnw : blitWords w = ((w + 2) / 3).toNat := rfl
  refine ⟨⟨fun l k => ?_, ?_⟩, (blitPure_emits ..).2⟩
  · have hwindow := sourceRows_fit ha hwf (next := pureSource f) (rs := List.range h.toNat) (d := ())
    rw [sourceRows_pure] at hwindow
    obtain ⟨hdram, -⟩ := sendRows_spec (configWf_distinct hwf) (blitColumn x w) y _ (u := s.run) hrc hwindow
    rw [finish_rc, blitPure_eq, hdram, readWord_writeRows (fun r => (List.range (blitWords w)).map (f r)) (blitWords w)
      (by simp) _ y _ _ (by omega) (by omega) (by omega)]
    by_cases hin : y ≤ l.toNat ∧ l.toNat < y + h ∧ (160 - x - w) / 3 ≤ k.toNat ∧
        k.toNat < (160 - x - w) / 3 + (w + 2) / 3
    · rw [if_pos hin, if_pos (by omega), hcol, List.getD_eq_getElem _ _ (by simp; omega)]
      simp
    · rw [if_neg hin, if_neg (by omega)]
      rfl
  · rw [finish_trace, blitPure_eq, sendRows_trace, List.flatMap_map, blitColumn_byte ha]
    rfl

/-! ### Image bytes that no host write races with -/

section
variable {s : State} {p n : Nat} (hq : s.quiet p n)
include hq

/-- A read of a byte that no host write races with sees image memory (R53, R75). -/
theorem imgByte_of_quiet {k : Nat} (hk : k < n) (read : Nat) : s.imgByte read (p + k) = s.imageByte (p + k) := by
  have hrace : s.racingAt ((p + k) % imgSize s.cfg) = [] := by
    rw [State.racingAt, List.map_eq_nil_iff, List.filter_eq_nil_iff]
    intro c hc
    simpa [imgSize] using hq k hk c hc
  rw [State.imgByte, hrace]
  rfl

theorem imgWord_of_quiet {k : Nat} (hk : k + 1 < n) (read : Nat) : s.imgWord read (p + k) = s.imageWord (p + k) := by
  rw [State.imgWord, imgByte_of_quiet hq (Nat.lt_of_succ_lt hk), Nat.add_assoc, imgByte_of_quiet hq hk]
  rfl

end

/-! ### BITIMAGE -/

/-- A field of a packed word, cleared when its image column is on (R185). -/
def clearField (c : Config) (g : Nat) (on : Bool) (wd : Word) : Word := if on then wd &&& ~~~ fieldMask c g else wd

theorem clearField_bit (c : Config) (g : Nat) (on : Bool) (wd : Word) {i : Nat} (hi : i < 16) :
    (clearField c g on wd).getLsbD i = (wd.getLsbD i && !(on && (fieldMask c g).getLsbD i)) := by
  cases on <;> simp [clearField, hi]

/-- Field `g` of word `k` of row `r` has an image column, and it is on (R185). -/
def fieldOn (s : State) (p w r k g : Nat) : Bool :=
  decide (3 * k + g < w) && s.imageBit p w r (w - 1 - (3 * k + g))

/-- Word `k` of row `r` of a bit-plane image that no host write races with (R185). -/
def packedWord (s : State) (p w r k : Nat) : Word :=
  clearField s.cfg 2 (fieldOn s p w r k 2) (clearField s.cfg 1 (fieldOn s p w r k 1)
    (clearField s.cfg 0 (fieldOn s p w r k 0) wordOff))

/-- The bits of a packed word, as the claim says them. -/
theorem packedWord_bit (s : State) (p w r k i : Nat) (hi : i < 16) : (packedWord s p w r k).getLsbD i =
    ((0xFFDF : Word).getLsbD i && !decide (∃ g : Nat, g < 3 ∧ (fieldMask s.cfg g).getLsbD i = true ∧
      3 * k + g < w ∧ s.imageBit p w r (w - 1 - (3 * k + g)) = true)) := by
  have hon : ∀ g, (fieldOn s p w r k g && (fieldMask s.cfg g).getLsbD i) = true ↔
      (fieldMask s.cfg g).getLsbD i = true ∧ 3 * k + g < w ∧ s.imageBit p w r (w - 1 - (3 * k + g)) = true := by
    intro g
    rw [fieldOn, Bool.and_eq_true, Bool.and_eq_true, decide_eq_true_eq]
    exact and_comm
  have hex : decide (∃ g : Nat, g < 3 ∧ (fieldMask s.cfg g).getLsbD i = true ∧
      3 * k + g < w ∧ s.imageBit p w r (w - 1 - (3 * k + g)) = true) =
      (fieldOn s p w r k 0 && (fieldMask s.cfg 0).getLsbD i || fieldOn s p w r k 1 && (fieldMask s.cfg 1).getLsbD i ||
        fieldOn s p w r k 2 && (fieldMask s.cfg 2).getLsbD i) := by
    rw [Bool.eq_iff_iff, decide_eq_true_iff]
    simp only [← hon, Bool.or_eq_true]
    constructor
    · rintro ⟨g, hg, h⟩
      interval_cases g
      · exact .inl (.inl h)
      · exact .inl (.inr h)
      · exact .inr h
    · rintro ((h | h) | h)
      · exact ⟨0, by omega, h⟩
      · exact ⟨1, by omega, h⟩
      · exact ⟨2, by omega, h⟩
  rw [packedWord, clearField_bit _ _ _ _ hi, clearField_bit _ _ _ _ hi, clearField_bit _ _ _ _ hi, hex,
    Bool.not_or, Bool.not_or, Bool.and_assoc, Bool.and_assoc, Bool.and_assoc]
  rfl

section
variable {s : State} {p w h r : Nat} (hq : s.quiet p (2 + (w + 7) / 8 * h)) (hr : r < h)
include hq hr

/-- The machine's reads of an image column are the image's bits (R92). -/
theorem bitOn_eq_imageBit {col : Nat} (hcol : col < w) (read : Nat) :
    bitOn s p w read r col = s.imageBit p w r col := by
  have hrow : (r + 1) * ((w + 7) / 8) ≤ h * ((w + 7) / 8) := Nat.mul_le_mul_right _ hr
  rw [Nat.add_one_mul, Nat.mul_comm h] at hrow
  have haddr : bitByteAddr p w r col = p + (2 + r * ((w + 7) / 8) + col / 8) := by
    have hbytes : (((w : Int) + 7) / 8).toNat = (w + 7) / 8 := by omega
    have hbyte : ((col : Int) / 8).toNat = col / 8 := by omega
    rw [bitByteAddr, hbytes, hbyte]
    omega
  have hbit : ((col : Int) % 8).toNat = col % 8 := by omega
  rw [bitOn, haddr, hbit, imgByte_of_quiet hq (by omega), State.imageBit, Nat.add_assoc, Nat.add_assoc, Nat.add_assoc]

/-- One field step of the packing (R185). -/
theorem bitField_eq_clearField (k g : Nat) (wd : Word) :
    bitField s p w r k g wd = clearField s.cfg g (fieldOn s p w r k g) wd := by
  rw [bitField, clearField]
  by_cases hc : 3 * k + g < w
  · have hcol : bitColumn w k g = ((w - 1 - (3 * k + g) : Nat) : Int) := by
      rw [bitColumn]
      omega
    rw [hcol, bitOn_eq_imageBit hq hr (by omega)]
    simp [fieldOn, hc]
  · have hcol : ¬ 0 ≤ bitColumn w k g := by
      rw [bitColumn]
      omega
    simp [fieldOn, hc, hcol]

theorem bitWord_eq_packedWord (k : Nat) : bitWord s p w r k = packedWord s p w r k := by
  rw [bitWord, bitField_eq_clearField hq hr, bitField_eq_clearField hq hr, bitField_eq_clearField hq hr, packedWord]

end

/-- A blit of an area on the surface goes on to its body (R183). -/
theorem blitChecked_onSurface {x y w h : Int} (ha : areaOnSurface x y w h) (s body : State) :
    blitChecked s x y w h body = body := by
  rw [blitChecked, blitCheck_onSurface_iff.mpr ha]

/-- BITIMAGE DRAW of an image on the surface that no host write races with (R186). -/
theorem exec_bitimage_draw {s : State} {w h : Nat} (hmode : s.a3 = 1) (hw : w = (s.imageByte s.a0.toNat).toNat)
    (hh : h = (s.imageByte (s.a0.toNat + 1)).toNat) (hq : s.quiet s.a0.toNat (2 + (w + 7) / 8 * h))
    (ha : areaOnSurface s.a1.toInt s.a2.toInt w h) : exec .bitimage s =
      .next (s.finish (blitPure s.cfg s.a1.toInt s.a2.toInt w h (packedWord s s.a0.toNat w) s.run)) := by
  have hd : decodeMode s.a3 = some .draw := by rw [hmode]; rfl
  have hw' : s.imgByte 0 s.a0.toNat = s.imageByte s.a0.toNat := imgByte_of_quiet hq (k := 0) (by omega) 0
  have hh' : s.imgByte 1 (s.a0.toNat + 1) = s.imageByte (s.a0.toNat + 1) := imgByte_of_quiet hq (by omega) 1
  have hwords : blitPure s.cfg s.a1.toInt s.a2.toInt w h (packedWord s s.a0.toNat w) s.run =
      blitPure s.cfg s.a1.toInt s.a2.toInt w h (bitWord s s.a0.toNat w) s.run :=
    blitPure_congr _ _ _ _ _ _ fun r k hr _ => (bitWord_eq_packedWord hq (by omega) k).symm
  simp only [exec, execBitimage, hd, hw', hh', ← hw, ← hh]
  rw [hwords]
  exact congrArg Host.Outcome.next (blitChecked_onSurface ha s _)

/-- Settles O58: a blit of the packed words. -/
theorem bitimageDrawsTheImage : Obligations.BitimageDrawsTheImage := by
  intro s w hs hmode hw hq ha
  obtain ⟨hblits, hrange⟩ := blits_blitPure hs ha (packedWord s s.a0.toNat w)
  refine ⟨_, _, exec_bitimage_draw hmode hw rfl hq ha, finish_frame s s.result _, rfl, ?_, hblits,
    fun r k i => packedWord_bit s _ w r k i⟩
  rw [finish_status, hrange]
  rfl

end Sys2Proof.Machine
end

section
/-! WORDIMAGE DRAW (R190 to R196). A source of words with a state, asked for one word after another, gives a list of
words whatever the rows it is cut into; the decoder's list is its payload decoded item by item (R94 to R97). -/

namespace Sys2Proof.Machine

/-! ### Words drawn from a source -/

section
variable {σ : Type} (next : σ → Option (Word × σ))

/-- The first `n` words of a source, up to its failure, and its state after them; none when it fails. -/
def drawn : Nat → σ → List Word × Option σ
  | 0, d => ([], some d)
  | n + 1, d =>
    match next d with
    | none => ([], none)
    | some (w, d') => (w :: (drawn n d').1, (drawn n d').2)

theorem drawn_succ_of_none {d : σ} (h : next d = none) (n : Nat) : drawn next (n + 1) d = ([], none) := by
  rw [drawn, h]

theorem drawn_succ_of_some {d d' : σ} {w : Word} (h : next d = some (w, d')) (n : Nat) :
    drawn next (n + 1) d = (w :: (drawn next n d').1, (drawn next n d').2) := by
  rw [drawn, h]

theorem sourceWords_eq_drawn (ks : List Nat) (d : σ) : sourceWords (fun _ => next) ks d = drawn next ks.length d := by
  induction ks generalizing d with
  | nil => rfl
  | cons k ks ih =>
    rw [sourceWords, List.length_cons, drawn]
    cases next d with
    | none => rfl
    | some q => simp only [ih]

/-- A source that does not fail gives all its words, one that fails fewer. -/
theorem drawn_length (n : Nat) (d : σ) : (drawn next n d).1.length ≤ n ∧
    ((drawn next n d).2.isSome = true ↔ (drawn next n d).1.length = n) := by
  induction n generalizing d with
  | zero => simp [drawn]
  | succ n ih =>
    cases h : next d with
    | none => simp [drawn_succ_of_none next h]
    | some q =>
      rw [drawn_succ_of_some next h]
      simpa using ih q.2

/-- Drawing goes on where it stopped. -/
theorem drawn_add {m : Nat} {d d' : σ} {xs : List Word} (h : drawn next m d = (xs, some d')) (n : Nat) :
    drawn next (m + n) d = (xs ++ (drawn next n d').1, (drawn next n d').2) := by
  induction m generalizing d xs with
  | zero =>
    cases h
    rw [Nat.zero_add]
    rfl
  | succ m ih =>
    cases hd : next d with
    | none => simp [drawn_succ_of_none next hd] at h
    | some q =>
      rw [drawn_succ_of_some next hd, Prod.mk.injEq] at h
      obtain ⟨rfl, h2⟩ := h
      rw [Nat.add_right_comm, drawn_succ_of_some next hd, ih (Prod.ext rfl h2)]
      rfl

/-- A source that has failed gives no more words. -/
theorem drawn_add_of_failed {m : Nat} {d : σ} {xs : List Word} (h : drawn next m d = (xs, none)) (n : Nat) :
    drawn next (m + n) d = (xs, none) := by
  induction m generalizing d xs with
  | zero => cases h
  | succ m ih =>
    cases hd : next d with
    | none =>
      rw [Nat.add_right_comm, drawn_succ_of_none next hd, ← h, drawn_succ_of_none next hd]
    | some q =>
      rw [drawn_succ_of_some next hd, Prod.mk.injEq] at h
      obtain ⟨rfl, h2⟩ := h
      rw [Nat.add_right_comm, drawn_succ_of_some next hd, ih (Prod.ext rfl h2)]

/-- The words asked for first are the first of those asked for in all. -/
theorem drawn_take (m n : Nat) (d : σ) : (drawn next m d).1 = (drawn next (m + n) d).1.take m := by
  have hlen := drawn_length next m d
  rcases h : drawn next m d with ⟨xs, - | d'⟩
  · rw [h] at hlen
    rw [drawn_add_of_failed next h, List.take_of_length_le hlen.1]
  · rw [h] at hlen
    have hxs : xs.length = m := hlen.2.mp rfl
    rw [drawn_add next h, ← hxs, List.take_left']
    rfl

/-- How many words are drawn does not matter to those that come first: after `m` words `xs` the source goes on from
`d'`. -/
theorem drawn_after {m : Nat} {d d' : σ} {xs : List Word} (h : drawn next m d = (xs, some d')) (need : Nat) :
    (drawn next need d).1 = (xs ++ (drawn next (need - m) d').1).take need := by
  have hlen := drawn_length next m d
  rw [h] at hlen
  have hxs : xs.length = m := hlen.2.mp rfl
  rcases Nat.le_total need m with hle | hle
  · obtain ⟨k, rfl⟩ := Nat.exists_eq_add_of_le hle
    rw [drawn_take next need k, h, Nat.sub_eq_zero_of_le hle, List.take_append_of_le_length (by omega)]
  · obtain ⟨k, rfl⟩ := Nat.exists_eq_add_of_le hle
    rw [drawn_add next h, Nat.add_sub_cancel_left, List.take_of_length_le]
    have := (drawn_length next k d').1
    simp only [List.length_append]
    omega

/-- How many rows of `nw` words are begun when `ws` are the words supplied for `n` of them (R194). -/
def rowsBegun (nw n : Nat) (ws : List Word) : Nat := if ws.length = n * nw then n else ws.length / nw + 1

/-- The rows of a blit are its source's words, `nw` to a row (R181, R194). -/
theorem sourceRows_eq_drawn {nw : Nat} (hnw : 0 < nw) (r0 n : Nat) (d : σ) :
    sourceRows (fun _ _ => next) nw (List.range' r0 n) d =
      ((List.range (rowsBegun nw n (drawn next (n * nw) d).1)).map fun j =>
          (r0 + j, ((drawn next (n * nw) d).1.drop (j * nw)).take nw),
        (drawn next (n * nw) d).2) := by
  induction n generalizing r0 d with
  | zero => simp [sourceRows, drawn, rowsBegun]
  | succ n ih =>
    have hlen := drawn_length next nw d
    rw [List.range'_succ, sourceRows, sourceWords_eq_drawn, List.length_range, Nat.add_one_mul, Nat.add_comm (n * nw)]
    rcases h : drawn next nw d with ⟨ws, - | d'⟩
    · rw [h] at hlen
      have hne : ws.length ≠ nw := fun e => by simpa using hlen.2.mpr e
      have hlt : ws.length < nw := Nat.lt_of_le_of_ne hlen.1 hne
      rw [drawn_add_of_failed next h]
      have hrows : rowsBegun nw (n + 1) ws = 1 := by
        rw [rowsBegun, if_neg, Nat.div_eq_of_lt hlt]
        rw [Nat.add_one_mul]
        omega
      simp [hrows, List.take_of_length_le hlen.1]
    · rw [h] at hlen
      have hws : ws.length = nw := hlen.2.mp rfl
      rw [drawn_add next h]
      generalize hrest : drawn next (n * nw) d' = rest
      have hih := ih (r0 + 1) d'
      rw [hrest] at hih
      have hrows : rowsBegun nw (n + 1) (ws ++ rest.1) = rowsBegun nw n rest.1 + 1 := by
        rw [rowsBegun, rowsBegun, List.length_append, hws, Nat.add_one_mul, Nat.add_comm (n * nw),
          Nat.add_div_left _ hnw]
        simp only [Nat.add_left_cancel_iff]
        split <;> rfl
      have hfirst : ((ws ++ rest.1).drop (0 * nw)).take nw = ws := by
        rw [Nat.zero_mul, List.drop_zero, List.take_left' hws]
      have hlater : ∀ j, (ws ++ rest.1).drop ((j + 1) * nw) = rest.1.drop (j * nw) := by
        intro j
        rw [Nat.add_one_mul, Nat.add_comm, ← hws, List.drop_length_add_append]
      simp only [hih, hrows, List.range_succ_eq_map, List.map_cons, List.map_map, Function.comp_def, hfirst,
        Nat.succ_eq_add_one, hlater, Nat.add_zero, Nat.add_assoc, Nat.add_comm 1]

end

end Sys2Proof.Machine
end

section
/-! What a blit whose source may fail leaves of the display (R181, R194): the words of the source, row after row. -/

namespace Sys2Proof.Machine

/-- A display word after the rows `0 .. n-1` of a blit, none longer than `nw` words. -/
theorem readWord_writeRows_le (f : Nat → List Word) (nw : Nat) (hlen : ∀ r, (f r).length ≤ nw) (m : Memory) (y : Int)
    (c0 n : Nat) (hy : 0 ≤ y) (hn : y + n ≤ 256) (hfit : c0 + nw ≤ 256) (l k : Byte) :
    (writeRows m y c0 ((List.range n).map fun r => (r, f r))).readWord l k =
      if y ≤ l.toNat ∧ (l.toNat : Int) < y + n ∧ c0 ≤ k.toNat ∧ k.toNat < c0 + (f (l.toNat - y.toNat)).length then
        (f (l.toNat - y.toNat)).getD (k.toNat - c0) 0
      else m.readWord l k := by
  induction n with
  | zero =>
    rw [if_neg (by omega)]
    rfl
  | succ n ih =>
    have e : writeRows m y c0 ((List.range (n + 1)).map fun r => (r, f r)) =
        writeRow (writeRows m y c0 ((List.range n).map fun r => (r, f r))) (byteOfInt (y + n)) c0 (f n) := by
      simp [writeRows, List.range_succ, List.foldl_append]
    have hb := byteOfInt_toNat (v := y + n) (by omega) (by omega)
    have hl : l = byteOfInt (y + n) ↔ (l.toNat : Int) = y + n := by
      rw [← BitVec.toNat_inj, hb]
      omega
    have hfn := hlen n
    rw [e, readWord_writeRow _ _ _ _ (by omega), ih (by omega)]
    by_cases hrow : (l.toNat : Int) = y + n
    · have hn' : l.toNat - y.toNat = n := by omega
      rw [hn']
      by_cases hk : c0 ≤ k.toNat ∧ k.toNat < c0 + (f n).length
      · rw [if_pos ⟨hl.mpr hrow, hk⟩, if_pos (by omega)]
      · rw [if_neg fun h => hk h.2, if_neg (by omega), if_neg (by omega)]
    · rw [if_neg fun h => hrow (hl.mp h.1)]
      by_cases hin : y ≤ l.toNat ∧ (l.toNat : Int) < y + n ∧ c0 ≤ k.toNat ∧
          k.toNat < c0 + (f (l.toNat - y.toNat)).length
      · rw [if_pos hin, if_pos (by omega)]
      · rw [if_neg hin, if_neg (by omega)]

/-- No more rows are begun than there are. -/
theorem rowsBegun_le {nw n : Nat} {ws : List Word} (h : ws.length ≤ n * nw) : rowsBegun nw n ws ≤ n := by
  rw [rowsBegun]
  split
  · exact Nat.le_refl n
  · exact Nat.div_lt_of_lt_mul (by rw [Nat.mul_comm]; omega)

/-- Words cut into rows: a word of a row, and how long the row is. -/
theorem getD_row (ws : List Word) (a nw i : Nat) (hi : i < nw) :
    ((ws.drop a).take nw).getD i 0 = ws.getD (a + i) 0 := by
  simp [List.getD_eq_getElem?_getD, hi]

/-- A blit of an area on the surface whose source may fail: the words drawn are streamed onto the surface (R181,
R194). -/
theorem streams_blitRows {s t : State} (hs : s.displayReady = true) {x y w h : Int} (ha : areaOnSurface x y w h)
    {σ : Type} (next : σ → Option (Word × σ)) (d d' : Option σ) (d0 : σ) {u : Run} {ws : List Word}
    (hd : drawn next (h.toNat * blitWords w) d0 = (ws, d'))
    (hb : blitRows s.cfg (blitColumn x w) y (blitWords w) (fun _ _ => next) (List.range h.toNat) d0 s.run = (d, u))
    (hrc : t.rc = u.rc) (htrace : t.trace = u.trace) :
    Streams s t y ((160 - x - w) / 3) (blitWords w) (rowsBegun (blitWords w) h.toNat ws) ws ∧ d = d' := by
  obtain ⟨hwf, hready⟩ := displayReady_iff.mp hs
  have hfit := blitColumn_fits ha
  have hcol := blitColumn_toNat ha
  have hnw : 0 < blitWords w := by
    rw [blitWords]
    omega
  have hlen := (drawn_length next (h.toNat * blitWords w) d0).1
  rw [hd] at hlen
  have hrows : rowsBegun (blitWords w) h.toNat ws ≤ h.toNat := rowsBegun_le hlen
  have hrow := sourceRows_eq_drawn next hnw 0 h.toNat d0
  rw [← List.range_eq_range', hd] at hrow
  have hwindow := sourceRows_fit ha hwf (next := fun _ _ => next) (rs := List.range h.toNat) (d := d0)
  rw [blitRows_eq, hrow, Prod.mk.injEq] at hb
  rw [hrow] at hwindow
  obtain ⟨rfl, hu⟩ := hb
  simp only [Nat.zero_add] at hwindow hu
  subst hu
  obtain ⟨hdram, -⟩ := sendRows_spec (configWf_distinct hwf) (blitColumn x w) y _ (u := s.run) hready hwindow
  refine ⟨⟨fun l k => ?_, ?_⟩, rfl⟩
  · rw [hrc, hdram, readWord_writeRows_le (fun j => (ws.drop (j * blitWords w)).take (blitWords w)) (blitWords w)
      (by simp) _ y _ _ (by omega) (by omega) (by omega), hcol, List.length_take, List.length_drop]
    by_cases hin : y ≤ l.toNat ∧ l.toNat < y + rowsBegun (blitWords w) h.toNat ws ∧ (160 - x - w) / 3 ≤ k.toNat ∧
        k.toNat < (160 - x - w) / 3 + blitWords w ∧
        (l.toNat - y.toNat) * blitWords w + (k.toNat - ((160 - x - w) / 3).toNat) < ws.length
    · rw [if_pos hin, if_pos (by omega), getD_row _ _ _ _ (by omega)]
    · rw [if_neg hin, if_neg (by omega)]
      rfl
  · rw [htrace, sendRows_trace, List.flatMap_map, blitColumn_byte ha]
    rfl

end Sys2Proof.Machine
end

section
/-! The word-plane decoder against the payload's meaning (R94 to R97, R193), and WORDIMAGE DRAW (R190). The key is one
payload item: what it stands for, and that the decoder, asked often enough, gives exactly that. -/

namespace Sys2Proof.Machine

/-! ### One payload item -/

/-- The words the item at payload word `j` stands for, and where the next item begins; none for a reserved control
word (R94 to R97). -/
def planeItem (c : Config) (rd : Nat → Word) (j : Nat) : Option (List Word × Nat) :=
  if (rd j).getLsbD 5 = false then some ([~~~ rd j], j + 1)
  else if loByte (rd j) = rleOff then some (List.replicate ((hiByte (rd j)).toNat + 1) wordOff, j + 1)
  else if loByte (rd j) = c.rleOn then some (List.replicate ((hiByte (rd j)).toNat + 1) wordOn, j + 1)
  else if loByte (rd j) = c.rleGeneric then
    some (List.replicate ((hiByte (rd j)).toNat + 1) (~~~ rd (j + 1)), j + 2)
  else none

section
variable {c : Config} {rd : Nat → Word} {j j' : Nat} {xs : List Word}

/-- An item gives at least one word, and is one or two payload words long. -/
theorem planeItem_bounds (h : planeItem c rd j = some (xs, j')) : 0 < xs.length ∧ j < j' ∧ j' ≤ j + 2 := by
  rw [planeItem] at h
  split_ifs at h <;> cases h <;> simp

theorem planeWords_of_item (h : planeItem c rd j = some (xs, j')) (n : Nat) :
    planeWords c rd (n + 1) j = xs ++ planeWords c rd n j' := by
  rw [planeItem] at h
  rw [planeWords]
  split_ifs at h with h5 hoff hon hgen <;> cases h
  · exact if_pos h5
  · exact (if_neg h5).trans (if_pos hoff)
  · exact (if_neg h5).trans ((if_neg hoff).trans (if_pos hon))
  · exact (if_neg h5).trans ((if_neg hoff).trans ((if_neg hon).trans (if_pos hgen)))

theorem planeWords_of_reserved (h : planeItem c rd j = none) (n : Nat) : planeWords c rd (n + 1) j = [] := by
  rw [planeItem] at h
  rw [planeWords]
  split_ifs at h with h5 hoff hon hgen
  exact (if_neg h5).trans ((if_neg hoff).trans ((if_neg hon).trans (if_neg hgen)))

theorem planeReads_zero_need (n : Nat) : planeReads c rd n 0 j = j := by
  cases n <;> rfl

theorem planeReads_of_item (h : planeItem c rd j = some (xs, j')) (n need : Nat) (hn : 0 < need) :
    planeReads c rd (n + 1) need j = planeReads c rd n (need - xs.length) j' := by
  rw [planeItem] at h
  rw [planeReads]
  refine (if_neg hn.ne').trans ?_
  split_ifs at h with h5 hoff hon hgen <;> cases h
  · exact if_pos h5
  · rw [List.length_replicate]
    exact (if_neg h5).trans (if_pos (.inl hoff))
  · rw [List.length_replicate]
    exact (if_neg h5).trans (if_pos (.inr hon))
  · rw [List.length_replicate]
    exact (if_neg h5).trans ((if_neg (not_or.mpr ⟨hoff, hon⟩)).trans (if_pos hgen))

theorem planeReads_of_reserved (h : planeItem c rd j = none) (n need : Nat) (hn : 0 < need) :
    planeReads c rd (n + 1) need j = j + 1 := by
  rw [planeItem] at h
  rw [planeReads]
  refine (if_neg hn.ne').trans ?_
  split_ifs at h with h5 hoff hon hgen
  exact (if_neg h5).trans ((if_neg (not_or.mpr ⟨hoff, hon⟩)).trans (if_neg hgen))

/-- The decoder reads forward. -/
theorem le_planeReads (n need j : Nat) : j ≤ planeReads c rd n need j := by
  induction n generalizing need j with
  | zero => exact Nat.le_refl j
  | succ n ih =>
    rcases Nat.eq_zero_or_pos need with rfl | hn
    · rw [planeReads_zero_need]
    · rcases h : planeItem c rd j with - | ⟨xs, j'⟩
      · rw [planeReads_of_reserved h n need hn]
        omega
      · rw [planeReads_of_item h n need hn]
        exact (planeItem_bounds h).2.1.le.trans (ih _ j')

end

/-! ### The decoder on one item -/

/-- The decoder stands between items, at payload word `j` of the image at `p` (R192, R193). -/
structure DecoderAt (s : State) (p : Nat) (d : Decoder) (j : Nat) : Prop where
  mode : d.mode = .normal
  nread : d.nread = j
  pointer : d.q = (p + 4 + 2 * j) % imgSize s.cfg

section
variable {s : State} {p j : Nat} {d : Decoder}

theorem decoderAt_start (s : State) (p : Nat) : DecoderAt s p (Decoder.start s p) 0 := ⟨rfl, rfl, rfl⟩

theorem DecoderAt.past (h : DecoderAt s p d j) : DecoderAt s p (d.past s) (j + 1) := by
  refine ⟨h.mode, congrArg (· + 1) h.nread, ?_⟩
  rw [Decoder.past, h.pointer, Nat.mod_add_mod]
  rfl

/-- The payload of the image at `p`, word by word. -/
def payloadWord (s : State) (p j : Nat) : Word := s.imageWord (p + 4 + 2 * j)

/-- Where no host write races with payload word `j`, the decoder there reads it (R75, R192). -/
theorem DecoderAt.payload (h : DecoderAt s p d j) {n : Nat} (hq : s.quiet p (4 + 2 * n)) (hj : j < n) :
    d.payload s = payloadWord s p j := by
  have hwrap : ∀ read, s.imgWord read ((p + 4 + 2 * j) % imgSize s.cfg) = s.imgWord read (p + (4 + 2 * j)) := by
    intro read
    simp only [State.imgWord, State.imgByte, Nat.mod_mod, Nat.mod_add_mod, Nat.add_assoc]
  rw [Decoder.payload, h.pointer, hwrap, imgWord_of_quiet hq (by omega), payloadWord, Nat.add_assoc]

/-- The rest of a run: its remaining copies, and then the decoder is between items again (R193). -/
theorem drawn_inRun (s : State) (d : Decoder) (w : Word) (n : Nat) :
    drawn (nextWord s) (n + 1) { d with mode := .inRun, remaining := n + 1, runword := w } =
      (List.replicate (n + 1) w, some { d with mode := .normal, remaining := 0, runword := w }) := by
  induction n with
  | zero => rfl
  | succ n ih =>
    have h : nextWord s { d with mode := .inRun, remaining := n + 2, runword := w } =
        some (w, { d with mode := .inRun, remaining := n + 1, runword := w }) := rfl
    rw [drawn_succ_of_some _ h, ih]
    rfl

/-- A whole run of `n + 1` copies (R193, R196). -/
theorem drawn_run {d1 : Decoder} {w : Word} {n : Nat} (hnext : nextWord s d = some (d1.beginRun n w))
    (h1 : DecoderAt s p d1 j) :
    ∃ d', drawn (nextWord s) (n + 1) d = (List.replicate (n + 1) w, some d') ∧ DecoderAt s p d' j := by
  cases n with
  | zero =>
    refine ⟨{ d1 with runword := w }, drawn_succ_of_some _ hnext 0, h1.mode, h1.nread, h1.pointer⟩
  | succ n =>
    refine ⟨{ d1 with mode := .normal, remaining := 0, runword := w }, ?_, rfl, h1.nread, h1.pointer⟩
    rw [drawn_succ_of_some _ hnext, drawn_inRun]
    rfl

/-- At an item the decoder gives the item's words, and stands at the next one (R193). -/
theorem drawn_item (h : DecoderAt s p d j) {xs : List Word} {j' n : Nat} (hq : s.quiet p (4 + 2 * n)) (hn : j' ≤ n)
    (hi : planeItem s.cfg (payloadWord s p) j = some (xs, j')) :
    ∃ d', drawn (nextWord s) xs.length d = (xs, some d') ∧ DecoderAt s p d' j' := by
  have hj := (planeItem_bounds hi).2.1
  have hp : d.payload s = payloadWord s p j := h.payload hq (by omega)
  rw [planeItem] at hi
  split_ifs at hi with h5 hoff hon hgen <;> cases hi
  · have hnext : nextWord s d = some (~~~ payloadWord s p j, d.past s) := by
      simp only [nextWord, h.mode, hp, h5]
      rfl
    exact ⟨d.past s, drawn_succ_of_some _ hnext 0, h.past⟩
  all_goals
    rw [List.length_replicate]
    have hctl := Bool.eq_true_of_not_eq_false h5
  · have hk : runKind s.cfg (payloadWord s p j) = .off := by rw [runKind, if_pos hoff]
    refine drawn_run ?_ h.past
    simp only [nextWord, h.mode, hp, hctl, hk]
    rfl
  · have hk : runKind s.cfg (payloadWord s p j) = .on := by rw [runKind, if_neg hoff, if_pos hon]
    refine drawn_run ?_ h.past
    simp only [nextWord, h.mode, hp, hctl, hk]
    rfl
  · have hk : runKind s.cfg (payloadWord s p j) = .generic := by
      rw [runKind, if_neg hoff, if_neg hon, if_pos hgen]
    refine drawn_run ?_ h.past.past
    simp only [nextWord, h.mode, hp, hctl, hk, h.past.payload hq hn]
    rfl

/-- A reserved control word fails (R194). -/
theorem nextWord_reserved (h : DecoderAt s p d j) {n : Nat} (hq : s.quiet p (4 + 2 * n)) (hj : j < n)
    (hi : planeItem s.cfg (payloadWord s p) j = none) : nextWord s d = none := by
  have hp : d.payload s = payloadWord s p j := h.payload hq hj
  rw [planeItem] at hi
  split_ifs at hi with h5 hoff hon hgen
  have hctl := Bool.eq_true_of_not_eq_false h5
  have hk : runKind s.cfg (payloadWord s p j) = .reserved := by
    rw [runKind, if_neg hoff, if_neg hon, if_neg hgen]
  simp only [nextWord, h.mode, hp, hctl, hk]
  rfl

/-! ### The decoder on a payload -/

/-- The decoder gives the payload's words, as many as are asked for, up to a reserved control word (R193, R195). -/
theorem drawn_eq_planeWords {n need : Nat} (hn : need ≤ n) (h : DecoderAt s p d j)
    (hq : s.quiet p (4 + 2 * planeReads s.cfg (payloadWord s p) n need j)) :
    (drawn (nextWord s) need d).1 = (planeWords s.cfg (payloadWord s p) n j).take need := by
  induction n generalizing need j d with
  | zero =>
    obtain rfl : need = 0 := by omega
    rfl
  | succ n ih =>
    rcases Nat.eq_zero_or_pos need with rfl | hpos
    · rfl
    rcases hi : planeItem s.cfg (payloadWord s p) j with - | ⟨xs, j'⟩
    · rw [planeReads_of_reserved hi n need hpos] at hq
      obtain ⟨m, rfl⟩ := Nat.exists_eq_add_of_le' hpos
      rw [planeWords_of_reserved hi, drawn_succ_of_none _ (nextWord_reserved h hq (by omega) hi), List.take_nil]
    · have hlen := (planeItem_bounds hi).1
      rw [planeReads_of_item hi n need hpos] at hq
      obtain ⟨d', hd, hat⟩ := drawn_item h hq (le_planeReads ..) hi
      rw [planeWords_of_item hi, drawn_after _ hd, ih (by omega) hat hq]
      simp [List.take_append, List.take_take]

end

/-! ### WORDIMAGE -/

/-- WORDIMAGE DRAW of an image on the surface whose header no host write races with (R190). -/
theorem exec_wordimage_draw {s : State} {w h : Nat} (hmode : s.a3 = 1) (heven : s.a0.toNat % 2 = 0)
    (hw : w = (s.imageWord s.a0.toNat).toNat) (hh : h = (s.imageWord (s.a0.toNat + 2)).toNat)
    (hq : s.quiet s.a0.toNat 4) (ha : areaOnSurface s.a1.toInt s.a2.toInt w h) :
    exec .wordimage s = .next (drawWordPlane s s.a0.toNat s.a1.toInt s.a2.toInt w h) := by
  have hd : decodeMode s.a3 = some .draw := by rw [hmode]; rfl
  have ho : s.a0.getLsbD 0 = false := by
    rw [BitVec.getLsbD, Nat.testBit_eq_decide_div_mod_eq, Nat.pow_zero, Nat.div_one, heven]
    rfl
  have hw' : s.imgWord 0 s.a0.toNat = s.imageWord s.a0.toNat := imgWord_of_quiet hq (k := 0) (by omega) 0
  have hh' : s.imgWord 2 (s.a0.toNat + 2) = s.imageWord (s.a0.toNat + 2) := imgWord_of_quiet hq (by omega) 2
  simp only [exec, execWordimage, hd, ho, hw', hh', ← hw, ← hh]
  exact congrArg Host.Outcome.next (blitChecked_onSurface ha s _)

theorem wordPlaneRows_range (s : State) (p : Nat) (x y w h : Int) : (wordPlaneRows s p x y w h).2.range = false :=
  (blitRows_emits ..).2

/-- How WORDIMAGE DRAW ends: with no cause if the decoder gave every word, else with BADIMG (R190, R194). -/
theorem drawWordPlane_ends {s : State} {p : Nat} {x y w h : Int} {d : Option Decoder} {u : Run}
    (e : wordPlaneRows s p x y w h = (d, u)) :
    (drawWordPlane s p x y w h).rc = u.rc ∧ (drawWordPlane s p x y w h).trace = u.trace ∧
      s.frame (drawWordPlane s p x y w h) ∧ (drawWordPlane s p x y w h).result = s.result ∧
      (drawWordPlane s p x y w h).status = endStatus s (if d.isSome then none else some .badimg) := by
  have hu : u.range = false := by
    have hrange := wordPlaneRows_range s p x y w h
    rwa [e] at hrange
  rw [drawWordPlane_eq, e]
  cases d with
  | none =>
    refine ⟨rfl, rfl, ⟨⟨rfl, rfl, rfl, rfl, rfl, rfl, rfl, rfl, rfl, rfl⟩, rfl, rfl, rfl⟩, rfl, ?_⟩
    show (s.fail .badimg u).status = _
    rw [fail_status, hu]
    rfl
  | some d =>
    refine ⟨rfl, rfl, finish_frame s s.result u, rfl, ?_⟩
    show (s.finish u).status = _
    rw [finish_status, hu]
    rfl

/-- Settles O59: the decoder's words are the payload's, and the blit streams them onto the surface. -/
theorem wordimageDrawsThePayload : Obligations.WordimageDrawsThePayload := by
  intro s w h nw ws hs hmode heven hw hh ha hnw hq hws
  obtain rfl : nw = blitWords w := by
    rw [hnw, blitWords]
    omega
  have hq4 : s.quiet s.a0.toNat 4 := fun k hk => hq k (by omega)
  have hdrawn : (drawn (nextWord s) (h * blitWords w) (Decoder.start s s.a0.toNat)).1 = ws :=
    (drawn_eq_planeWords (Nat.le_refl _) (decoderAt_start s s.a0.toNat) hq).trans hws.symm
  have hlen := drawn_length (nextWord s) (h * blitWords w) (Decoder.start s s.a0.toNat)
  rcases hd : drawn (nextWord s) (h * blitWords w) (Decoder.start s s.a0.toNat) with ⟨ws', d⟩
  rcases hb : wordPlaneRows s s.a0.toNat s.a1.toInt s.a2.toInt w h with ⟨d', u⟩
  rw [hd] at hdrawn hlen
  obtain rfl : ws' = ws := hdrawn
  obtain ⟨hrc, htrace, hframe, hresult, hstatus⟩ := drawWordPlane_ends hb
  obtain ⟨hstreams, rfl⟩ := streams_blitRows hs ha (nextWord s) d' d _ hd hb hrc htrace
  refine ⟨_, exec_wordimage_draw hmode heven hw hh hq4 ha, hframe, hresult, ?_, hstreams⟩
  rw [hstatus]
  simp only [hlen.2]

end Sys2Proof.Machine
end
section
/-! Addressing: DIV3 and MOD3 (R110), and SETADDR (R113 to R116). SETADDR's operands are bytes, so the helper's
truncation to 8 bits keeps them as they are. -/

namespace Sys2Proof.Machine

/-! ### DIV3 and MOD3 -/

theorem mod3_eq_mod (v : Nat) : mod3 v = v % 3 := by
  simp only [mod3, div3]
  omega

theorem three_mul_div3_add_mod3 (v : Nat) : 3 * div3 v + mod3 v = v := by
  rw [mod3_eq_mod]
  exact Nat.div_add_mod v 3

theorem mod3_lt (v : Nat) : mod3 v < 3 := by
  rw [mod3_eq_mod]
  exact Nat.mod_lt v (by decide)

/-- Settles O8: quotient and remainder add up to `v`, and the remainder is below 3. -/
theorem divideByThreeIsExact : Obligations.DivideByThreeIsExact := by
  intro v _
  have hsum := three_mul_div3_add_mod3 v
  have hlt := mod3_lt v
  exact ⟨by omega, by omega, rfl, hlt, hsum⟩

/-! ### SETADDR -/

/-- Truncation keeps a value that is a byte (R113). -/
theorem byteOfInt_toNat_byte (b : Byte) : byteOfInt b.toNat = b := by
  rw [byteOfInt, BitVec.ofInt_natCast, BitVec.ofNat_toNat, BitVec.setWidth_eq]

theorem columnByte_toNat_byte (b : Byte) : columnByte b.toNat = BitVec.ofNat 8 (b.toNat / 3) := by
  rw [columnByte, byteOfInt_toNat_byte, div3]

/-- SetAddress puts the pointer and the window's start at its bytes (R114). -/
theorem addressed_pointsTo (c : Config) (xa y : Int) (rc : Controller) :
    pointsTo c (addressed c xa y rc) (byteOfInt y) (columnByte xa) := ⟨rfl, rfl, rfl, rfl, rfl, rfl⟩

theorem addressed_ready (c : Config) (xa y : Int) {rc : Controller} (hw : rc.wphase = false) :
    (addressed c xa y rc).ready = true :=
  ready_iff.mpr ⟨rfl, hw, nofun⟩

/-- SetAddress on two bytes emits their address events, in the terms of the claims (R113). -/
theorem setAddress_byte_events (c : Config) (xa y : Byte) (u : Run) :
    (setAddress c xa.toNat y.toNat u).trace =
      u.trace ++ addressEvents c y (BitVec.ofNat 8 (xa.toNat / 3)) := by
  rw [setAddress_trace, byteOfInt_toNat_byte, columnByte_toNat_byte, addressEvents]

/-- Settles O35: SETADDR is SetAddress on the low bytes of A0 and A1, then `finish`. -/
theorem setaddrSetsThePointer : Obligations.SetaddrSetsThePointer := by
  intro s
  refine ⟨_, rfl, finish_frame s s.result _, rfl, rfl,
    setAddress_byte_events s.cfg (u8lo s.a0) (u8lo s.a1) s.run, fun hs => ?_⟩
  obtain ⟨hwf, hrc⟩ := displayReady_iff.mp hs
  obtain ⟨-, hw, hm⟩ := ready_iff.mp hrc
  have hpoints := addressed_pointsTo s.cfg (u8lo s.a0).toNat (u8lo s.a1).toNat s.rc
  rw [byteOfInt_toNat_byte, columnByte_toNat_byte] at hpoints
  rw [finish_rc, setAddress_rc (u := s.run) (configWf_distinct hwf) _ _ hw hm]
  exact ⟨rfl, rfl, addressed_ready s.cfg _ _ hw, hpoints⟩

end Sys2Proof.Machine
end

section
/-! Single-point accesses by POINT (R121 to R125, R128): SET and CLEAR edit one field of one display word, a READ after
one sees it (R129), and off the surface each of the three notes RANGE alone. -/

namespace Sys2Proof.Machine

/-! ### POINT with a single-point op -/

/-- POINT SET and POINT CLEAR are one access (R128). -/
theorem exec_pointEdit {s : State} (ha : s.a2 = 0x0000 ∨ s.a2 = 0x0001) : exec .point s = .next
    (s.finish (single s.cfg s.a0.toInt s.a1.toInt (compositeKind (decide (s.a2 = 0x0001))) s.run)) := by
  rcases ha with ha | ha
  · have hd : decodeOp s.a2 = .single .clear := (pointOpDecode s.a2).1.mpr ha
    simp only [exec, execPoint, hd]
    rw [ha]
    rfl
  · have hd : decodeOp s.a2 = .single .set := (pointOpDecode s.a2).2.1.mpr ha
    simp only [exec, execPoint, hd]
    rw [ha]
    rfl

/-! ### SET and CLEAR on the surface -/

/-- The word SET or CLEAR writes back, in the terms of the claims (R49, R121). -/
theorem editField_compositeKind (c : Config) (on : Bool) {x : Int} (hx : x < 160) (w : Word) :
    editField c (compositeKind on) (fieldIndex x) w =
      if on then w &&& ~~~ columnMask c x else w ||| columnMask c x := by
  rw [← columnMask_eq c hx]
  cases on <;> rfl

section
variable {c : Config} {u : Run} (h : commandBytesDistinct c = true) {x y : Int} (hs : onScreen x y)
  (hu : u.rc.ready = true) (on : Bool)
include h hs hu

/-- The pixel's word after a SET or a CLEAR: its field is all zeros or all ones (R123). -/
theorem single_edit_word : (single c x y (compositeKind on) u).rc.dram.readWord (lineByte y) (wordByte x) =
    if on then u.rc.dram.readWord (lineByte y) (wordByte x) &&& ~~~ columnMask c x
    else u.rc.dram.readWord (lineByte y) (wordByte x) ||| columnMask c x := by
  obtain ⟨-, hw, hm⟩ := ready_iff.mp hu
  rw [single_rc h (inRange_iff.mpr hs) (compositeKind_ne_read on) hw hm, pixelWord_eq hs,
    editField_compositeKind c on hs.2.1, ← columnByte_wordByte hs.1 hs.2.1]
  exact readWord_writeWord_same ..

/-- A SET or CLEAR cycle leaves the pointer and the window at the pixel's word (R114, R133). -/
theorem single_edit_pointsTo :
    pointsTo c (single c x y (compositeKind on) u).rc (lineByte y) (wordByte x) := by
  obtain ⟨-, hw, hm⟩ := ready_iff.mp hu
  rw [single_rc h (inRange_iff.mpr hs) (compositeKind_ne_read on) hw hm]
  exact rmwClosed_pointsTo c hs u.rc

end

/-- The events of painting one point on the surface (R122). -/
theorem paintEvents_singleton (c : Config) (on : Bool) (dummy : Nat → Byte) (n : Nat) (m : Memory) {x y : Int}
    (hs : onScreen x y) : paintEvents c on dummy n m [(x, y)] =
      rmwEvents c x y (dummy n) (m.readWord (lineByte y) (wordByte x)) ++
        wordEvents (if on then m.readWord (lineByte y) (wordByte x) &&& ~~~ columnMask c x
          else m.readWord (lineByte y) (wordByte x) ||| columnMask c x) ++ [.cmd c.cmdRmwout] := by
  rw [paintEvents, if_pos hs]
  exact List.append_nil _

/-- Settles O36: the access paints the one point, its word holds the edited field, and the pointer is there. -/
theorem pointSetsOrClearsOnePixel : Obligations.PointSetsOrClearsOnePixel := by
  intro s hready ha hs
  obtain ⟨hwf, hrc⟩ := displayReady_iff.mp hready
  have hd := configWf_distinct hwf
  have hp := paintedPoints_singleAll hready (decide (s.a2 = 0x0001)) [(s.a0.toInt, s.a1.toInt)]
  have hword := single_edit_word (u := s.run) hd hs hrc (decide (s.a2 = 0x0001))
  rw [run_rc] at hword
  obtain ⟨dummy, htrace⟩ := hp.inOrder
  rw [paintEvents_singleton _ _ _ _ _ hs] at htrace
  refine ⟨_, dummy 0, exec_pointEdit ha, hp.frame, hp.result, ?_, ?_, hp.paints.congr fun px py => ?_, ?_,
    single_edit_pointsTo hd hs hrc _⟩
  · rw [finish_status, single_range, inRange_iff.mpr hs]
    rfl
  · simp only [decide_eq_true_eq] at hword
    exact hword
  · simp
  · rw [← hword] at htrace
    exact htrace

/-! ### A READ after a SET or a CLEAR -/

/-- Each of the three fields holds some bit (R33). -/
theorem columnMask_ne_zero {c : Config} (h : masksSeparate c = true) (x : Int) :
    columnMask c x ≠ 0 := by
  simp only [masksSeparate, Bool.and_eq_true, bne_iff_ne] at h
  obtain ⟨⟨⟨⟨⟨h0, h1⟩, h2⟩, -⟩, -⟩, -⟩ := h
  have hcases : ((159 - x) % 3).toNat = 0 ∨ ((159 - x) % 3).toNat = 1 ∨ ((159 - x) % 3).toNat = 2 := by omega
  rw [columnMask]
  rcases hcases with e | e | e <;> rw [e]
  · exact h0
  · exact h1
  · exact h2

theorem or_and_self (w m : Word) : (w ||| m) &&& m = m := by
  ext i
  rw [BitVec.getElem_and, BitVec.getElem_or]
  cases m[i] <;> simp

/-- Settles O41: what POINT READ tests is the field that SET cleared to zeros, or that CLEAR filled with ones. -/
theorem setOrClearThenReadBack : Obligations.SetOrClearThenReadBack := by
  intro s v hready hv hs
  obtain ⟨t, -, hexec, hframe, -, -, hword, -⟩ :=
    pointSetsOrClearsOnePixel { s with a2 := v } hready hv hs
  obtain ⟨hready', -⟩ := commandsStaySpecified .point { s with a2 := v } t hready hexec
  obtain ⟨⟨hcfg, -, h0, h1, -⟩, -⟩ := hframe
  dsimp only at hcfg h0 h1 hword
  obtain ⟨u, -, hread, -, hresult, -⟩ :=
    pointReadsOnePixel { t with a2 := 0xFFFF } hready' rfl (by rw [h0, h1]; exact hs)
  refine ⟨t, u, hexec, hread, ?_⟩
  have hmask := columnMask_ne_zero (configWf_masks (displayReady_iff.mp hready).1) s.a0.toInt
  have hfield : u.result = if t.wordOf s.a0.toInt s.a1.toInt &&& columnMask s.cfg s.a0.toInt = 0 then 1 else 0 := by
    rw [hresult, ← hcfg, ← h0, ← h1]
    rfl
  rw [hfield, hword]
  rcases hv with rfl | rfl
  · rw [if_neg (show ¬ (0x0000 : Word) = 0x0001 by decide), or_and_self, if_neg hmask]
  · rw [if_pos rfl, BitVec.and_assoc, BitVec.not_and_self]
    exact if_pos BitVec.and_zero

/-! ### Off the surface -/

theorem inRange_eq_false {x y : Int} (hs : ¬ onScreen x y) : inRange x y = false :=
  Bool.eq_false_iff.mpr fun e => hs (inRange_iff.mp e)

/-- A command that only notes RANGE: nothing is emitted and RANGE is its cause (R15, R222). -/
theorem finish_noteRange (s : State) (v : Word) : s.frame ((s.setResult v).finish (noteRange s.run)) ∧
    s.silent ((s.setResult v).finish (noteRange s.run)) ∧
    ((s.setResult v).finish (noteRange s.run)).status = endStatus s (some .range) :=
  ⟨finish_frame s v _, ⟨rfl, rfl⟩, rfl⟩

/-- Settles O38: the access notes RANGE, and a READ returns NONE. -/
theorem pointOffTheSurface : Obligations.PointOffTheSurface := by
  intro s ha hs
  have hr := inRange_eq_false hs
  by_cases hF : s.a2 = 0xFFFF
  · have hexec := exec_pointRead hF
    rw [single_out hr, singleValue, if_neg (by simp [hr])] at hexec
    obtain ⟨hframe, hsilent, hstatus⟩ := finish_noteRange s resultSentinel
    exact ⟨_, hexec, hframe, hsilent, hstatus, by rw [if_pos hF]; rfl⟩
  · have hexec := exec_pointEdit (s := s) (by tauto)
    rw [single_out hr] at hexec
    obtain ⟨hframe, hsilent, hstatus⟩ := finish_noteRange s s.result
    exact ⟨_, hexec, hframe, hsilent, hstatus, by rw [if_neg hF]; rfl⟩

end Sys2Proof.Machine
end

section
/-! The word accesses READWORD and WRITEWORD (R131 to R135): a READ cycle that keeps the whole word, and one row of one
word. -/

namespace Sys2Proof.Machine

/-! ### On the surface -/

/-- READWORD on the surface is the READ cycle of a point, with the word it reads in RESULT (R121, R131). -/
theorem exec_readword_onScreen {s : State} (hs : onScreen s.a0.toInt s.a1.toInt) : exec .readword s = .next
    ((s.setResult (rmwWord (rmwOpen s.cfg s.a0.toInt s.a1.toInt s.run))).finish
      (single s.cfg s.a0.toInt s.a1.toInt .read s.run)) := by
  have hr : inRange (sext16 s.a0) (sext16 s.a1) = true := inRange_iff.mpr hs
  rw [single, if_pos (inRange_iff.mpr hs), exec, execReadword, if_pos hr]
  rfl

/-- Settles O42: READWORD's run is that of POINT READ. -/
theorem readwordReadsTheWord : Obligations.ReadwordReadsTheWord := by
  intro s hready hs
  obtain ⟨hwf, hrc⟩ := displayReady_iff.mp hready
  have hd := configWf_distinct hwf
  have hr := inRange_iff.mpr hs
  obtain ⟨-, hw, hm⟩ := ready_iff.mp hrc
  have hexec := exec_readword_onScreen hs
  have hclosed : (single s.cfg s.a0.toInt s.a1.toInt .read s.run).rc = _ := single_read_rc hd hr hw hm
  refine ⟨_, Config.freeByte s.rc.draws 0, hexec, finish_frame .., readword_result hs hready hexec, ?_, ?_,
    single_read_events hd hs hrc, ?_⟩
  · rw [finish_status, single_range, hr]
    rfl
  · rw [finish_rc, hclosed]
    rfl
  · rw [finish_rc, hclosed]
    exact rmwClosed_pointsTo s.cfg hs s.rc

/-- WRITEWORD on the surface sends one row of one word (R134, R181). -/
theorem exec_writeword_onScreen {s : State} (hs : onScreen s.a0.toInt s.a1.toInt) : exec .writeword s = .next
    (s.finish (sendRow s.cfg (159 - s.a0.toInt) s.a1.toInt s.run (0, [s.a2]))) := by
  have hr : inRange (sext16 s.a0) (sext16 s.a1) = true := inRange_iff.mpr hs
  rw [sendRow, Int.natCast_zero, Int.add_zero, exec, execWriteword, if_pos hr]
  rfl

/-- A row of one word replaces that word alone. -/
theorem readWord_writeRow_singleton (m : Memory) (l c l' c' : Byte) (w : Word) :
    (writeRow m l c.toNat [w]).readWord l' c' = if l' = l ∧ c' = c then w else m.readWord l' c' := by
  have e : writeRow m l c.toNat [w] = m.writeWord l c w := by
    rw [writeRow, writeRow, BitVec.ofNat_toNat, BitVec.setWidth_eq]
  rw [e]
  split
  · rename_i h
    rw [h.1, h.2, readWord_writeWord_same]
  · rename_i h
    exact readWord_writeWord_other m w h

/-- Settles O43: the row's one word lands at the point's word. -/
theorem writewordReplacesTheWord : Obligations.WritewordReplacesTheWord := by
  intro s hready hs
  obtain ⟨hwf, hrc⟩ := displayReady_iff.mp hready
  have hcol := columnByte_wordByte hs.1 hs.2.1
  have hbound := wordByte_toNat hs.1 hs.2.1
  have hend := configWf_colEnd hwf
  have hline : byteOfInt (s.a1.toInt + (0 : Nat)) = lineByte s.a1.toInt := by
    rw [Int.natCast_zero, Int.add_zero, byteOfInt_lineByte]
  obtain ⟨hdram, -, -, hrange, -⟩ := sendRow_spec (configWf_distinct hwf) (159 - s.a0.toInt) s.a1.toInt (u := s.run)
    hrc 0 [s.a2] (by rw [hcol, List.length_singleton]; omega)
  refine ⟨_, exec_writeword_onScreen hs, finish_frame s s.result _, rfl, ?_, fun l k => ?_, ?_⟩
  · rw [finish_status, hrange]
    rfl
  · rw [finish_rc, hdram, hline, hcol, readWord_writeRow_singleton]
    rfl
  · rw [finish_trace, sendRow_trace, hline, hcol]
    rfl

/-- Settles O45: WRITEWORD leaves A2 in the word that READWORD then reads, and neither adds a cause. -/
theorem writeThenReadBack : Obligations.WriteThenReadBack := by
  intro s hready hs hclear
  obtain ⟨t, hwrite, ⟨⟨-, -, h0, h1, -⟩, -⟩, -, hstatus, hword, -⟩ := writewordReplacesTheWord s hready hs
  obtain ⟨hready', -⟩ := commandsStaySpecified .writeword s t hready hwrite
  obtain ⟨u, -, hread, -, hresult, hstatus', -⟩ := readwordReadsTheWord t hready' (by rw [h0, h1]; exact hs)
  refine ⟨t, u, hwrite, hread, ?_, ?_⟩
  · rw [hresult, h0, h1, State.wordOf, hword, if_pos ⟨rfl, rfl⟩]
  · have hrange : statusGet .range s.status = false := by
      simp only [causesClear, Bool.and_eq_true, Bool.not_eq_true'] at hclear
      exact hclear.1.1
    rw [hstatus', endStatus, hstatus, endStatus]
    simp [hrange]

/-! ### Off the surface -/

/-- Settles O44: both fail before they emit anything. -/
theorem wordAccessOffTheSurface : Obligations.WordAccessOffTheSurface := by
  intro s hs
  have hr : ¬ inRange (sext16 s.a0) (sext16 s.a1) = true := fun e => hs (inRange_iff.mp e)
  have hread : exec .readword s = .next ((s.setResult resultSentinel).fail .range s.run) := by
    rw [exec, execReadword, if_neg hr]
  have hwrite : exec .writeword s = .next (s.fail .range s.run) := by
    rw [exec, execWriteword, if_neg hr]
  exact ⟨⟨_, hread, fail_run_refuses (s.setResult resultSentinel) .range⟩, _, hwrite, fail_run_refuses s .range⟩

end Sys2Proof.Machine
end

section
/-! Rectangles of points: which they are, how many are on the surface, and when they leave it. BLANK clears one
(R136, R137); the dots of the default pen table are told by one (R127). -/

namespace Sys2Proof.Machine

/-! ### The points of a rectangle -/

theorem mem_intRange {a b v : Int} : v ∈ intRange a b ↔ a ≤ v ∧ v ≤ b := by
  simp only [intRange, List.mem_map, List.mem_range]
  constructor
  · rintro ⟨n, hn, rfl⟩
    omega
  · rintro ⟨ha, hb⟩
    exact ⟨(v - a).toNat, by omega, by omega⟩

theorem mem_areaPoints {x y w h px py : Int} :
    (px, py) ∈ areaPoints x y w h ↔ x ≤ px ∧ px < x + w ∧ y ≤ py ∧ py < y + h := by
  have hmem : (px, py) ∈ areaPoints x y w h ↔ py ∈ intRange y (y + h - 1) ∧ px ∈ intRange x (x + w - 1) := by
    simp [areaPoints]
  rw [hmem, mem_intRange, mem_intRange]
  omega

/-- A rectangle's points come row by row, each row left to right (R137). -/
theorem areaPoints_eq (x y w h : Int) :
    areaPoints x y w h = (List.range h.toNat).flatMap fun (j : Nat) => pointsFrom x (y + j) w := by
  have hrow : ∀ j, (intRange x (x + w - 1)).map (fun i => (i, j)) = pointsFrom x j w :=
    fun j => rowPoints_eq (by omega) j
  rw [areaPoints, flatMap_intRange (n := h) (by omega)]
  simp only [hrow]

/-- A rectangle with points has one off the surface exactly when one of its four sides is beyond the surface's. -/
theorem any_areaPoints (x y w h : Int) : ((areaPoints x y w h).any fun p => !inRange p.1 p.2) =
    decide (0 < w ∧ 0 < h ∧ ¬ (0 ≤ x ∧ x + w ≤ 160 ∧ 0 ≤ y ∧ y + h ≤ 160)) := by
  rw [Bool.eq_iff_iff, List.any_eq_true, decide_eq_true_eq]
  simp only [Bool.not_eq_true', ← Bool.not_eq_true, inRange_iff]
  constructor
  · rintro ⟨⟨px, py⟩, hp, hoff⟩
    rw [mem_areaPoints] at hp
    omega
  · rintro ⟨hw, hh, hout⟩
    have hcorner : ¬ onScreen x y ∨ ¬ onScreen (x + w - 1) (y + h - 1) := by omega
    rcases hcorner with hoff | hoff
    · exact ⟨(x, y), mem_areaPoints.mpr (by omega), hoff⟩
    · exact ⟨(x + w - 1, y + h - 1), mem_areaPoints.mpr (by omega), hoff⟩

/-- A coordinate of the surface, which is as wide as it is high (R7). -/
def inSpan (v : Int) : Bool := 0 ≤ v && v < screenSize

theorem inRange_eq_inSpan (x y : Int) : inRange x y = (inSpan x && inSpan y) := by
  simp [inRange, inSpan, Bool.and_assoc]

/-- How many of `n` coordinates from `a` on are on the surface. -/
theorem countP_range_inSpan (a : Int) (n : Nat) :
    ((List.range n).countP fun (k : Nat) => inSpan (a + k)) = (min (a + n) 160 - max a 0).toNat := by
  have hspan : ∀ v, inSpan v = true ↔ 0 ≤ v ∧ v < 160 := by simp [inSpan, show screenSize = 160 from rfl]
  induction n with
  | zero => simp; omega
  | succ n ih =>
    rw [List.range_succ, List.countP_append, ih, List.countP_singleton]
    by_cases hn : 0 ≤ a + (n : Int) ∧ a + (n : Int) < 160
    · rw [if_pos ((hspan _).mpr hn)]
      omega
    · rw [if_neg (mt (hspan _).mp hn)]
      omega

theorem countP_intRange_inSpan (a n : Int) :
    (intRange a (a + n - 1)).countP inSpan = (min (a + n) 160 - max a 0).toNat := by
  have hn : (a + n - 1 - a + 1).toNat = n.toNat := by omega
  rw [intRange, List.countP_map, hn]
  refine (countP_range_inSpan a n.toNat).trans ?_
  omega

/-- Counting the points of rows by a test on each coordinate. -/
theorem countP_rows (p q : Int → Bool) (cols rows : List Int) :
    ((rows.flatMap fun j => cols.map fun i => (i, j)).countP fun d => p d.1 && q d.2) =
      cols.countP p * rows.countP q := by
  induction rows with
  | nil => rfl
  | cons j rows ih =>
    rw [List.flatMap_cons, List.countP_append, ih, List.countP_map, List.countP_cons, Nat.mul_add, Nat.add_comm]
    congr 1
    cases hq : q j <;> simp [Function.comp_def, hq]

/-- How many points of a rectangle are on the surface. -/
theorem countP_areaPoints (x y w h : Int) : ((areaPoints x y w h).countP fun p => inRange p.1 p.2) =
    (min (x + w) 160 - max x 0).toNat * (min (y + h) 160 - max y 0).toNat := by
  simp only [inRange_eq_inSpan, areaPoints]
  rw [countP_rows, countP_intRange_inSpan, countP_intRange_inSpan]

/-! ### BLANK -/

/-- Settles O46: BLANK clears the points of its rectangle. -/
theorem blankClearsItsRectangle : Obligations.BlankClearsItsRectangle := by
  rintro s x y w h hready rfl rfl rfl rfl
  have hp := paintedPoints_singleAll hready false (areaPoints s.a0.toInt s.a1.toInt s.a2.toInt s.a3.toInt)
  refine ⟨_, rfl, hp.frame, hp.result, ?_, hp.paints.congr fun _ _ => mem_areaPoints, ?_, ?_⟩
  · rw [← any_areaPoints]
    exact hp.status
  · rw [← areaPoints_eq]
    exact hp.inOrder
  · rw [← countP_areaPoints]
    exact hp.events

/-! ### The dots of the default pen table -/

/-- The 5x5 square around the origin, which the largest dot fills (R127). -/
def dotSquare : List (Int × Int) := areaPoints (-2) (-2) 5 5

/-- A set of offsets inside the 5x5 square is told by looking at the square's points. -/
theorem mem_iff_of_dotSquare {l : List (Int × Int)} {P : Int → Int → Prop} (hl : l ⊆ dotSquare)
    (hP : ∀ dx dy, P dx dy → -2 ≤ dx ∧ dx ≤ 2 ∧ -2 ≤ dy ∧ dy ≤ 2)
    (h : ∀ d ∈ dotSquare, d ∈ l ↔ P d.1 d.2) (dx dy : Int) : (dx, dy) ∈ l ↔ P dx dy := by
  constructor
  · exact fun hd => (h _ (hl hd)).mp hd
  · intro hd
    have hb := hP dx dy hd
    exact (h (dx, dy) (mem_areaPoints.mpr (by omega))).mpr hd

/-- Settles O7: each dot against its shape, point by point of the 5x5 square. -/
theorem penTableFootprints : Obligations.PenTableFootprints := by
  refine ⟨mem_iff_of_dotSquare (by decide) (by omega) (by decide),
    mem_iff_of_dotSquare (by decide) (by omega) (by decide),
    mem_iff_of_dotSquare (by decide) (by omega) (by decide),
    mem_iff_of_dotSquare (by decide) (fun _ _ h => ?_) (by decide),
    mem_iff_of_dotSquare (by decide) (fun _ _ h => h) (by decide), by decide⟩
  obtain ⟨h1, h2, h3, h4, -⟩ := h
  exact ⟨h1, h2, h3, h4⟩

end Sys2Proof.Machine
end

section
/-! The points of the straight shapes: which they are, and that none comes twice (R157 to R164). -/

namespace Sys2Proof.Machine

/-! ### Rows of points -/

theorem intRange_nodup (a b : Int) : (intRange a b).Nodup :=
  List.nodup_range.map fun m n h => by simpa using h

theorem mem_rowPoints {a b row px py : Int} : (px, py) ∈ rowPoints a b row ↔ a ≤ px ∧ px ≤ b ∧ py = row := by
  simp only [rowPoints, List.mem_map, Prod.mk.injEq, mem_intRange]
  constructor
  · rintro ⟨i, ⟨ha, hb⟩, rfl, rfl⟩
    exact ⟨ha, hb, rfl⟩
  · rintro ⟨ha, hb, rfl⟩
    exact ⟨px, ⟨ha, hb⟩, rfl, rfl⟩

theorem rowPoints_nodup (a b row : Int) : (rowPoints a b row).Nodup :=
  (intRange_nodup a b).map fun _ _ h => congrArg Prod.fst h

theorem nodup_pair {a b row row' : Int} (hab : a ≠ b) : [(a, row), (b, row')].Nodup := by simp [hab]

/-- Points listed row by row, each row of its own and without repetition, do not repeat. -/
theorem nodup_rows {a b : Int} {f : Int → List (Int × Int)} {row : Int → Int} (hinj : Function.Injective row)
    (hrow : ∀ j, ∀ p ∈ f j, p.2 = row j) (hf : ∀ j ∈ intRange a b, (f j).Nodup) :
    ((intRange a b).flatMap f).Nodup := by
  refine List.nodup_flatMap.mpr ⟨hf, (intRange_nodup a b).imp fun {i j} hij p hi hj => hij (hinj ?_)⟩
  rw [← hrow i p hi, hrow j p hj]

/-! ### Rectangles -/

theorem mem_rectPoints {x y w h px py : Int} {fill : Bool} : (px, py) ∈ rectPoints x y w h fill ↔
    2 ≤ w ∧ 1 ≤ h ∧ x ≤ px ∧ px ≤ x + w - 1 ∧ y ≤ py ∧ py ≤ y + h - 1 ∧
      (fill = true ∨ py = y ∨ py = y + h - 1 ∨ px = x ∨ px = x + w - 1) := by
  have hsides : (px, py) ∈ (intRange (y + 1) (y + h - 2)).flatMap (fun j => [(x, j), (x + w - 1, j)]) ↔
      y + 1 ≤ py ∧ py ≤ y + h - 2 ∧ (px = x ∨ px = x + w - 1) := by
    simp only [List.mem_flatMap, mem_intRange, List.mem_cons, Prod.mk.injEq, List.not_mem_nil, or_false]
    grind
  have hinside : (px, py) ∈ (intRange (y + 1) (y + h - 2)).flatMap (fun j => rowPoints (x + 1) (x + w - 2) j) ↔
      y + 1 ≤ py ∧ py ≤ y + h - 2 ∧ x + 1 ≤ px ∧ px ≤ x + w - 2 := by
    simp only [List.mem_flatMap, mem_intRange, mem_rowPoints]
    grind
  rw [rectPoints]
  split
  · simp only [List.not_mem_nil, false_iff]
    omega
  · simp only [List.mem_append, List.mem_ite_nil_right, hsides, hinside, mem_rowPoints]
    cases fill
    · simp only [Bool.false_eq_true, false_and, or_false, false_or]
      omega
    · simp only [true_and, true_or, and_true]
      omega

/-- The parts of a rectangle have no point in common. -/
theorem rectPoints_nodup (x y w h : Int) (fill : Bool) : (rectPoints x y w h fill).Nodup := by
  rw [rectPoints]
  split
  · exact List.nodup_nil
  · have hbottom : (if 2 ≤ h then rowPoints x (x + w - 1) (y + h - 1) else []).Nodup := by
      split
      · exact rowPoints_nodup _ _ _
      · exact List.nodup_nil
    have hsides : ((intRange (y + 1) (y + h - 2)).flatMap fun j => [(x, j), (x + w - 1, j)]).Nodup :=
      nodup_rows (row := id) Function.injective_id (by simp) fun j _ => nodup_pair (by omega)
    have hinside : (if fill = true then
        (intRange (y + 1) (y + h - 2)).flatMap fun j => rowPoints (x + 1) (x + w - 2) j else []).Nodup := by
      split
      · exact nodup_rows (row := id) Function.injective_id (fun _ _ hp => (mem_rowPoints.mp hp).2.2)
          fun _ _ => rowPoints_nodup _ _ _
      · exact List.nodup_nil
    refine ((((rowPoints_nodup x _ y).append hbottom ?_).append hsides ?_).append hinside ?_)
    all_goals
      rintro ⟨px, py⟩
      simp only [List.mem_append, List.mem_ite_nil_right, List.mem_flatMap, mem_intRange, mem_rowPoints, List.mem_cons,
        Prod.mk.injEq, List.not_mem_nil, or_false]
      grind

/-- Settles O49: the order is R157's, and the parts are told apart by their rows and columns. -/
theorem rectanglePoints : Obligations.RectanglePoints := fun x y w h fill =>
  ⟨rectPoints_eq_rectOrder x y w h fill, rectPoints_nodup x y w h fill, fun _ _ => mem_rectPoints⟩

/-! ### Triangles -/

theorem mem_triangleRow {x y b h i px py : Int} {fill flip : Bool} (hw : 0 ≤ halfWidth b h i) :
    (px, py) ∈ triangleRow x y b h fill flip i ↔
      py = (if flip then y - i else y + i) ∧ x - halfWidth b h i ≤ px ∧ px ≤ x + halfWidth b h i ∧
        (fill = true ∨ i = h - 1 ∨ px = x - halfWidth b h i ∨ px = x + halfWidth b h i) := by
  simp only [triangleRow]
  split
  · rw [mem_rowPoints]
    grind
  · split
    · simp only [List.mem_cons, Prod.mk.injEq, List.not_mem_nil, or_false]
      grind
    · rw [List.mem_singleton, Prod.mk.injEq]
      grind

theorem snd_of_mem_triangleRow {x y b h i : Int} {fill flip : Bool} {p : Int × Int}
    (hp : p ∈ triangleRow x y b h fill flip i) : p.2 = if flip then y - i else y + i := by
  simp only [triangleRow] at hp
  split at hp
  · exact (mem_rowPoints.mp hp).2.2
  · split at hp
    · simp only [List.mem_cons, List.not_mem_nil, or_false] at hp
      rcases hp with rfl | rfl <;> rfl
    · exact congrArg Prod.snd (List.mem_singleton.mp hp)

theorem triangleRow_nodup (x y b h i : Int) (fill flip : Bool) : (triangleRow x y b h fill flip i).Nodup := by
  simp only [triangleRow]
  split
  · exact rowPoints_nodup _ _ _
  · split
    · exact nodup_pair (by omega)
    · exact List.nodup_singleton _

theorem mem_trianglePoints {x y b h px py : Int} {fill flip : Bool} :
    (px, py) ∈ trianglePoints x y b h fill flip ↔
      0 < h ∧ 0 ≤ b ∧ ∃ i hw : Int, 0 ≤ i ∧ i < h ∧ hw = (if h = 1 then b else b * i / (h - 1)) ∧
        py = (if flip then y - i else y + i) ∧ x - hw ≤ px ∧ px ≤ x + hw ∧
        (fill = true ∨ i = h - 1 ∨ px = x - hw ∨ px = x + hw) := by
  rw [trianglePoints]
  split
  · simp only [List.not_mem_nil, false_iff]
    omega
  · rename_i hd
    simp only [List.mem_flatMap, mem_intRange]
    constructor
    · rintro ⟨i, ⟨h0, hi⟩, hp⟩
      rw [mem_triangleRow (halfWidth_nonneg (by omega) (by omega) h0)] at hp
      exact ⟨by omega, by omega, i, halfWidth b h i, h0, by omega, rfl, hp⟩
    · rintro ⟨hh, hb, i, _, h0, hi, rfl, hp⟩
      exact ⟨i, ⟨h0, by omega⟩, (mem_triangleRow (halfWidth_nonneg hb hh h0)).mpr hp⟩

/-- The rows of a triangle are rows of their own, whichever way they go. -/
theorem trianglePoints_nodup (x y b h : Int) (fill flip : Bool) : (trianglePoints x y b h fill flip).Nodup := by
  rw [trianglePoints]
  split
  · exact List.nodup_nil
  · refine nodup_rows (row := fun i => if flip then y - i else y + i) ?_ (fun _ _ => snd_of_mem_triangleRow)
      fun i _ => triangleRow_nodup x y b h i fill flip
    cases flip
    · exact add_right_injective y
    · exact sub_right_injective

/-- Settles O50: the order is R162's, and every row has its points. -/
theorem trianglePoints_spec : Obligations.TrianglePoints := fun x y b h fill flip =>
  ⟨trianglePoints_eq_triangleOrder x y b h fill flip, trianglePoints_nodup x y b h fill flip,
    fun _ _ => mem_trianglePoints⟩

/-! ### Stars -/

/-- A half turn takes the triangle with its apex at `(x, y)` to the one of the other orientation whose apex is at the
image of that apex. -/
theorem mem_trianglePoints_halfTurn {x y y' b h px py : Int} {fill flip : Bool} :
    (px, py) ∈ trianglePoints x y b h fill flip ↔
      (2 * x - px, y + y' - py) ∈ trianglePoints x y' b h fill !flip := by
  have hrow : ∀ i, (py = if flip then y - i else y + i) ↔ y + y' - py = if !flip then y' - i else y' + i := by
    intro i
    cases flip
    · simp only [Bool.false_eq_true, Bool.not_false, if_true, if_false]
      omega
    · simp only [Bool.not_true, Bool.false_eq_true, if_true, if_false]
      omega
  simp only [mem_trianglePoints, hrow]
  refine and_congr_right fun _ => and_congr_right fun _ => exists₂_congr fun i hw => ?_
  grind

theorem count_trianglePoints_halfTurn (x y y' b h px py : Int) (fill flip : Bool) :
    (trianglePoints x y b h fill flip).count (px, py) =
      (trianglePoints x y' b h fill !flip).count (2 * x - px, y + y' - py) := by
  rw [(trianglePoints_nodup ..).count, (trianglePoints_nodup ..).count]
  exact if_congr mem_trianglePoints_halfTurn rfl rfl

/-- A star is its two triangles, one after the other, degenerate or not (R164). -/
theorem starPoints_eq_append (x y b h : Int) (fill : Bool) : starPoints x y b h fill =
    trianglePoints x (y - 2 * ((h - 1) / 3)) b h fill false ++ trianglePoints x (y + 2 * ((h - 1) / 3)) b h fill true := by
  rw [starPoints_eq_starOrder, starOrder, trianglePoints_eq_triangleOrder, trianglePoints_eq_triangleOrder]

/-- Each of a star's two triangles is the image of the other, so the star is its own. -/
theorem count_starPoints_halfTurn (x y b h px py : Int) (fill : Bool) :
    (starPoints x y b h fill).count (px, py) = (starPoints x y b h fill).count (2 * x - px, 2 * y - py) := by
  have hy : 2 * y - py = y - 2 * ((h - 1) / 3) + (y + 2 * ((h - 1) / 3)) - py := by omega
  have hy' : 2 * y - py = y + 2 * ((h - 1) / 3) + (y - 2 * ((h - 1) / 3)) - py := by omega
  rw [starPoints_eq_append, List.count_append, List.count_append, Nat.add_comm]
  congr 1
  · rw [hy']
    exact count_trianglePoints_halfTurn x _ _ b h px py fill true
  · rw [hy]
    exact count_trianglePoints_halfTurn x _ _ b h px py fill false

/-- Settles O51: two triangles, one after the other, each the image of the other under the half turn. -/
theorem starPoints_spec : Obligations.StarPoints := fun x y b h fill =>
  ⟨starPoints_eq_starOrder x y b h fill, fun _ _ => by rw [starPoints_eq_append, List.mem_append],
    fun px py => count_starPoints_halfTurn x y b h px py fill⟩

end Sys2Proof.Machine
end

section
/-! The points of the circle: its loop visits exactly the points of one octant nearest the circle, one in each column,
so the outline is round and a filled circle covers its rows (R153, R154, R156). -/

namespace Sys2Proof.Machine

/-! ### The loop of the rule -/

/-- The loop of R153 from `(x, y, d)`, with as many iterations as it can make. -/
def circleFrom (cx cy : Int) (fill : Bool) (x y d : Int) : List (Int × Int) :=
  circleLoop cx cy fill (y - x + 1).toNat x y d

theorem circlePoints_eq_circleFrom (cx cy r : Int) (fill : Bool) :
    circlePoints cx cy r fill = circleFrom cx cy fill 0 r (1 - r) := by
  rw [circlePoints, circleFrom, Int.sub_zero]

/-- The loop with its test, one iteration and the update of `d`, `x` and `y`. -/
theorem circleFrom_eq (cx cy : Int) (fill : Bool) (x y d : Int) : circleFrom cx cy fill x y d =
    if x ≤ y then
      circleIteration cx cy fill x y ++
        (if d < 0 then circleFrom cx cy fill (x + 1) y (d + 2 * x + 3)
         else circleFrom cx cy fill (x + 1) (y - 1) (d + 2 * (x - y) + 5))
    else [] := by
  by_cases hxy : x ≤ y
  · have hfuel : (y - x + 1).toNat = (y - x).toNat + 1 := by omega
    rw [circleFrom, hfuel, circleLoop, circleFrom, circleFrom,
      circleLoop_fuel cx cy fill (y - x).toNat (y - (x + 1) + 1).toNat (x + 1) y _ (by omega) (by omega),
      circleLoop_fuel cx cy fill (y - x).toNat (y - 1 - (x + 1) + 1).toNat (x + 1) (y - 1) _ (by omega) (by omega)]
  · have hfuel : (y - x + 1).toNat = 0 := by omega
    rw [circleFrom, hfuel, if_neg hxy, circleLoop]

/-- Settles O52: the loop of the rule is the model's, which never runs out of fuel. -/
theorem circleFollowsTheLoop : Obligations.CircleFollowsTheLoop := by
  refine fun cx cy fill => ⟨circleFrom cx cy fill, fun x y d => ?_, fun r => circlePoints_eq_circleFrom cx cy r fill⟩
  rw [circleFrom_eq]
  simp only [circleIteration, circleOctants, circleSpans, rowPoints]

/-! ### The points of an octant that the loop visits -/

/-- The points at distances `u` and `v` from the axes are, along the larger of the two, nearest the circle of radius
`r`. -/
def nearCircle (r u v : Int) : Prop := u * u + v * v - max u v < r * r ∧ r * r ≤ u * u + v * v + max u v

theorem nearCircle_comm {r u v : Int} : nearCircle r u v ↔ nearCircle r v u := by
  rw [nearCircle, nearCircle, max_comm, Int.add_comm (u * u)]

theorem nearCircle_of_le {r u v : Int} (h : u ≤ v) :
    nearCircle r u v ↔ u * u + v * v - v < r * r ∧ r * r ≤ u * u + v * v + v := by
  rw [nearCircle, max_eq_right h]

/-- The intervals `(s² - s, s² + s]` follow one another without overlap. -/
theorem sq_add_le_sq_sub {a b : Int} (ha : 0 ≤ a) (hab : a < b) : a * a + a ≤ b * b - b := by
  have hgap : 0 ≤ (b - a - 1) * (b + a) := mul_nonneg (by omega) (by omega)
  linarith

/-- They cover the positive numbers: `s` is the square root of `n`, rounded. -/
theorem exists_rounded_sqrt {n : Int} (hn : 1 ≤ n) : ∃ s : Int, 0 ≤ s ∧ s * s - s < n ∧ n ≤ s * s + s := by
  induction n, hn using Int.leInduction with
  | base => exact ⟨1, by decide⟩
  | succ n hn ih =>
    obtain ⟨s, hs, hlt, hle⟩ := ih
    by_cases hnext : n + 1 ≤ s * s + s
    · exact ⟨s, hs, by omega, hnext⟩
    · exact ⟨s + 1, by omega, by linarith, by linarith⟩

/-- What holds before each test of the loop for radius `r`: `d` says on which side of the circle the midpoint between
the next column's two candidates lies, and the point of column `x` is near the circle while the loop goes on. -/
structure CircleInvariant (r x y d : Int) : Prop where
  column : 0 ≤ x
  row : 0 ≤ y
  decision : d = (x + 1) * (x + 1) + y * y - y - r * r
  above : r * r ≤ x * x + y * y + y
  below : x ≤ y → x * x + y * y - y < r * r

namespace CircleInvariant

theorem start {r : Int} (hr : 1 ≤ r) : CircleInvariant r 0 r (1 - r) where
  column := le_rfl
  row := by omega
  decision := by ring
  above := by omega
  below _ := by omega

variable {r x y d : Int} (h : CircleInvariant r x y d)
include h

/-- The midpoint is inside the circle: the next point is in the same row. -/
theorem next_same_row (hd : d < 0) : CircleInvariant r (x + 1) y (d + 2 * x + 3) := by
  obtain ⟨hx, hy, rfl, habove, -⟩ := h
  exact ⟨by omega, hy, by ring, by linarith, fun _ => by linarith⟩

/-- The midpoint is not inside the circle: the next point is one row nearer the axis. -/
theorem next_row_in (hxy : x ≤ y) (hd : 0 ≤ d) : CircleInvariant r (x + 1) (y - 1) (d + 2 * (x - y) + 5) := by
  obtain ⟨hx, hy, rfl, habove, hbelow⟩ := h
  have hbelow := hbelow hxy
  have hy0 : y ≠ 0 := by
    rintro rfl
    obtain rfl : x = 0 := by omega
    omega
  exact ⟨by omega, by omega, by ring, by linarith, fun _ => by linarith⟩

theorem near (hxy : x ≤ y) : nearCircle r x y := (nearCircle_of_le hxy).mpr ⟨h.below hxy, h.above⟩

/-- Column `x` of the octant has no other point near the circle. -/
theorem row_unique {v : Int} (hxy : x ≤ y) (hxv : x ≤ v) (hnear : nearCircle r x v) : v = y := by
  obtain ⟨hlt, hle⟩ := (nearCircle_of_le hxv).mp hnear
  obtain ⟨hx, hy, -, habove, hbelow⟩ := h
  have hbelow := hbelow hxy
  rcases lt_trichotomy v y with hvy | hvy | hvy
  · have := sq_add_le_sq_sub (by omega) hvy
    omega
  · exact hvy
  · have := sq_add_le_sq_sub hy hvy
    omega

/-- Where the loop stops, no point of the octant near the circle is left. -/
theorem not_nearCircle {u v : Int} (hyx : y < x) (hxu : x ≤ u) (huv : u ≤ v) : ¬ nearCircle r u v := by
  rintro hnear
  obtain ⟨hlt, -⟩ := (nearCircle_of_le huv).mp hnear
  have hrows := sq_add_le_sq_sub h.row (show y < v by omega)
  have hcols := mul_self_le_mul_self h.column hxu
  have := h.above
  omega

/-- The loop runs the iterations at the points of the octant near the circle, from column `x` on. -/
theorem mem_circleLoop {cx cy : Int} {fill : Bool} {n : Nat} (hn : y - x + 1 ≤ n) {p : Int × Int} :
    p ∈ circleLoop cx cy fill n x y d ↔
      ∃ u v, x ≤ u ∧ u ≤ v ∧ nearCircle r u v ∧ p ∈ circleIteration cx cy fill u v := by
  induction n generalizing x y d with
  | zero =>
    simp only [circleLoop, List.not_mem_nil, false_iff]
    rintro ⟨u, v, hxu, huv, hnear, -⟩
    exact h.not_nearCircle (by omega) hxu huv hnear
  | succ n ih =>
    rw [circleLoop]
    by_cases hxy : x ≤ y
    · have hrest : p ∈ (if d < 0 then circleLoop cx cy fill n (x + 1) y (d + 2 * x + 3)
          else circleLoop cx cy fill n (x + 1) (y - 1) (d + 2 * (x - y) + 5)) ↔
            ∃ u v, x + 1 ≤ u ∧ u ≤ v ∧ nearCircle r u v ∧ p ∈ circleIteration cx cy fill u v := by
        split
        · exact ih (h.next_same_row ‹_›) (by omega)
        · exact ih (h.next_row_in hxy (by omega)) (by omega)
      rw [if_pos hxy, List.mem_append, hrest]
      constructor
      · rintro (hp | ⟨u, v, hxu, huv, hnear, hp⟩)
        · exact ⟨x, y, le_rfl, hxy, h.near hxy, hp⟩
        · exact ⟨u, v, by omega, huv, hnear, hp⟩
      · rintro ⟨u, v, hxu, huv, hnear, hp⟩
        rcases hxu.eq_or_lt with rfl | hxu
        · rw [h.row_unique hxy huv hnear] at hp
          exact .inl hp
        · exact .inr ⟨u, v, hxu, huv, hnear, hp⟩
    · simp only [if_neg hxy, List.not_mem_nil, false_iff]
      rintro ⟨u, v, hxu, huv, hnear, -⟩
      exact h.not_nearCircle (by omega) hxu huv hnear

end CircleInvariant

/-! ### The points of a circle -/

theorem mem_circleOctants {cx cy u v px py : Int} (hu : 0 ≤ u) (hv : 0 ≤ v) : (px, py) ∈ circleOctants cx cy u v ↔
    (|px - cx| = u ∧ |py - cy| = v) ∨ (|px - cx| = v ∧ |py - cy| = u) := by
  simp only [circleOctants, List.mem_cons, Prod.mk.injEq, List.not_mem_nil, or_false, abs_eq hu, abs_eq hv]
  omega

theorem mem_circleSpans {cx cy u v px py : Int} (hu : 0 ≤ u) (hv : 0 ≤ v) : (px, py) ∈ circleSpans cx cy u v ↔
    (|px - cx| < u ∧ |py - cy| = v) ∨ (|px - cx| < v ∧ |py - cy| = u) := by
  simp only [circleSpans, List.mem_append, mem_rowPoints, abs_eq hu, abs_eq hv, abs_lt]
  omega

/-- The points at distance `a` from the vertical axis of a row of the circle that ends at distance `w`. -/
def inRowTo (fill : Bool) (a w : Int) : Prop := a = w ∨ (fill = true ∧ a < w)

theorem inRowTo_false {a w : Int} : inRowTo false a w ↔ a = w := by simp [inRowTo]

theorem inRowTo_true {a w : Int} : inRowTo true a w ↔ a ≤ w := by simp [inRowTo, le_iff_eq_or_lt]

theorem inRowTo_abs_zero {fill : Bool} {a : Int} : inRowTo fill |a| 0 ↔ a = 0 := by
  cases fill
  · rw [inRowTo_false, abs_eq_zero]
  · rw [inRowTo_true, abs_nonpos_iff]

theorem mem_circleIteration {cx cy u v px py : Int} {fill : Bool} (hu : 0 ≤ u) (hv : 0 ≤ v) :
    (px, py) ∈ circleIteration cx cy fill u v ↔
      (inRowTo fill |px - cx| u ∧ |py - cy| = v) ∨ (inRowTo fill |px - cx| v ∧ |py - cy| = u) := by
  rw [circleIteration, List.mem_append, List.mem_ite_nil_right, mem_circleOctants hu hv, mem_circleSpans hu hv]
  simp only [inRowTo]
  grind

/-- A row of a circle ends at the distances near the circle; the two octants of a quadrant are mirror images. -/
theorem mem_circlePoints {cx cy r px py : Int} {fill : Bool} (hr : 1 ≤ r) : (px, py) ∈ circlePoints cx cy r fill ↔
    ∃ w, 0 ≤ w ∧ nearCircle r w |py - cy| ∧ inRowTo fill |px - cx| w := by
  rw [circlePoints, (CircleInvariant.start hr).mem_circleLoop (by omega)]
  constructor
  · rintro ⟨u, v, hu, huv, hnear, hp⟩
    rcases (mem_circleIteration hu (hu.trans huv)).mp hp with ⟨ha, rfl⟩ | ⟨ha, rfl⟩
    · exact ⟨u, hu, hnear, ha⟩
    · exact ⟨v, hu.trans huv, nearCircle_comm.mp hnear, ha⟩
  · rintro ⟨w, hw, hnear, ha⟩
    have hb := abs_nonneg (py - cy)
    rcases le_total w |py - cy| with hle | hle
    · exact ⟨w, _, hw, hle, hnear, (mem_circleIteration hw hb).mpr (.inl ⟨ha, rfl⟩)⟩
    · exact ⟨_, w, hb, hle, nearCircle_comm.mp hnear, (mem_circleIteration hb hw).mpr (.inr ⟨ha, rfl⟩)⟩

/-- Radius 0 has the centre alone. -/
theorem mem_circlePoints_zero {cx cy px py : Int} {fill : Bool} :
    (px, py) ∈ circlePoints cx cy 0 fill ↔ px = cx ∧ py = cy := by
  have hone : circlePoints cx cy 0 fill = circleIteration cx cy fill 0 0 := by simp [circlePoints, circleLoop]
  rw [hone, mem_circleIteration le_rfl le_rfl]
  rw [inRowTo_abs_zero, abs_eq_zero, or_self, sub_eq_zero, sub_eq_zero]

theorem circlePoints_neg {cx cy r : Int} {fill : Bool} (hr : r < 0) : circlePoints cx cy r fill = [] := by
  rw [circlePoints_eq_circleFrom, circleFrom_eq, if_neg (by omega)]

/-- Without FILL a row has its ends alone. -/
theorem mem_outline {cx cy r px py : Int} (hr : 1 ≤ r) :
    (px, py) ∈ circlePoints cx cy r false ↔ nearCircle r |px - cx| |py - cy| := by
  simp only [mem_circlePoints hr, inRowTo_false]
  constructor
  · rintro ⟨_, -, hnear, rfl⟩
    exact hnear
  · exact fun hnear => ⟨_, abs_nonneg _, hnear, rfl⟩

/-- Settles O53: without FILL a row has its ends alone, and these are near the circle. -/
theorem circleOutlineIsRound : Obligations.CircleOutlineIsRound := by
  intro cx cy r px py
  rcases lt_trichotomy r 0 with hr | rfl | hr
  · rw [circlePoints_neg hr]
    simp only [List.not_mem_nil, false_iff]
    omega
  · rw [mem_circlePoints_zero]
    grind
  · rw [mem_outline hr]
    constructor
    · exact fun ⟨hlt, hle⟩ => .inr ⟨hr, _, _, _, rfl, rfl, rfl, hlt, hle⟩
    · rintro (⟨h0, -⟩ | ⟨-, _, _, _, rfl, rfl, rfl, hlt, hle⟩)
      · omega
      · exact ⟨hlt, hle⟩

/-! ### The filled circle -/

theorem mem_filled {cx cy r px py : Int} (hr : 1 ≤ r) :
    (px, py) ∈ circlePoints cx cy r true ↔ ∃ w, 0 ≤ w ∧ nearCircle r w |py - cy| ∧ |px - cx| ≤ w := by
  simp only [mem_circlePoints hr, inRowTo_true]

/-- The point at the radius on an axis is on the circle. -/
theorem nearCircle_axis {r : Int} (hr : 1 ≤ r) : nearCircle r 0 r := by
  rw [nearCircle_of_le (by omega)]
  omega

/-- Every distance up to the radius is that of a row of the circle. -/
theorem exists_nearCircle {r e : Int} (hr : 1 ≤ r) (he : 0 ≤ e) (her : e ≤ r) : ∃ w, 0 ≤ w ∧ nearCircle r w e := by
  rcases her.eq_or_lt with rfl | her
  · exact ⟨0, le_rfl, nearCircle_axis hr⟩
  · have hpos : e * e < r * r := mul_self_lt_mul_self he her
    obtain ⟨s, hs, hlt, hle⟩ := exists_rounded_sqrt (n := r * r - e * e) (by omega)
    have hmax := le_max_left s e
    exact ⟨s, hs, by omega, by omega⟩

/-- No point near the circle is further from the axes than the radius. -/
theorem max_le_of_nearCircle {r u v : Int} (hr : 0 ≤ r) (h : nearCircle r u v) : max u v ≤ r := by
  by_contra hgt
  have hsq : max u v * max u v ≤ u * u + v * v := by
    have hu := mul_self_nonneg u
    have hv := mul_self_nonneg v
    rcases max_choice u v with e | e <;> rw [e] <;> omega
  have hgap := sq_add_le_sq_sub hr (not_le.mp hgt)
  have hlt := h.1
  omega

/-- Settles O54: every row up to the radius reaches the centre column, and the centre row reaches the radius. -/
theorem filledCircleCoversItsRows : Obligations.FilledCircleCoversItsRows := by
  intro cx cy r hr
  rcases hr.eq_or_lt with rfl | hr
  · refine ⟨fun d hlo hhi => ?_, fun px py hp => ?_⟩
    · exact ⟨mem_circlePoints_zero.mpr (by omega), mem_circlePoints_zero.mpr (by omega)⟩
    · have hcentre := mem_circlePoints_zero.mp hp
      omega
  · refine ⟨fun d hlo hhi => ?_, fun px py hp => ?_⟩
    · have hd : |d| ≤ r := abs_le.mpr ⟨hlo, hhi⟩
      obtain ⟨w, hw, hnear⟩ := exists_nearCircle hr (abs_nonneg d) hd
      constructor
      · exact (mem_filled hr).mpr ⟨w, hw, by rwa [add_sub_cancel_left], by rwa [sub_self, abs_zero]⟩
      · exact (mem_filled hr).mpr ⟨r, hr.le, by rw [sub_self, abs_zero]; exact nearCircle_comm.mp (nearCircle_axis hr),
          by rwa [add_sub_cancel_left]⟩
    · obtain ⟨w, hw, hnear, hpx⟩ := (mem_filled hr).mp hp
      obtain ⟨hwr, hpy⟩ := max_le_iff.mp (max_le_of_nearCircle hr.le hnear)
      obtain ⟨hx1, hx2⟩ := abs_le.mp (hpx.trans hwr)
      obtain ⟨hy1, hy2⟩ := abs_le.mp hpy
      omega

end Sys2Proof.Machine
end

section
/-! What NOP and the blits leave behind (R181 to R183, R186, R190, R197 to R200). A blit checks its operands, then its
area; in BLANK and FILL mode its words are one constant; and a screen fill is such a blit of the whole surface. -/

namespace Sys2Proof.Machine

/-! ### NOP -/

/-- A command that finishes before it emits anything: STATUS and the host's own image writes aside, all stays (R15,
R27). -/
theorem finish_run_idles (s : State) :
    s.frame (s.finish s.run) ∧ s.silent (s.finish s.run) ∧ (s.finish s.run).result = s.result ∧
      (s.finish s.run).status = endStatus s none :=
  ⟨finish_frame s s.result s.run, ⟨rfl, rfl⟩, rfl, rfl⟩

/-- Acceptance leaves BUSY alone set, and completion clears it (R26, R27). -/
theorem statusComplete_accept {w : Word} (hr : w &&& statusReserved = 0) : statusComplete (statusAccept w) = 0 := by
  refine status_ext (fun f => ?_) ?_
  · rw [statusGet_complete, statusGet_accept, Bool.not_and_self]
    simp [statusGet]
  · exact (statusComplete_reserved _).trans ((statusAccept_reserved w).trans hr)

/-- Settles O34: NOP finishes with the run it starts with. -/
theorem nopDoesNothing : Obligations.NopDoesNothing := fun s =>
  ⟨⟨_, rfl, finish_run_idles s⟩, fun hr => ⟨_, rfl, statusComplete_accept hr⟩⟩

/-! ### The operand checks of a blit -/

theorem mem_blitCommands {i : Instr} : i ∈ blitCommands ↔ i = .bitimage ∨ i = .wordimage ∨ i = .fillregion := by
  simp [blitCommands]

/-- The modes that are not reserved (R90). -/
theorem mode_le_two_iff (a : Word) : a.toNat ≤ 2 ↔ a = 0 ∨ a = 1 ∨ a = 2 := by
  simp only [← BitVec.toNat_inj, BitVec.ofNat_eq_ofNat, BitVec.toNat_ofNat]
  omega

theorem decodeMode_of_reserved {a : Word} (h : 2 < a.toNat) : decodeMode a = none := by
  have hn := mt (mode_le_two_iff a).mpr (Nat.not_le.mpr h)
  simp only [not_or] at hn
  rw [decodeMode, if_neg hn.1, if_neg hn.2.1, if_neg hn.2.2]

theorem eq_one_of_decodeMode_draw {a : Word} (h : decodeMode a = some .draw) : a = 1 := by
  by_contra hn
  rw [decodeMode, if_neg hn] at h
  split_ifs at h <;> cases h

theorem getLsbD_zero_iff_odd (a : Word) : a.getLsbD 0 = true ↔ a.toNat % 2 = 1 := by
  rw [BitVec.getLsbD, Nat.testBit_zero, decide_eq_true_eq]

/-- The operand checks of R223 (5) and (6). -/
theorem blitAccepts_iff {i : Instr} {s : State} : blitAccepts i s = true ↔
    ¬ (2 < (blitMode i s).toNat ∨ (i = .fillregion ∧ blitMode i s = 1) ∨ (i = .wordimage ∧ s.a0.toNat % 2 = 1)) := by
  simp only [blitAccepts, Bool.and_eq_true, Bool.not_eq_true', decide_eq_true_eq, ← Bool.not_eq_true,
    getLsbD_zero_iff_odd, not_or, not_and_or, not_lt, and_assoc]

theorem decodeMode_of_accepted {i : Instr} {s : State} (hacc : blitAccepts i s = true) :
    ∃ m, decodeMode (blitMode i s) = some m := by
  have hle := not_lt.mp (not_or.mp (blitAccepts_iff.mp hacc)).1
  rcases (mode_le_two_iff _).mp hle with h | h | h
  · exact ⟨.blank, by rw [h]; rfl⟩
  · exact ⟨.draw, by rw [h]; rfl⟩
  · exact ⟨.fill, by rw [h]; rfl⟩

/-- A blit whose operands are refused fails with ILLEGAL before it looks at its area (R186, R190, R197). -/
theorem exec_blit_refused {i : Instr} (hi : i ∈ blitCommands) {s : State} (hr : 2 < (blitMode i s).toNat ∨
    (i = .fillregion ∧ blitMode i s = 1) ∨ (i = .wordimage ∧ s.a0.toNat % 2 = 1)) :
    exec i s = .next (s.fail .illegal s.run) := by
  rcases hr with hmode | ⟨rfl, hdraw⟩ | ⟨rfl, hodd⟩
  · have hnone := decodeMode_of_reserved hmode
    rcases mem_blitCommands.mp hi with rfl | rfl | rfl
    · have hm : decodeMode s.a3 = none := hnone
      simp only [exec, execBitimage, hm]
    · have hm : decodeMode s.a3 = none := hnone
      simp only [exec, execWordimage, hm]
    · have hm : decodeMode s.a4 = none := hnone
      simp only [exec, execFillregion, hm]
  · have hm : decodeMode s.a4 = some .draw := congrArg decodeMode hdraw
    simp only [exec, execFillregion, hm]
  · have ho := (getLsbD_zero_iff_odd s.a0).mpr hodd
    simp only [exec, execWordimage, ho, if_true]
    split <;> rfl

/-- Settles O55: each refused operand ends the blit with ILLEGAL. -/
theorem blitsRefuseReservedOperands : Obligations.BlitsRefuseReservedOperands := fun _ s hi hr =>
  ⟨_, exec_blit_refused hi hr, fail_run_refuses s .illegal⟩

/-! ### The area check of a blit -/

/-- A blit of the given words, to its completion (R181). -/
def State.pureBlit (s : State) (x y w h : Int) (f : Nat → Nat → Word) : State :=
  s.finish (blitPure s.cfg x y w h f s.run)

/-- What a blit with accepted operands does on the surface (R182, R186, R190, R197). -/
def blitBody (i : Instr) (s : State) : BlitMode → State
  | .blank => s.pureBlit (blitX i s) (blitY i s) (blitWidth i s) (blitHeight i s) fun _ _ => wordOff
  | .fill => s.pureBlit (blitX i s) (blitY i s) (blitWidth i s) (blitHeight i s) fun _ _ => wordOn
  | .draw =>
    if i = .wordimage then drawWordPlane s s.a0.toNat (blitX i s) (blitY i s) (blitWidth i s) (blitHeight i s)
    else s.pureBlit (blitX i s) (blitY i s) (blitWidth i s) (blitHeight i s) (bitWord s s.a0.toNat (blitWidth i s))

/-- A blit with accepted operands, and a header that no host write races with, checks its area and goes on to its
body (R183). -/
theorem exec_blit_accepted {i : Instr} (hi : i ∈ blitCommands) {s : State} (hacc : blitAccepts i s = true)
    (hq : s.quiet s.a0.toNat (headerBytes i)) {m : BlitMode} (hm : decodeMode (blitMode i s) = some m) :
    exec i s = .next
      (blitChecked s (blitX i s) (blitY i s) (blitWidth i s) (blitHeight i s) (blitBody i s m)) := by
  have hops := blitAccepts_iff.mp hacc
  simp only [not_or, not_and] at hops
  obtain ⟨-, hdraw, hodd⟩ := hops
  rcases mem_blitCommands.mp hi with rfl | rfl | rfl
  · have hq2 : s.quiet s.a0.toNat 2 := hq
    have hw : s.imgByte 0 s.a0.toNat = s.imageByte s.a0.toNat := imgByte_of_quiet hq2 (k := 0) (by omega) 0
    have hh : s.imgByte 1 (s.a0.toNat + 1) = s.imageByte (s.a0.toNat + 1) := imgByte_of_quiet hq2 (by omega) 1
    have hm' : decodeMode s.a3 = some m := hm
    simp only [exec, execBitimage, hw, hh, hm']
    cases m <;> rfl
  · have hq4 : s.quiet s.a0.toNat 4 := hq
    have hw : s.imgWord 0 s.a0.toNat = s.imageWord s.a0.toNat := imgWord_of_quiet hq4 (k := 0) (by omega) 0
    have hh : s.imgWord 2 (s.a0.toNat + 2) = s.imageWord (s.a0.toNat + 2) := imgWord_of_quiet hq4 (by omega) 2
    have ho : s.a0.getLsbD 0 = false := Bool.eq_false_iff.mpr fun e => hodd rfl ((getLsbD_zero_iff_odd _).mp e)
    have hm' : decodeMode s.a3 = some m := hm
    simp only [exec, execWordimage, hw, hh, ho, hm']
    cases m <;> rfl
  · have hm' : decodeMode s.a4 = some m := hm
    simp only [exec, execFillregion, hm']
    cases m with
    | blank => rfl
    | fill => rfl
    | draw => exact absurd (eq_one_of_decodeMode_draw hm) (hdraw rfl)

/-- An area that is not on the surface is empty, or the blit fails with RANGE (R183). -/
theorem blitChecked_offSurface {x y w h : Int} (ha : ¬ areaOnSurface x y w h) (s body : State) :
    blitChecked s x y w h body = if w ≤ 0 ∨ h ≤ 0 then s.finish s.run else s.fail .range s.run := by
  have hcheck : blitCheck x y w h = if w ≤ 0 ∨ h ≤ 0 then .empty else .offSurface := by
    have hne := mt blitCheck_onSurface_iff.mp ha
    rw [blitCheck] at hne ⊢
    split_ifs at hne ⊢ <;> simp at hne ⊢
  rw [blitChecked, hcheck]
  split_ifs <;> rfl

/-- Settles O56: the area check comes before the body. -/
theorem blitsCheckTheirArea : Obligations.BlitsCheckTheirArea := by
  intro i s hi hq hacc ha
  obtain ⟨m, hm⟩ := decodeMode_of_accepted hacc
  have hexec := exec_blit_accepted hi hacc hq hm
  rw [blitChecked_offSurface ha] at hexec
  refine ⟨_, hexec, ?_⟩
  by_cases hempty : blitWidth i s ≤ 0 ∨ blitHeight i s ≤ 0
  · simp only [if_pos hempty]
    exact finish_run_idles s
  · simp only [if_neg hempty]
    obtain ⟨hframe, hsilent, hstatus, hresult⟩ := fail_run_refuses s .range
    exact ⟨hframe, hsilent, hresult, hstatus⟩

/-! ### Constant words -/

/-- A blit of given words on the surface completes with no cause. -/
theorem pureBlit_spec {s : State} (hs : s.displayReady = true) {x y w h : Int} (ha : areaOnSurface x y w h)
    (f : Nat → Nat → Word) : s.frame (s.pureBlit x y w h f) ∧ (s.pureBlit x y w h f).result = s.result ∧
      (s.pureBlit x y w h f).status = endStatus s none ∧ Blits s (s.pureBlit x y w h f) x y w h f := by
  obtain ⟨hblits, hrange⟩ := blits_blitPure hs ha f
  refine ⟨finish_frame s s.result _, rfl, ?_, hblits⟩
  rw [State.pureBlit, finish_status, hrange]
  rfl

/-- Settles O57: in BLANK and FILL mode a blit on the surface sends one word all over. -/
theorem constantBlits : Obligations.ConstantBlits := by
  intro i s hi hs hq hmode heven ha
  have hacc : blitAccepts i s = true := blitAccepts_iff.mpr (by
    rintro (hreserved | ⟨-, hdraw⟩ | ⟨rfl, hodd⟩)
    · exact Nat.not_le.mpr hreserved ((mode_le_two_iff _).mpr (hmode.imp_right .inr))
    · rcases hmode with e | e <;> exact absurd (e.symm.trans hdraw) (by decide)
    · exact absurd (hodd.symm.trans (heven rfl)) (by decide))
  rcases hmode with h | h
  · have hexec := exec_blit_accepted hi hacc hq (m := .blank) (by rw [h]; rfl)
    rw [blitChecked_onSurface ha] at hexec
    simp only [h, if_true]
    exact ⟨_, hexec, pureBlit_spec hs ha _⟩
  · have hexec := exec_blit_accepted hi hacc hq (m := .fill) (by rw [h]; rfl)
    rw [blitChecked_onSurface ha] at hexec
    rw [h, if_neg (by decide)]
    exact ⟨_, hexec, pureBlit_spec hs ha _⟩

/-! ### Screen fills -/

/-- A row of a blit: SetAddress, the write command, and two events for each word (R181). -/
theorem rowEvents_length (c : Config) (y col : Byte) (ws : List Word) :
    (rowEvents c y col ws).length = 7 + 2 * ws.length := by
  have hwords : (ws.flatMap wordEvents).length = 2 * ws.length := by
    rw [List.length_flatMap]
    simp [wordEvents, Nat.mul_comm]
  rw [rowEvents, List.length_append, hwords]
  rfl

/-- CLEAR and FILLSCREEN are a blit of the whole surface, whose 54 word columns begin at 0 (R198, R199). -/
theorem exec_screenFill {i : Instr} {s : State} {v : Word}
    (hi : (i = .clear ∧ v = 0xFFDF) ∨ (i = .fillscreen ∧ v = s.a0)) :
    exec i s = .next (s.pureBlit 0 0 160 160 fun _ _ => v) := by
  rcases hi with ⟨rfl, rfl⟩ | ⟨rfl, rfl⟩ <;> rfl

/-- Settles O60: both commands fill the surface, which is 160 rows of 7 + 2 * 54 events. -/
theorem screenFills : Obligations.ScreenFills := by
  intro i s v hs hi
  obtain ⟨hframe, hresult, hstatus, hdram, htrace⟩ :=
    pureBlit_spec hs (x := 0) (y := 0) (w := 160) (h := 160) (by decide) fun _ _ => v
  have hrows : (s.pureBlit 0 0 160 160 fun _ _ => v).trace =
      s.trace ++ (List.range 160).flatMap fun (r : Nat) =>
        rowEvents s.cfg (BitVec.ofNat 8 r) 0x00 (List.replicate 54 v) := by
    rw [htrace]
    simp only [Int.zero_add, BitVec.ofInt_natCast, List.map_const', List.length_range]
    rfl
  refine ⟨_, exec_screenFill hi, hframe, hresult, hstatus, fun l k => ?_, hrows, ?_⟩
  · rw [hdram]
    exact if_congr (by omega) rfl rfl
  · rw [hrows, List.length_append, List.length_flatMap]
    simp only [rowEvents_length, List.length_replicate, List.map_const', List.length_range, List.sum_replicate,
      smul_eq_mul]

end Sys2Proof.Machine
end

section
/-! What a step answers (R221, R239, R246): a next state, except where another agent's bus transaction lands in a running
command. -/

namespace Sys2Proof.Machine

/-- Noting RANGE neither starts nor ends a command (R247). -/
theorem noteSoFar_busy (s : State) (noted : Bool) : (s.noteSoFar noted).busy = s.busy := by
  rcases noteSoFar_cases s noted with e | ⟨-, -, e⟩
  · rw [e]
  · rw [e]
    simp [State.busy]

/-- Between commands another agent's bus transaction reaches the controller and nothing else (R246). -/
theorem hostAct_bus_idle {s : State} (hb : s.busy = false) (op : BusOp) :
    hostAct (.bus op) s = .next { s with rc := s.rc.apply s.cfg op } := by
  simp [hostAct, hb]

/-- While a command runs another agent's bus transaction is forbidden (R246). -/
theorem hostAct_bus_busy {s : State} (hb : s.busy = true) (op : BusOp) :
    hostAct (.bus op) s = .fault .busContention := by
  simp [hostAct, hb]

/-- Every host action answers a next state but for the bus transaction that R246 forbids. -/
theorem hostAct_next_or_bus (a : HostAct) (s : State) :
    (∃ t, hostAct a s = .next t) ∨ (s.busy = true ∧ ∃ op, a = .bus op) := by
  cases a with
  | write off v => exact .inl ⟨_, rfl⟩
  | read off => exact .inl ⟨_, rfl⟩
  | image a b => exact .inl ⟨_, rfl⟩
  | bus op =>
    cases hb : s.busy with
    | true => exact .inr ⟨rfl, op, rfl⟩
    | false => exact .inl ⟨_, hostAct_bus_idle hb op⟩
  | reset n =>
    obtain ⟨evs, h⟩ := hostAct_reset s n
    exact .inl ⟨_, h⟩

/-- Settles O17: the accepted command completes, a block with no host action stays, and a host action fails only as a
bus transaction that lands in a running command. -/
theorem everyStepContinues : Obligations.EveryStepContinues := by
  refine ⟨fun s => ?_, fun s op => ⟨fun hb => hostAct_bus_idle hb op, fun hb => hostAct_bus_busy hb op⟩⟩
  by_cases hrun : s.busy = true ∧ s.hostFirst = false
  · obtain ⟨t, ht, -⟩ := runCommand_completes s
    exact .inl ⟨t, (step_of_running hrun.1 hrun.2).trans ht⟩
  have hfirst : s.busy = true → s.hostFirst = true := by simpa using hrun
  cases hh : s.host with
  | nil => exact .inl ⟨s, by rw [step_of_hostStep hfirst, hostStep, hh]⟩
  | cons e es =>
    have hearly : s.busy = true → e.early = true := by simpa [State.hostFirst, hh] using hfirst
    rw [step_of_action hh hearly]
    refine (hostAct_next_or_bus e.act _).imp_right ?_
    rintro ⟨hlands, op, hop⟩
    have hb : s.busy = true := by
      rw [noteSoFar_busy] at hlands
      exact hlands
    obtain ⟨early, noted, act⟩ := e
    cases hop
    cases hearly hb
    exact ⟨hostAct_bus_busy hlands op, hb, noted, op, es, rfl⟩

end Sys2Proof.Machine
end

section
/-! The controller a command finds (R66, R250): two controllers between whole commands that hold the same display memory
are told apart by no command but in the bytes of its dummy reads. Each operation that emits events addresses the
display first, so what it sends and writes is a matter of its operands and of display memory alone. -/

namespace Sys2Proof.Machine

/-! ### Events without the bytes of dummy reads -/

theorem maskDummies_data (c : Config) (armed : Bool) (b : Byte) (evs : List BusEvent) :
    maskDummies c armed (.data b :: evs) = .data b :: maskDummies c false evs := rfl

/-- The byte that leaves RMW mode arms no dummy read (R66). -/
theorem maskDummies_rmwout {c : Config} (h : commandBytesDistinct c = true) (armed : Bool) (evs : List BusEvent) :
    maskDummies c armed (.cmd c.cmdRmwout :: evs) = .cmd c.cmdRmwout :: maskDummies c false evs := by
  obtain ⟨-, -, -, -, -, -, -, -, -, hne⟩ := distinct_bytes h
  rw [maskDummies, beq_eq_false_iff_ne.mpr hne]

/-- The one free byte of an RMW cycle is that of its dummy read (R66, R121). -/
theorem maskDummies_rmwEvents (c : Config) (x y : Int) (b b' : Byte) (w : Word) {evs evs' : List BusEvent}
    (h : maskDummies c false evs = maskDummies c false evs') :
    maskDummies c false (rmwEvents c x y b w ++ evs) = maskDummies c false (rmwEvents c x y b' w ++ evs') := by
  simp [rmwEvents, addressEvents, maskDummies, h]

/-- What painting a list of points emits is the same whatever its dummy reads return (R122, R126). -/
theorem maskDummies_paintEvents {c : Config} (h : commandBytesDistinct c = true) (on : Bool)
    (dummy dummy' : Nat → Byte) (pts : List (Int × Int)) (n n' : Nat) (m : Memory) :
    maskDummies c false (paintEvents c on dummy n m pts) = maskDummies c false (paintEvents c on dummy' n' m pts) := by
  induction pts generalizing n n' m with
  | nil => rfl
  | cons p pts ih =>
    rw [paintEvents, paintEvents]
    split
    · simp only [List.append_assoc]
      refine maskDummies_rmwEvents c p.1 p.2 _ _ _ ?_
      simp only [wordEvents, List.cons_append, List.nil_append, maskDummies_data, maskDummies_rmwout h]
      rw [ih (n + 1) (n' + 1)]
    · exact ih n n' m

/-! ### One operation on two controllers -/

/-- The state with another controller. -/
def State.withController (s : State) (r : Controller) : State := { s with rc := r }

/-- Two runs of a command started in `s`, on two controllers, that went alike: the same display memory and the same
noted RANGE, and the same events but for the bytes of dummy reads. -/
structure Alike (s : State) (u u' : Run) : Prop where
  dram : u'.rc.dram = u.rc.dram
  range : u'.range = u.range
  trace : ∃ evs evs', u.trace = s.trace ++ evs ∧ u'.trace = s.trace ++ evs' ∧
    maskDummies s.cfg false evs = maskDummies s.cfg false evs'

section Operations
variable {s : State} {r : Controller} (hs : s.displayReady = true) (hr : r.ready = true) (hd : r.dram = s.rc.dram)

include hd in
/-- The runs as the command starts. -/
theorem alike_run : Alike s s.run (s.withController r).run :=
  ⟨hd, rfl, [], [], (List.append_nil _).symm, (List.append_nil _).symm, rfl⟩

include hs hr hd

/-- SetAddress points both controllers to the same place (R113, R114). -/
theorem alike_setAddress (xa y : Int) :
    Alike s (setAddress s.cfg xa y s.run) (setAddress s.cfg xa y (s.withController r).run) := by
  obtain ⟨hwf, hrc⟩ := displayReady_iff.mp hs
  obtain ⟨-, hw, hm⟩ := ready_iff.mp hrc
  obtain ⟨-, hw', hm'⟩ := ready_iff.mp hr
  refine ⟨?_, rfl, _, _, setAddress_trace xa y, setAddress_trace xa y, rfl⟩
  rw [setAddress_rc (configWf_distinct hwf) xa y hw' hm', setAddress_rc (configWf_distinct hwf) xa y hw hm]
  exact hd

/-- A list of SET or CLEAR accesses (R123, R126). -/
theorem alike_singleAll {k : PointKind} (hk : k ≠ .read) (pts : List (Int × Int)) :
    Alike s (singleAll s.cfg k pts s.run) (singleAll s.cfg k pts (s.withController r).run) := by
  obtain ⟨hwf, hrc⟩ := displayReady_iff.mp hs
  have hc := configWf_distinct hwf
  obtain ⟨hdram, -, -, hrange⟩ := singleAll_spec hc hk pts (u := s.run) hrc
  obtain ⟨hdram', -, -, hrange'⟩ := singleAll_spec hc hk pts (u := (s.withController r).run) hr
  have htrace := singleAll_trace hc hk pts (u := s.run) hrc
  have htrace' := singleAll_trace hc hk pts (u := (s.withController r).run) hr
  refine ⟨?_, hrange'.trans hrange.symm, _, _, htrace, htrace', ?_⟩
  · rw [hdram', hdram, (alike_run hd).dram]
  · rw [(alike_run hd).dram]
    exact maskDummies_paintEvents hc _ _ _ pts _ _ _

/-- The word an RMW cycle reads is one of display memory (R66, R121). -/
theorem rmwWord_withController (x y : Int) :
    rmwWord (rmwOpen s.cfg x y (s.withController r).run) = rmwWord (rmwOpen s.cfg x y s.run) := by
  obtain ⟨hwf, hrc⟩ := displayReady_iff.mp hs
  have hc := configWf_distinct hwf
  obtain ⟨-, hw, hm⟩ := ready_iff.mp hrc
  obtain ⟨-, hw', hm'⟩ := ready_iff.mp hr
  rw [rmwWord_open x y (rmwOpen_rc hc x y hw' hm'), rmwWord_open x y (rmwOpen_rc hc x y hw hm), (alike_run hd).dram]

theorem singleValue_withController (x y : Int) :
    singleValue s.cfg x y (s.withController r).run = singleValue s.cfg x y s.run := by
  rw [singleValue, singleValue, rmwWord_withController hs hr hd]

/-- A READ access, on or off the surface (R121, R124). -/
theorem alike_read (x y : Int) :
    Alike s (single s.cfg x y .read s.run) (single s.cfg x y .read (s.withController r).run) := by
  obtain ⟨hwf, hrc⟩ := displayReady_iff.mp hs
  have hc := configWf_distinct hwf
  obtain ⟨-, hw, hm⟩ := ready_iff.mp hrc
  obtain ⟨-, hw', hm'⟩ := ready_iff.mp hr
  by_cases hon : onScreen x y
  · have hin := inRange_iff.mpr hon
    have htrace' := single_read_events hc hon (u := (s.withController r).run) hr
    rw [(alike_run hd).dram] at htrace'
    refine ⟨?_, by rw [single_range, single_range]; rfl, _, _, single_read_events hc hon (u := s.run) hrc, htrace',
      maskDummies_rmwEvents s.cfg x y _ _ _ rfl⟩
    rw [single_read_rc hc hin hw' hm', single_read_rc hc hin hw hm]
    exact hd
  · rw [single_out (inRange_eq_false hon), single_out (inRange_eq_false hon)]
    exact ⟨hd, rfl, (alike_run hd).trace⟩

/-- The rows of a blit that fit the column window: no read, so the very same events (R181). -/
theorem alike_sendRows (xa y : Int) {rows : List (Nat × List Word)}
    (hfit : ∀ row ∈ rows, (columnByte xa).toNat + row.2.length ≤ s.cfg.colEnd.toNat + 1) :
    Alike s (rows.foldl (sendRow s.cfg xa y) s.run)
      (rows.foldl (sendRow s.cfg xa y) (s.withController r).run) := by
  obtain ⟨hwf, hrc⟩ := displayReady_iff.mp hs
  have hc := configWf_distinct hwf
  obtain ⟨hdram, -, -, hrange, -⟩ := sendRows_spec hc xa y rows (u := s.run) hrc hfit
  obtain ⟨hdram', -, -, hrange', -⟩ := sendRows_spec hc xa y rows (u := (s.withController r).run) hr hfit
  refine ⟨?_, hrange'.trans hrange.symm, _, _, sendRows_trace .., sendRows_trace .., rfl⟩
  rw [hdram', hdram, (alike_run hd).dram]

end Operations

/-! ### One command on two controllers -/

theorem exec_readword_offScreen {s : State} (hs : ¬ onScreen s.a0.toInt s.a1.toInt) :
    exec .readword s = .next ((s.setResult resultSentinel).fail .range s.run) := by
  have hr : ¬ inRange (sext16 s.a0) (sext16 s.a1) = true := fun e => hs (inRange_iff.mp e)
  rw [exec, execReadword, if_neg hr]

theorem exec_writeword_offScreen {s : State} (hs : ¬ onScreen s.a0.toInt s.a1.toInt) :
    exec .writeword s = .next (s.fail .range s.run) := by
  have hr : ¬ inRange (sext16 s.a0) (sext16 s.a1) = true := fun e => hs (inRange_iff.mp e)
  rw [exec, execWriteword, if_neg hr]

/-- `t` and `t'` are where a command ends on two controllers on which it went alike: they differ in the controller and
the trace alone. -/
def AlikeEnds (s t t' : State) : Prop :=
  ∃ u u', Alike s u u' ∧ t.rc = u.rc ∧ t.trace = u.trace ∧ t' = { t with rc := u'.rc, trace := u'.trace }

namespace AlikeEnds
variable {s : State} {u u' : Run} (r : Controller) {v v' : Word} (f : StatusField)

/-- A command puts of its run the controller, the trace and a noted RANGE into the state (R15, R27). -/
theorem finishWith (hv : v' = v) (h : Alike s u u') :
    AlikeEnds s ((s.setResult v).finish u) (((s.withController r).setResult v').finish u') := by
  refine ⟨u, u', h, rfl, rfl, ?_⟩
  rw [State.finish, State.commit, h.range, hv]
  rfl

theorem finish (h : Alike s u u') : AlikeEnds s (s.finish u) ((s.withController r).finish u') :=
  finishWith (v := s.result) r rfl h

theorem failWith (v : Word) (h : Alike s u u') :
    AlikeEnds s ((s.setResult v).fail f u) (((s.withController r).setResult v).fail f u') := by
  refine ⟨u, u', h, rfl, rfl, ?_⟩
  rw [State.fail, State.commit, h.range]
  rfl

theorem fail (h : Alike s u u') : AlikeEnds s (s.fail f u) ((s.withController r).fail f u') :=
  failWith r f s.result h

end AlikeEnds

section Commands
variable {s : State} {r : Controller} (hs : s.displayReady = true) (hr : r.ready = true) (hd : r.dram = s.rc.dram)
include hd

/-- An area is checked before anything is emitted (R183). -/
theorem alikeEnds_blitChecked {x y w h : Int} {body body' : State}
    (hbody : areaOnSurface x y w h → AlikeEnds s body body') :
    AlikeEnds s (blitChecked s x y w h body) (blitChecked (s.withController r) x y w h body') := by
  by_cases ha : areaOnSurface x y w h
  · rw [blitChecked_onSurface ha, blitChecked_onSurface ha]
    exact hbody ha
  · rw [blitChecked_offSurface ha, blitChecked_offSurface ha]
    split
    · exact .finish r (alike_run hd)
    · exact .fail r .range (alike_run hd)

include hs hr

/-- A shape with a valid pen is a list of SET or CLEAR accesses; with another it emits nothing (R151). -/
theorem alikeEnds_drawShape (pen : Word) (pts : List (Int × Int)) :
    AlikeEnds s (drawShape s pen pts) (drawShape (s.withController r) pen pts) := by
  rw [drawShape, drawShape]
  split
  · rename_i hpen
    rw [decodeOp_penOp hpen, plotAll_eq_singleAll, plotAll_eq_singleAll]
    exact .finish r (alike_singleAll hs hr hd (compositeKind_ne_read _) _)
  · exact .fail r .illegal (alike_run hd)

/-- A blit of given words, after its area check (R181, R183). -/
theorem alikeEnds_pureBlit (x y w h : Int) (f : Nat → Nat → Word) :
    AlikeEnds s (blitChecked s x y w h (s.pureBlit x y w h f))
      (blitChecked (s.withController r) x y w h ((s.withController r).pureBlit x y w h f)) := by
  refine alikeEnds_blitChecked hd fun ha => ?_
  have hfit := sourceRows_fit ha (displayReady_iff.mp hs).1 (next := pureSource f) (rs := List.range h.toNat) (d := ())
  have hrows := alike_sendRows hs hr hd (blitColumn x w) y hfit
  refine .finish r ?_
  rw [blitPure, blitPure, blitRows_eq, blitRows_eq]
  exact hrows

/-- The decoder reads image memory, not the controller, so it stops at the same word (R193, R194). -/
theorem alikeEnds_wordPlane (p : Nat) {x y w h : Int} (ha : areaOnSurface x y w h) :
    AlikeEnds s (drawWordPlane s p x y w h) (drawWordPlane (s.withController r) p x y w h) := by
  have hfit := sourceRows_fit ha (displayReady_iff.mp hs).1 (next := fun _ _ d => nextWord s d)
    (rs := List.range h.toNat) (d := Decoder.start s p)
  have hrows := alike_sendRows hs hr hd (blitColumn x w) y hfit
  have hplane := blitRows_eq s.cfg (blitColumn x w) y (blitWords w) (fun _ _ d => nextWord s d) (List.range h.toNat)
    (Decoder.start s p)
  have e : wordPlaneRows s p x y w h = _ := hplane s.run
  have e' : wordPlaneRows (s.withController r) p x y w h = _ := hplane (s.withController r).run
  rw [drawWordPlane_eq, drawWordPlane_eq, e, e']
  dsimp only
  split
  · exact .finish r hrows
  · exact .fail r .badimg hrows

/-- Command `i` answers a next state both in `s` and on the controller `r`, and the two end alike. -/
def GoesAlike (i : Instr) (s : State) (r : Controller) : Prop :=
  ∃ t t', exec i s = .next t ∧ exec i (s.withController r) = .next t' ∧ AlikeEnds s t t'

/-- POINT (R128). -/
theorem goesAlike_point : GoesAlike .point s r := by
  have hop' : decodeOp (s.withController r).a2 = decodeOp s.a2 := rfl
  cases hop : decodeOp s.a2 with
  | single k =>
    cases k with
    | read =>
      have ha := (decodeOp_read_iff _).mp hop
      exact ⟨_, _, exec_pointRead ha, exec_pointRead (s := s.withController r) ha, .finishWith r
        (congrArg readResult (singleValue_withController hs hr hd _ _)) (alike_read hs hr hd _ _)⟩
    | set | clear =>
      simp only [GoesAlike, exec, execPoint, hop', hop]
      exact ⟨_, _, rfl, rfl, .finish r (alike_singleAll hs hr hd (by decide) [(sext16 s.a0, sext16 s.a1)])⟩
  | composite on code =>
    exact ⟨_, _, exec_point_composite hop, exec_point_composite (s := s.withController r) hop,
      .finish r (alike_singleAll hs hr hd (compositeKind_ne_read on) _)⟩
  | reserved =>
    simp only [GoesAlike, exec, execPoint, hop', hop]
    exact ⟨_, _, rfl, rfl, .fail r .illegal (alike_run hd)⟩

/-- READWORD (R131). -/
theorem goesAlike_readword : GoesAlike .readword s r := by
  by_cases hon : onScreen s.a0.toInt s.a1.toInt
  · exact ⟨_, _, exec_readword_onScreen hon, exec_readword_onScreen (s := s.withController r) hon,
      .finishWith r (rmwWord_withController hs hr hd _ _) (alike_read hs hr hd _ _)⟩
  · exact ⟨_, _, exec_readword_offScreen hon, exec_readword_offScreen (s := s.withController r) hon,
      .failWith r .range resultSentinel (alike_run hd)⟩

/-- WRITEWORD (R134). -/
theorem goesAlike_writeword : GoesAlike .writeword s r := by
  by_cases hon : onScreen s.a0.toInt s.a1.toInt
  · have hbound := wordByte_toNat hon.1 hon.2.1
    have hend := configWf_colEnd (displayReady_iff.mp hs).1
    have hrow := alike_sendRows hs hr hd (159 - s.a0.toInt) s.a1.toInt (rows := [(0, [s.a2])]) fun row hmem => by
      rw [List.mem_singleton.mp hmem, columnByte_wordByte hon.1 hon.2.1, List.length_singleton]
      omega
    exact ⟨_, _, exec_writeword_onScreen hon, exec_writeword_onScreen (s := s.withController r) hon, .finish r hrow⟩
  · exact ⟨_, _, exec_writeword_offScreen hon, exec_writeword_offScreen (s := s.withController r) hon,
      .fail r .range (alike_run hd)⟩

/-- BITIMAGE (R186). -/
theorem goesAlike_bitimage : GoesAlike .bitimage s r := by
  have hm' : decodeMode (s.withController r).a3 = decodeMode s.a3 := rfl
  cases hm : decodeMode s.a3 with
  | none =>
    simp only [GoesAlike, exec, execBitimage, hm', hm]
    exact ⟨_, _, rfl, rfl, .fail r .illegal (alike_run hd)⟩
  | some mode =>
    simp only [GoesAlike, exec, execBitimage, hm', hm]
    cases mode <;> exact ⟨_, _, rfl, rfl, alikeEnds_pureBlit hs hr hd ..⟩

/-- WORDIMAGE (R190). -/
theorem goesAlike_wordimage : GoesAlike .wordimage s r := by
  have hm' : decodeMode (s.withController r).a3 = decodeMode s.a3 := rfl
  have ho' : (s.withController r).a0.getLsbD 0 = s.a0.getLsbD 0 := rfl
  cases hm : decodeMode s.a3 with
  | none =>
    simp only [GoesAlike, exec, execWordimage, hm', hm]
    exact ⟨_, _, rfl, rfl, .fail r .illegal (alike_run hd)⟩
  | some mode =>
    simp only [GoesAlike, exec, execWordimage, hm', hm, ho']
    split
    · exact ⟨_, _, rfl, rfl, .fail r .illegal (alike_run hd)⟩
    · cases mode with
      | blank | fill => exact ⟨_, _, rfl, rfl, alikeEnds_pureBlit hs hr hd ..⟩
      | draw => exact ⟨_, _, rfl, rfl, alikeEnds_blitChecked hd (alikeEnds_wordPlane hs hr hd _)⟩

/-- FILLREGION (R197). -/
theorem goesAlike_fillregion : GoesAlike .fillregion s r := by
  have hm' : decodeMode (s.withController r).a4 = decodeMode s.a4 := rfl
  cases hm : decodeMode s.a4 with
  | none =>
    simp only [GoesAlike, exec, execFillregion, hm', hm]
    exact ⟨_, _, rfl, rfl, .fail r .illegal (alike_run hd)⟩
  | some mode =>
    simp only [GoesAlike, exec, execFillregion, hm', hm]
    cases mode with
    | draw => exact ⟨_, _, rfl, rfl, .fail r .illegal (alike_run hd)⟩
    | blank | fill => exact ⟨_, _, rfl, rfl, alikeEnds_pureBlit hs hr hd ..⟩

/-- CLEAR and FILLSCREEN blit the whole surface (R198, R199). -/
theorem goesAlike_screenFill {i : Instr} {v : Word}
    (hi : (i = .clear ∧ v = 0xFFDF) ∨ (i = .fillscreen ∧ v = s.a0)) : GoesAlike i s r := by
  have hfill := alikeEnds_pureBlit hs hr hd 0 0 160 160 fun _ _ => v
  rw [blitChecked_onSurface (by decide), blitChecked_onSurface (by decide)] at hfill
  exact ⟨_, _, exec_screenFill hi, exec_screenFill (s := s.withController r) hi, hfill⟩

/-- Every command goes alike on two controllers between whole commands with the same display memory (R250). -/
theorem exec_goesAlike (i : Instr) : GoesAlike i s r := by
  cases i with
  | nop => exact ⟨_, _, rfl, rfl, .finish r (alike_run hd)⟩
  | setaddr => exact ⟨_, _, rfl, rfl, .finish r (alike_setAddress hs hr hd _ _)⟩
  | point => exact goesAlike_point hs hr hd
  | readword => exact goesAlike_readword hs hr hd
  | writeword => exact goesAlike_writeword hs hr hd
  | blank => exact ⟨_, _, rfl, rfl, .finish r (alike_singleAll hs hr hd (by decide) _)⟩
  | circle | rect | triangle | star => exact ⟨_, _, rfl, rfl, alikeEnds_drawShape hs hr hd ..⟩
  | bitimage => exact goesAlike_bitimage hs hr hd
  | wordimage => exact goesAlike_wordimage hs hr hd
  | fillregion => exact goesAlike_fillregion hs hr hd
  | clear => exact goesAlike_screenFill hs hr hd (.inl ⟨rfl, rfl⟩)
  | fillscreen => exact goesAlike_screenFill hs hr hd (.inr ⟨rfl, rfl⟩)

end Commands

/-- Settles O32: the two ends of the command differ in the controller and the trace alone, and these agree as `Alike`
says. -/
theorem controllerPointerDoesNotMatter : Obligations.ControllerPointerDoesNotMatter := by
  intro i s r hs hr hd
  obtain ⟨t, t', ht, ht', u, u', ⟨hdram, -, evs, evs', htrace, htrace', hmask⟩, hrc, htr, rfl⟩ :=
    exec_goesAlike hs hr hd i
  exact ⟨t, _, evs, evs', ht, ht', rfl, hdram.trans (congrArg Controller.dram hrc.symm), htr.trans htrace, htrace',
    hmask⟩

end Sys2Proof.Machine
end
